-- ==== Sys2Proof/Word.lean ====
section
/-! DEFINITION. The one word type of the hardware (20_memory.md R32: no quantity is wider than one byte). -/

namespace Sys2Proof

/-- A byte, an unsigned integer 0..255 (00_scope.md R8). -/
abbrev Byte := BitVec 8

end Sys2Proof
end

