-- ==== Sys2Proof/Config.lean ====
section
/-! DEFINITION. The configuration record of 00_scope.md R6: what an implementation fixes and no operation
writes (R7). The values the source fixes are constants here, not fields. The machine carries its
configuration in `State.cfg` (log 1), so that every statement holds for every configuration. -/

namespace Sys2Proof

/-- The parameters of R6. `font` is the partial function `FONT` as a list of (code, glyph) pairs with
strictly rising codes; a code that is not listed is outside `dom(FONT)`. `initTable` is a table given as
`INIT_SEQ`, or `none` for the default one of R141, which follows `CONTRAST_NORMAL`. -/
structure Config where
  pages : Nat
  columns : Nat
  glyphW : Nat
  font : List (Byte × List Byte)
  fallbackGlyph : List Byte
  initTable : Option (List (List Byte))
  contrastNormal : Byte
  contrastDim : Byte
  scrollInterval : Byte
  scrollVOffset : Byte
  deriving DecidableEq, Repr

/-- `ROWS_PER_PAGE`, fixed by the byte width (R6, 90_conflicts.md C7). -/
abbrev rowsPerPage : Nat := 8

/-- `SPACING`, the blank columns after each glyph (R6). -/
abbrev spacing : Nat := 1

/-- `CTRL_CMD`, the Transport register address of a command stream (R6, R36). -/
abbrev ctrlCmd : Byte := 0x00#8

/-- `CTRL_DATA`, the Transport register address of a data stream (R6, R36). -/
abbrev ctrlData : Byte := 0x40#8

end Sys2Proof
end

