-- ==== Sys2Proof/Syntax.lean ====
section
/-! DEFINITION. The instructions: one constructor per row of spec/opcode_table.json. The 13 `REQ` rows are
the host's operations (30_encoding.md R52), the 28 `DEV_CMD` rows the device commands of the command
register mapper (45_command_mapper.md R120 to R139), the 2 `TXN` rows the two kinds of Transport
transaction (30_encoding.md R59). Operand fields are those the rows' rules name. -/

namespace Sys2Proof

/-- The six parameter bytes of a horizontal scroll setup, in payload order (R127, R128). -/
structure HScroll where
  dummy0 : Byte
  startPage : Byte
  interval : Byte
  endPage : Byte
  dummy1 : Byte
  dummy2 : Byte
  deriving DecidableEq, Repr

/-- The five parameter bytes of a diagonal scroll setup, in payload order (R129, R130). -/
structure VHScroll where
  dummy0 : Byte
  startPage : Byte
  interval : Byte
  endPage : Byte
  voffset : Byte
  deriving DecidableEq, Repr

inductive Instr where
  -- REQ: the host operations
  /-- R70 -/
  | construct (busId deviceAddress : Byte)
  /-- R81 -/
  | clear
  /-- R82 -/
  | draw (bitmap : List Byte)
  /-- R90 -/
  | setCursor (page column : Byte)
  /-- R91 -/
  | write (text : List Byte)
  /-- R100 -/
  | invert (enable : Bool)
  /-- R101 -/
  | dim (enable : Bool)
  /-- R112 -/
  | startscrollright (startPage endPage : Byte)
  /-- R113 -/
  | startscrollleft (startPage endPage : Byte)
  /-- R114 -/
  | startscrolldiagleft (startPage endPage : Byte)
  /-- R115 -/
  | startscrolldiagright (startPage endPage : Byte)
  /-- R117 -/
  | stopscroll
  /-- R71 -/
  | teardown
  -- DEV_CMD: the device commands
  /-- R120 -/
  | setContrast (v : Byte)
  /-- R121 -/
  | displayOff
  /-- R122 -/
  | displayOn
  /-- R123 -/
  | normalDisplay
  /-- R124 -/
  | inverseDisplay
  /-- R125 -/
  | entireResume
  /-- R126 -/
  | entireOn
  /-- R127 -/
  | scrollHRight (p : HScroll)
  /-- R128 -/
  | scrollHLeft (p : HScroll)
  /-- R129 -/
  | scrollVHRight (p : VHScroll)
  /-- R130 -/
  | scrollVHLeft (p : VHScroll)
  /-- R131 -/
  | scrollDeactivate
  /-- R132 -/
  | scrollActivate
  /-- R133 -/
  | setPageStart (page : BitVec 3)
  /-- R134 -/
  | setColLow (nibble : BitVec 4)
  /-- R135 -/
  | setColHigh (nibble : BitVec 3)
  /-- R137 -/
  | setVscrollArea (top rows : Byte)
  /-- R139 -/
  | setClockDiv (v : Byte)
  /-- R139 -/
  | setMultiplex (v : Byte)
  /-- R139 -/
  | setDisplayOffset (v : Byte)
  /-- R139 -/
  | setStartLine (line : BitVec 6)
  /-- R139 -/
  | chargePump (v : Byte)
  /-- R139 -/
  | setAddressingMode (mode : Byte)
  /-- R139 -/
  | segRemap (b : Bool)
  /-- R139 -/
  | comScanDir (b : Bool)
  /-- R139 -/
  | setComPins (v : Byte)
  /-- R139 -/
  | setPrecharge (v : Byte)
  /-- R139 -/
  | setVcomh (v : Byte)
  -- TXN: the Transport transactions
  /-- R59; the transaction of a command that the tables of R138 and R139 do not name. -/
  | txnCommand (payload : List Byte)
  /-- R59 -/
  | txnData (data : List Byte)
  deriving DecidableEq, Repr

/-- The three formats of the opcode table. Their encodings share byte values (0x00 is `construct`,
`SET_COL_LOW(0)` and the command control byte); the port the bytes stand on tells them apart (log 11). -/
inductive Format where
  | req
  | devCmd
  | txn
  deriving DecidableEq, Repr

/-- The two ports an instruction's bytes can stand on: the host's request port (R50) and the
sequencer's own plan of Transport transactions (R57, R59). -/
inductive Port where
  | request
  | transport
  deriving DecidableEq, Repr

/-- The format of a constructor's row in the opcode table. -/
def Instr.format : Instr → Format
  | .construct _ _ | .clear | .draw _ | .setCursor _ _ | .write _ | .invert _ | .dim _
  | .startscrollright _ _ | .startscrollleft _ _ | .startscrolldiagleft _ _
  | .startscrolldiagright _ _ | .stopscroll | .teardown => .req
  | .setContrast _ | .displayOff | .displayOn | .normalDisplay | .inverseDisplay | .entireResume
  | .entireOn | .scrollHRight _ | .scrollHLeft _ | .scrollVHRight _ | .scrollVHLeft _
  | .scrollDeactivate | .scrollActivate | .setPageStart _ | .setColLow _ | .setColHigh _
  | .setVscrollArea _ _ | .setClockDiv _ | .setMultiplex _ | .setDisplayOffset _ | .setStartLine _
  | .chargePump _ | .setAddressingMode _ | .segRemap _ | .comScanDir _ | .setComPins _
  | .setPrecharge _ | .setVcomh _ => .devCmd
  | .txnCommand _ | .txnData _ => .txn

/-- The port an instruction of this format is read from. -/
def Format.port : Format → Port
  | .req => .request
  | .devCmd | .txn => .transport

/-- A request as it stands in the four operand latches (10_state.md R11, 30_encoding.md R50). -/
structure Request where
  op : Byte
  a : Byte
  b : Byte
  payload : List Byte
  deriving DecidableEq, Repr

/-- A transaction `W(addr, data)`: a control byte and a payload (30_encoding.md R59). -/
structure Txn where
  control : Byte
  data : List Byte
  deriving DecidableEq, Repr

end Sys2Proof
end

