-- ==== Sys2Proof/Decode.lean ====
section
/-! DEFINITION. The decoder of both ports, total on any bytes and rejecting by name, and after it the
encoder, written from the same tables: 30_encoding.md R50, R52 to R56, R59 and 45_command_mapper.md
R120 to R139. -/

namespace Sys2Proof

/-- Why bytes are no instruction. -/
inductive Reject where
  /-- A request of fewer than the three fixed bytes (R50). -/
  | shortRequest
  /-- An operation code in 0x0D..0xFF (R56). -/
  | reservedOp (op : Byte)
  /-- A transaction without its control byte, or with an empty payload (R59: `len(data) ≥ 1`). -/
  | emptyTransaction
  /-- A control byte other than 0x00 and 0x40 (R64). -/
  | badControl (control : Byte)
  /-- A command whose first byte the tables of R138 and R139 do not list. -/
  | unlistedCommand (opcode : Byte)
  /-- A listed command with another length than its opcode fixes (R59). -/
  | badLength (opcode : Byte)
  deriving DecidableEq, Repr

/-! ## Requests -/

/-- R50: three fixed bytes, then the payload. -/
def parseRequest : List Byte → Except Reject Request
  | op :: a :: b :: payload => .ok ⟨op, a, b, payload⟩
  | _ => .error .shortRequest

/-- R54: 0x00 is false and every other byte is true. -/
def enableOf (a : Byte) : Bool := a != 0x00#8

/-- R52: the operation codes; R53 to R55: the latches an operation uses, the others ignored. -/
def decodeRequest (r : Request) : Except Reject Instr :=
  match r.op.toNat with
  | 0x00 => .ok (.construct r.a r.b)
  | 0x01 => .ok .clear
  | 0x02 => .ok (.draw r.payload)
  | 0x03 => .ok (.setCursor r.a r.b)
  | 0x04 => .ok (.write r.payload)
  | 0x05 => .ok (.invert (enableOf r.a))
  | 0x06 => .ok (.dim (enableOf r.a))
  | 0x07 => .ok (.startscrollright r.a r.b)
  | 0x08 => .ok (.startscrollleft r.a r.b)
  | 0x09 => .ok (.startscrolldiagleft r.a r.b)
  | 0x0A => .ok (.startscrolldiagright r.a r.b)
  | 0x0B => .ok .stopscroll
  | 0x0C => .ok .teardown
  | _ => .error (.reservedOp r.op)

/-! ## Device commands -/

/-- One row of the mapper's table (R138): the first payload byte `op` belongs to the row when
`op &&& mask = pattern`; `params` parameter bytes follow; `build` makes the command of the first byte
and the parameters. -/
structure CommandRow where
  pattern : Byte
  mask : Byte
  params : Nat
  build : Byte → List Byte → Instr

/-- Parameter byte `k` of a command (0x00 past the end, where no row of the table reads). -/
def param (ps : List Byte) (k : Nat) : Byte := ps.getD k 0x00#8

/-- The parameter layout of R127. -/
def hScrollOf (ps : List Byte) : HScroll :=
  ⟨param ps 0, param ps 1, param ps 2, param ps 3, param ps 4, param ps 5⟩

/-- The parameter layout of R129. -/
def vhScrollOf (ps : List Byte) : VHScroll :=
  ⟨param ps 0, param ps 1, param ps 2, param ps 3, param ps 4⟩

/-- The addressing rows of R138 (R133 to R135). -/
def addressingRows : List CommandRow :=
  [ ⟨0x00, 0xF0, 0, fun op _ => .setColLow (op.setWidth 4)⟩,
    ⟨0x10, 0xF8, 0, fun op _ => .setColHigh (op.setWidth 3)⟩,
    ⟨0xB0, 0xF8, 0, fun op _ => .setPageStart (op.setWidth 3)⟩ ]

/-- The scroll rows of R138 (R127 to R132, R137). -/
def scrollRows : List CommandRow :=
  [ ⟨0x26, 0xFF, 6, fun _ ps => .scrollHRight (hScrollOf ps)⟩,
    ⟨0x27, 0xFF, 6, fun _ ps => .scrollHLeft (hScrollOf ps)⟩,
    ⟨0x29, 0xFF, 5, fun _ ps => .scrollVHRight (vhScrollOf ps)⟩,
    ⟨0x2A, 0xFF, 5, fun _ ps => .scrollVHLeft (vhScrollOf ps)⟩,
    ⟨0x2E, 0xFF, 0, fun _ _ => .scrollDeactivate⟩,
    ⟨0x2F, 0xFF, 0, fun _ _ => .scrollActivate⟩,
    ⟨0xA3, 0xFF, 2, fun _ ps => .setVscrollArea (param ps 0) (param ps 1)⟩ ]

/-- The display-mode rows of R138 (R120 to R126). -/
def displayRows : List CommandRow :=
  [ ⟨0x81, 0xFF, 1, fun _ ps => .setContrast (param ps 0)⟩,
    ⟨0xA4, 0xFF, 0, fun _ _ => .entireResume⟩,
    ⟨0xA5, 0xFF, 0, fun _ _ => .entireOn⟩,
    ⟨0xA6, 0xFF, 0, fun _ _ => .normalDisplay⟩,
    ⟨0xA7, 0xFF, 0, fun _ _ => .inverseDisplay⟩,
    ⟨0xAE, 0xFF, 0, fun _ _ => .displayOff⟩,
    ⟨0xAF, 0xFF, 0, fun _ _ => .displayOn⟩ ]

/-- The init-only rows (R139), which extend the table of R138. -/
def initRows : List CommandRow :=
  [ ⟨0xD5, 0xFF, 1, fun _ ps => .setClockDiv (param ps 0)⟩,
    ⟨0xA8, 0xFF, 1, fun _ ps => .setMultiplex (param ps 0)⟩,
    ⟨0xD3, 0xFF, 1, fun _ ps => .setDisplayOffset (param ps 0)⟩,
    ⟨0x40, 0xC0, 0, fun op _ => .setStartLine (op.setWidth 6)⟩,
    ⟨0x8D, 0xFF, 1, fun _ ps => .chargePump (param ps 0)⟩,
    ⟨0x20, 0xFF, 1, fun _ ps => .setAddressingMode (param ps 0)⟩,
    ⟨0xA0, 0xFE, 0, fun op _ => .segRemap (op.getLsbD 0)⟩,
    ⟨0xC0, 0xF7, 0, fun op _ => .comScanDir (op.getLsbD 3)⟩,
    ⟨0xDA, 0xFF, 1, fun _ ps => .setComPins (param ps 0)⟩,
    ⟨0xD9, 0xFF, 1, fun _ ps => .setPrecharge (param ps 0)⟩,
    ⟨0xDB, 0xFF, 1, fun _ ps => .setVcomh (param ps 0)⟩ ]

/-- The whole table: R138 extended by R139. -/
def commandTable : List CommandRow := addressingRows ++ scrollRows ++ displayRows ++ initRows

/-- Whether a first payload byte belongs to a row. -/
def CommandRow.accepts (row : CommandRow) (op : Byte) : Bool := op &&& row.mask == row.pattern

/-- The row of a first payload byte. -/
def commandRow (op : Byte) : Option CommandRow := commandTable.find? (·.accepts op)

/-- R138: a command payload is decoded by its first byte; R59: its length is fixed by its opcode. -/
def decodeCommand : List Byte → Except Reject Instr
  | [] => .error .emptyTransaction
  | op :: ps =>
    match commandRow op with
    | none => .error (.unlistedCommand op)
    | some row => if ps.length = row.params then .ok (row.build op ps) else .error (.badLength op)

/-! ## Transactions -/

/-- R59: the control byte tells a command from data. A command that the tables do not name (an
`INIT_SEQ` is opaque to the block, R139) is still one transaction: `txnCommand` (log 12). -/
def decodeTxn (w : Txn) : Except Reject Instr :=
  if w.data = [] then .error .emptyTransaction
  else if w.control = ctrlCmd then
    match decodeCommand w.data with
    | .ok i => .ok i
    | .error _ => .ok (.txnCommand w.data)
  else if w.control = ctrlData then .ok (.txnData w.data)
  else .error (.badControl w.control)

/-- Bytes on the Transport: the control byte, then the payload. -/
def parseTxn : List Byte → Except Reject Txn
  | [] => .error .emptyTransaction
  | control :: data => .ok ⟨control, data⟩

/-- The decoder: what the bytes on a port stand for. -/
def decode (port : Port) (bytes : List Byte) : Except Reject Instr :=
  match port with
  | .request => (parseRequest bytes).bind decodeRequest
  | .transport => (parseTxn bytes).bind decodeTxn

/-! ## The encoder -/

/-- R62: `true` encodes as 0x01, `false` as 0x00. -/
def enableByte (enable : Bool) : Byte := if enable then 0x01#8 else 0x00#8

/-- The payload bytes of a horizontal scroll setup after its opcode (R127). -/
def HScroll.bytes (p : HScroll) : List Byte :=
  [p.dummy0, p.startPage, p.interval, p.endPage, p.dummy1, p.dummy2]

/-- The payload bytes of a diagonal scroll setup after its opcode (R129). -/
def VHScroll.bytes (p : VHScroll) : List Byte :=
  [p.dummy0, p.startPage, p.interval, p.endPage, p.voffset]

/-- The encoder, which on the device commands is the command register mapper: a pure function from
a logical command to its payload (R120 to R139), here behind the control byte 0x00 of its
transaction. Unused latches of a request are 0x00 (R62). -/
def encode : Instr → List Byte
  | .construct busId deviceAddress => [0x00, busId, deviceAddress]
  | .clear => [0x01, 0x00, 0x00]
  | .draw bitmap => 0x02#8 :: 0x00#8 :: 0x00#8 :: bitmap
  | .setCursor page column => [0x03, page, column]
  | .write text => 0x04#8 :: 0x00#8 :: 0x00#8 :: text
  | .invert enable => [0x05, enableByte enable, 0x00]
  | .dim enable => [0x06, enableByte enable, 0x00]
  | .startscrollright s e => [0x07, s, e]
  | .startscrollleft s e => [0x08, s, e]
  | .startscrolldiagleft s e => [0x09, s, e]
  | .startscrolldiagright s e => [0x0A, s, e]
  | .stopscroll => [0x0B, 0x00, 0x00]
  | .teardown => [0x0C, 0x00, 0x00]
  | .setContrast v => [ctrlCmd, 0x81, v]
  | .displayOff => [ctrlCmd, 0xAE]
  | .displayOn => [ctrlCmd, 0xAF]
  | .normalDisplay => [ctrlCmd, 0xA6]
  | .inverseDisplay => [ctrlCmd, 0xA7]
  | .entireResume => [ctrlCmd, 0xA4]
  | .entireOn => [ctrlCmd, 0xA5]
  | .scrollHRight p => ctrlCmd :: 0x26#8 :: p.bytes
  | .scrollHLeft p => ctrlCmd :: 0x27#8 :: p.bytes
  | .scrollVHRight p => ctrlCmd :: 0x29#8 :: p.bytes
  | .scrollVHLeft p => ctrlCmd :: 0x2A#8 :: p.bytes
  | .scrollDeactivate => [ctrlCmd, 0x2E]
  | .scrollActivate => [ctrlCmd, 0x2F]
  | .setPageStart page => [ctrlCmd, 0xB0#8 ||| page.setWidth 8]
  | .setColLow nibble => [ctrlCmd, 0x00#8 ||| nibble.setWidth 8]
  | .setColHigh nibble => [ctrlCmd, 0x10#8 ||| nibble.setWidth 8]
  | .setVscrollArea top rows => [ctrlCmd, 0xA3, top, rows]
  | .setClockDiv v => [ctrlCmd, 0xD5, v]
  | .setMultiplex v => [ctrlCmd, 0xA8, v]
  | .setDisplayOffset v => [ctrlCmd, 0xD3, v]
  | .setStartLine line => [ctrlCmd, 0x40#8 ||| line.setWidth 8]
  | .chargePump v => [ctrlCmd, 0x8D, v]
  | .setAddressingMode mode => [ctrlCmd, 0x20, mode]
  | .segRemap b => [ctrlCmd, if b then 0xA1 else 0xA0]
  | .comScanDir b => [ctrlCmd, if b then 0xC8 else 0xC0]
  | .setComPins v => [ctrlCmd, 0xDA, v]
  | .setPrecharge v => [ctrlCmd, 0xD9, v]
  | .setVcomh v => [ctrlCmd, 0xDB, v]
  | .txnCommand payload => ctrlCmd :: payload
  | .txnData data => ctrlData :: data

/-- The transaction an instruction of the Transport port stands for: its control byte and payload. -/
def txnOf (i : Instr) : Txn := ⟨(encode i).headD 0x00#8, (encode i).tail⟩

/-! ## Words numbered as the opcode table numbers them -/

/-- Byte `k` of a word whose bit 0 is the least significant bit of its first byte. -/
def wordByte (w k : Nat) : Byte := BitVec.ofNat 8 (w / 256 ^ k)

/-- Bytes `k`, `k + 1`, … of a word, `n` of them. -/
def wordBytes (w k n : Nat) : List Byte := (List.range' k n).map (wordByte w)

/-- Whether a word's first byte is read as a request, as a data transaction or as a device command.
The table's three formats share first bytes; a request code comes first, then the data control byte,
then the commands (log 11). -/
def tableFormat (w : Nat) : Format :=
  if (wordByte w 0).toNat ≤ 0x0C then .req
  else if wordByte w 0 = ctrlData then .txn
  else .devCmd

/-- The bytes of a table word as they stand on their port, all bits above `nbits` being 0: a request
with its three fixed bytes; a data transaction with at least one data byte; a command behind its
control byte, as long as its opcode fixes. -/
def tableBytes (nbits w : Nat) : List Byte :=
  match tableFormat w with
  | .req => wordBytes w 0 (max 3 (nbits / 8))
  | .txn => wordBytes w 0 (max 2 (nbits / 8))
  | .devCmd =>
    ctrlCmd :: wordBytes w 0 (match commandRow (wordByte w 0) with | some row => row.params + 1 | none => 1)

/-- The instruction the decoder reads from a table word (none where it names no row of the table). -/
def decodeTableWord (nbits w : Nat) : Option Instr :=
  match decode (tableFormat w).port (tableBytes nbits w) with
  | .ok (.txnCommand _) => none
  | .ok i => some i
  | .error _ => none

end Sys2Proof
end

