-- ==== Sys2Proof/Machine/Parameters.lean ====
section
/-! DEFINITION. What 00_scope.md R6 derives from the configuration, its constraints, and the default
configuration (R6, 45_command_mapper.md R141). -/

namespace Sys2Proof

/-- `FB_LEN = PAGES × COLUMNS` (R6, R20). -/
def Config.fbLen (cfg : Config) : Nat := cfg.pages * cfg.columns

/-- `CELL_W = GLYPH_W + SPACING` (R6). -/
def Config.cellW (cfg : Config) : Nat := cfg.glyphW + spacing

/-- Strictly rising codes: the font is a partial function in one canonical form (R6, log 2). -/
def fontSorted : List (Byte × List Byte) → Bool
  | [] => true
  | (code, _) :: rest => rest.all (fun g => decide (code.toNat < g.1.toNat)) && fontSorted rest

/-- The default `INIT_SEQ`, command by command, with the contrast `CONTRAST_NORMAL` (R141). -/
def defaultInitSeq (contrastNormal : Byte) : List (List Byte) :=
  [ [0xAE], [0xD5, 0x80], [0xA8, 0x3F], [0xD3, 0x00], [0x40], [0x8D, 0x14] ] ++
  [ [0x20, 0x02], [0xA1], [0xC8], [0xDA, 0x12], [0x81, contrastNormal], [0xD9, 0xF1] ] ++
  [ [0xDB, 0x40], [0xA4], [0xA6], [0x2E], [0xAF] ]

/-- `INIT_SEQ` (R6): the table the configuration gives, or the default one. -/
def Config.initSeq (cfg : Config) : List (List Byte) := cfg.initTable.getD (defaultInitSeq cfg.contrastNormal)

/-- The constraints of R6. The byte parameters are bytes by their type. -/
def Config.valid (cfg : Config) : Bool :=
  decide (1 ≤ cfg.pages) && decide (cfg.pages ≤ 8)
    && decide (1 ≤ cfg.columns) && decide (cfg.columns ≤ 128)
    && decide (1 ≤ cfg.glyphW) && decide (cfg.cellW ≤ cfg.columns)
    && fontSorted cfg.font && cfg.font.all (fun g => g.2.length == cfg.glyphW)
    && cfg.fallbackGlyph.length == cfg.glyphW
    && cfg.initSeq.all (fun c => c != [])

/-- The default contrast bytes (R6, 92_eei_decisions.md D17). -/
def defaultContrastNormal : Byte := 0xCF#8
def defaultContrastDim : Byte := 0x00#8

/-- The default configuration of R6. `FONT` is open in the spec (D21); the default lists no glyph (log 2). -/
def defaultConfig : Config where
  pages := 8
  columns := 128
  glyphW := 5
  font := []
  fallbackGlyph := [0x00, 0x00, 0x00, 0x00, 0x00]
  initTable := none
  contrastNormal := defaultContrastNormal
  contrastDim := defaultContrastDim
  scrollInterval := 0x00#8
  scrollVOffset := 0x01#8

end Sys2Proof
end

