-- ==== Sys2Proof/Machine/State.lean ====
section
/-! DEFINITION. The state of the block (10_state.md R10 to R13, R21), its reset (R22, R170), and why a step
can stop. -/

namespace Sys2Proof.Machine

/-- The shadow framebuffer as (index, byte) pairs with strictly rising indices and no 0x00 byte: an
index that is not listed holds 0x00, the value `construct` gives every byte (R23, log 13). -/
abbrev Memory := List Host.Cell

/-- The cursor `(page, column)` (R16). -/
structure Cursor where
  page : Nat
  column : Nat
  deriving DecidableEq, Repr

/-- The five values of `scrolling` (R15). -/
inductive Scroll where
  | none
  | right
  | left
  | diagLeft
  | diagRight
  deriving DecidableEq, Repr

/-- The components that exist from a successful `construct` to the next `teardown` (R10, R22, R23). -/
structure Driver where
  fb : Memory
  cur : Cursor
  inverted : Bool
  dimmed : Bool
  scrolling : Scroll
  busId : Byte
  devAddr : Byte
  /-- `g_unknown`: an operation has returned `TransportError` since the last `construct` (R153). -/
  gUnknown : Bool
  /-- `g_drawn_while_scrolling` (R176). -/
  gDrawn : Bool
  deriving DecidableEq, Repr

/-- `phase` (R10). In `Closed` the other components are "represented as absent"
(93_implementation_defined.md U14, R22, log 5). -/
inductive Phase where
  | closed
  | opened (d : Driver)
  deriving DecidableEq, Repr

/-- The Transport's answer to a `TOpen` (R39). -/
inductive OpenAnswer where
  | ack
  | noack
  deriving DecidableEq, Repr

/-- The Transport's answer to a `TWrite` (R38). -/
inductive WriteAnswer where
  | ok
  | fail
  deriving DecidableEq, Repr

/-- The events of `trace` (R38, R39). -/
inductive Event where
  | topen (bus addr : Byte) (answer : OpenAnswer)
  | twrite (control : Byte) (data : List Byte) (answer : WriteAnswer)
  | trelease
  deriving DecidableEq, Repr

/-- What the end of a plan commits (R57 step 5): a new driver (`construct`, R70), no driver
(`teardown`, R71), or new shadow values (every other operation). -/
inductive Commit where
  | build (busId devAddr : Byte)
  | demolish
  | update (d : Driver)
  deriving DecidableEq, Repr

/-- A plan being emitted: the plan `P`, the index `seq` of the next transaction (R12, R58), and what
it commits. -/
structure Emission where
  plan : List Txn
  seq : Nat
  commit : Commit
  deriving DecidableEq, Repr

/-- The sequencer: idle between operations; waiting for the answer to the `TOpen` of a `construct`;
or emitting a plan whose transaction at `seq` the Transport has not answered (R12, R40). -/
inductive Sequencer where
  | idle
  | opening (busId devAddr : Byte)
  | emitting (e : Emission)
  deriving DecidableEq, Repr

/-- The response of an operation (R13, R51). -/
inductive Response where
  | ok
  | deviceNotFoundError
  | transportError
  | invalidArgumentError
  | outOfRangeError
  deriving DecidableEq, Repr

/-- The state of the block. -/
structure State where
  /-- The configuration of R6, a parameter carried unchanged (R7, log 1). -/
  cfg : Config
  /-- `phase` with the components that exist only while it is `Open` (R10, R22). -/
  phase : Phase
  /-- Whether the Transport handle is held (R21, R39, R73). -/
  handle : Bool
  /-- The operation in progress (R12, R57). -/
  sequencer : Sequencer
  /-- The request latches, while an operation is in progress (R11). -/
  req : Option Request
  /-- The response of the last operation, until the next one is accepted (R13, log 8). -/
  response : Option Response
  /-- Every Transport call made, with its answer, oldest first (R10). -/
  trace : List Event
  /-- Input: the requests the host has still to issue, next first (R44, log 4). -/
  requests : List (List Byte)
  /-- Input: the Transport's answers to the next `TOpen` calls (R39, log 3). -/
  openAnswers : List OpenAnswer
  /-- Input: the Transport's answers to the next `TWrite` calls (R38, log 3). -/
  writeAnswers : List WriteAnswer
  deriving DecidableEq, Repr

/-- Why the machine stops with a fault. -/
inductive Fault where
  /-- A framebuffer access at an index outside `0 .. FB_LEN-1`. Raised by `storeByte`, which `write` uses.
  The spec: such an index "cannot occur; a model that finds one has a bug" (R33). Safe: no state with
  a valid cursor raises it (log 14). -/
  | framebufferIndex (index : Nat)
  deriving DecidableEq, Repr

/-- Why the machine refuses. -/
inductive Refusal where
  /-- An instruction without a meaning; raised by `exec`'s own arms only. Safe. -/
  | notModelled (mnemonic : String)
  /-- The configuration breaks a constraint: "refused by the model" (R6). Raised when a request is
  accepted. Safe. -/
  | badConfiguration
  /-- The bytes on a port are no instruction: a reserved `op` (R56), a request of fewer than three bytes
  (R50), a transaction the block never sends (R59, R64). Raised by the step. Safe. -/
  | rejected (why : Reject)
  /-- An operation in the wrong phase (R56). Raised when a request is accepted. Safe. -/
  | wrongPhase
  /-- A request while another operation is in progress (R44, U8). Raised when a request is accepted.
  Safe. -/
  | requestInFlight
  /-- A device command or transaction with no plan in progress: a transaction is sent only as part of
  an operation's plan (R57, R58, R73). Raised by the `DEV_CMD` and `TXN` meanings. Safe (log 10). -/
  | noPlanInProgress
  /-- A transaction with an empty payload (R38: "`data` is never empty"). Raised by the `TXN` meanings.
  Safe. -/
  | emptyTransaction
  deriving DecidableEq, Repr

/-- What a step answers. -/
abbrev Result := Host.Outcome State Fault Refusal

/-- R22, R170: `phase = Closed`, `trace = []`, no Transport call made, everything else dead or absent.
The inputs are empty and the configuration is the default (log 1, log 2, log 15). -/
def State.reset : State where
  cfg := defaultConfig
  phase := .closed
  handle := false
  sequencer := .idle
  req := none
  response := none
  trace := []
  requests := []
  openAnswers := []
  writeAnswers := []

end Sys2Proof.Machine
end

