-- ==== Sys2Proof/Machine/Ops.lean ====
section
/-! DEFINITION. The shared operations: the framebuffer memory, the Transport calls (20_memory.md R37 to
R39), the emission of a plan (30_encoding.md R58), its commit (R57), the responses and the raising of
an error (60_exceptions.md R150 to R158), and the acceptance of a request (R56, R57). -/

namespace Sys2Proof.Machine

/-! ## Framebuffer memory -/

/-- What an index that nothing has written reads as (R23: `zeros(FB_LEN)`). -/
def Memory.blank : Byte := 0x00#8

/-- `MemRead(i, 1) = fb[i]` (R8, R45). -/
def Memory.read : Memory → Nat → Byte
  | [], _ => Memory.blank
  | (b, w) :: m, a => if a = b then w else Memory.read m a

/-- Puts a byte at an index, keeping the canonical form. -/
def Memory.write : Memory → Nat → Byte → Memory
  | [], a, v => if v = Memory.blank then [] else [(a, v)]
  | (b, w) :: m, a, v =>
    if a < b then (if v = Memory.blank then (b, w) :: m else (a, v) :: (b, w) :: m)
    else if a = b then (if v = Memory.blank then m else (a, v) :: m)
    else (b, w) :: Memory.write m a v

/-- The canonical form: strictly rising indices, no byte equal to what an unlisted index reads as. -/
def Memory.wf : Memory → Bool
  | [] => true
  | (a, v) :: m => v != Memory.blank && m.all (fun c => decide (a < c.1)) && Memory.wf m

/-- Every listed index is below `n` (R20: the framebuffer has `FB_LEN` bytes and no more). -/
def Memory.below (m : Memory) (n : Nat) : Bool := m.all (fun c => decide (c.1 < n))

/-- The bytes `vs` at the indices `a`, `a + 1`, … and 0x00 everywhere else. -/
def Memory.ofBytesAt : Nat → List Byte → Memory
  | _, [] => []
  | a, v :: vs =>
    if v = Memory.blank then Memory.ofBytesAt (a + 1) vs else (a, v) :: Memory.ofBytesAt (a + 1) vs

/-- A whole framebuffer from its bytes, index 0 first (R82: the `bitmap` replaces every byte). -/
def Memory.ofBytes (vs : List Byte) : Memory := Memory.ofBytesAt 0 vs

/-- The first `n` bytes of a framebuffer, index 0 first. -/
def Memory.bytes (m : Memory) (n : Nat) : List Byte := (List.range n).map m.read

/-- `MemWrite(i, 1, v)` for `0 ≤ i < FB_LEN` (R8, R33); there is no other index. -/
def storeByte (limit : Nat) (m : Memory) (i : Nat) (v : Byte) : Except Fault Memory :=
  if i < limit then .ok (m.write i v) else .error (.framebufferIndex i)

/-- Stores at the indices `i`, `i + 1`, … (R45 (c)). -/
def storeBytes (limit : Nat) : Memory → Nat → List Byte → Except Fault Memory
  | m, _, [] => .ok m
  | m, i, v :: vs =>
    match storeByte limit m i v with
    | .error f => .error f
    | .ok m' => storeBytes limit m' (i + 1) vs

/-! ## Driver -/

/-- The driver a successful `construct` leaves (R23, R70). -/
def Driver.fresh (busId devAddr : Byte) : Driver where
  fb := []
  cur := ⟨0, 0⟩
  inverted := false
  dimmed := false
  scrolling := .none
  busId := busId
  devAddr := devAddr
  gUnknown := false
  gDrawn := false

/-- The driver of the open phase. -/
def State.driver? (s : State) : Option Driver :=
  match s.phase with
  | .closed => none
  | .opened d => some d

/-! ## Responses -/

/-- The response codes (R51, R151). -/
def Response.code : Response → Byte
  | .ok => 0x00#8
  | .deviceNotFoundError => 0x01#8
  | .transportError => 0x02#8
  | .invalidArgumentError => 0x03#8
  | .outOfRangeError => 0x04#8

/-- The operation ends with its response: the latches and the sequencer are dead again (R10, R13,
R158). `respond OK`, and `raise` when nothing but the response is left to do (R150, R154). -/
def State.respond (s : State) (r : Response) : State :=
  { s with sequencer := .idle, req := none, response := some r }

/-! ## Transport calls -/

/-- `TRelease()` (R39): the event, and the handle given back. -/
def State.release (s : State) : State :=
  { s with trace := s.trace ++ [Event.trelease], handle := false }

/-- What emitting a list of transactions has done: the events appended, the answers left, and whether
a transaction was answered `fail`. -/
structure Emitted where
  events : List Event
  left : List WriteAnswer
  failed : Bool
  deriving DecidableEq, Repr

/-- `emit` (R58): in list order, one event per answered call, up to the first `fail`, the rest never
sent. It stops early where the Transport has no answer yet (R40). -/
def emit : List Txn → List WriteAnswer → Emitted
  | [], answers => ⟨[], answers, false⟩
  | _ :: _, [] => ⟨[], [], false⟩
  | w :: _, .fail :: answers => ⟨[.twrite w.control w.data .fail], answers, true⟩
  | w :: ws, .ok :: answers =>
    let r := emit ws answers
    ⟨.twrite w.control w.data .ok :: r.events, r.left, r.failed⟩

/-! ## Commit and abort -/

/-- R57 step 5: the new values are written at once and the response is `OK`. `teardown` releases and
closes (R71). -/
def finish (c : Commit) (s : State) : State :=
  match c with
  | .build busId devAddr => { s with phase := .opened (Driver.fresh busId devAddr) }.respond .ok
  | .demolish => { s.release with phase := .closed }.respond .ok
  | .update d => { s with phase := .opened d }.respond .ok

/-- R57 step 4, R153: `raise TransportError`. Nothing is committed and `g_unknown` is set; `construct`
releases and stays closed (R70); `teardown` releases and closes all the same (R71). -/
def abort (c : Commit) (s : State) : State :=
  match c with
  | .build _ _ => s.release.respond .transportError
  | .demolish => { s.release with phase := .closed }.respond .transportError
  | .update _ =>
    match s.phase with
    | .opened d => { s with phase := .opened { d with gUnknown := true } }.respond .transportError
    | .closed => s.respond .transportError

/-- Sends the transactions `ws`, which stand at `seq` in the plan, as far as the Transport answers:
at the first `fail` the operation is aborted, after the last transaction of the plan it commits, and
otherwise it stays in progress with `seq` at the transaction that is not answered yet (R12, R40, R58). -/
def send (e : Emission) (ws : List Txn) (s : State) : State :=
  let r := emit ws s.writeAnswers
  let s' := { s with trace := s.trace ++ r.events, writeAnswers := r.left }
  if r.failed then abort e.commit s'
  else if e.plan.length ≤ e.seq + r.events.length then finish e.commit s'
  else { s' with sequencer := .emitting { e with seq := e.seq + r.events.length } }

/-- Starts a plan: `seq <- 0`, then `emit` (R57 step 4, R58). -/
def startPlan (plan : List Txn) (c : Commit) (s : State) : State := send ⟨plan, 0, c⟩ plan s

/-- `TOpen` of a `construct` and what follows it (R39, R70): on `noack` the release and
`DeviceNotFoundError`; on `ack` the plan. Without an answer the call blocks (R40), with the handle held
from the `TOpen` on (R21 (b), R73; the event comes with its answer, log 7). -/
def openTransport (busId devAddr : Byte) (plan : List Txn) (s : State) : State :=
  match s.openAnswers with
  | [] => { s with handle := true, sequencer := .opening busId devAddr }
  | .noack :: answers =>
    { s with
      openAnswers := answers
      trace := s.trace ++ [Event.topen busId devAddr .noack]
      handle := true }.release.respond .deviceNotFoundError
  | .ack :: answers =>
    startPlan plan (.build busId devAddr)
      { s with
        openAnswers := answers
        trace := s.trace ++ [Event.topen busId devAddr .ack]
        handle := true }

/-- One transaction sent as the next one of the plan in progress: the meaning that the `DEV_CMD` and
`TXN` instructions share (R58, R59). -/
def transact (w : Txn) (s : State) : Result :=
  match s.sequencer with
  | .emitting e => .next (send e [w] s)
  | .idle | .opening _ _ => .refused .noPlanInProgress

/-! ## Acceptance -/

/-- R57 step 1 for an operation accepted in phase `Open`: R6, R44 and R56 refuse, in that order
(log 17); otherwise the operation `k` runs on the driver, and no response stands any more (log 8). -/
def acceptOpen (s : State) (k : Driver → State → Result) : Result :=
  if !s.cfg.valid then .refused .badConfiguration
  else if s.sequencer ≠ .idle then .refused .requestInFlight
  else
    match s.phase with
    | .closed => .refused .wrongPhase
    | .opened d => k d { s with response := none }

/-- R57 step 1 for `construct`, accepted in phase `Closed` (R70). -/
def acceptClosed (s : State) (k : State → Result) : Result :=
  if !s.cfg.valid then .refused .badConfiguration
  else if s.sequencer ≠ .idle then .refused .requestInFlight
  else
    match s.phase with
    | .closed => k { s with response := none }
    | .opened _ => .refused .wrongPhase

/-- `raise E` at the argument check (R150, R154): no transaction, nothing changed but the response. -/
def raise (r : Response) (s : State) : Result := .next (s.respond r)

/-- R57 steps 3 and 4 for an operation of phase `Open`: `d` is the driver with the ghost flag the plan
step may have set, `d'` the new values to commit. -/
def runPlan (plan : List Txn) (d d' : Driver) (s : State) : Result :=
  .next (startPlan plan (.update d') { s with phase := .opened d })

end Sys2Proof.Machine
end

