-- ==== Sys2Proof/Machine/Operands.lean ====
section
/-! DEFINITION. Operands: the scalar operands and their range checks (30_encoding.md R53, R61), the
framebuffer index (20_memory.md R30, R31), and the glyph of a character (42_cursor_text.md R92). The
boolean operand (R54) is decoded in Sys2Proof/Decode.lean. -/

namespace Sys2Proof.Machine

/-- `idx(p, c) = p × COLUMNS + c` (R30). -/
def idx (cfg : Config) (page column : Nat) : Nat := page * cfg.columns + column

/-- `page < PAGES` and `column < COLUMNS` (R16, R90). -/
def Cursor.valid (cfg : Config) (c : Cursor) : Bool :=
  decide (c.page < cfg.pages) && decide (c.column < cfg.columns)

/-- The cursor two operand bytes name, unsigned and unscaled (R53). -/
def cursorOf (page column : Byte) : Cursor := ⟨page.toNat, column.toNat⟩

/-- The range check of `startscroll*`: `s ≤ e` and `e < PAGES` (R110). -/
def scrollRangeOk (cfg : Config) (startPage endPage : Byte) : Bool :=
  decide (startPage.toNat ≤ endPage.toNat) && decide (endPage.toNat < cfg.pages)

/-- `FONT(ch)` where `ch ∈ dom(FONT)` (R6). -/
def fontGlyph : List (Byte × List Byte) → Byte → Option (List Byte)
  | [], _ => none
  | (code, g) :: rest, ch => if ch = code then some g else fontGlyph rest ch

/-- `glyph(ch)`: the font's, or the fallback (R92). -/
def glyph (cfg : Config) (ch : Byte) : List Byte := (fontGlyph cfg.font ch).getD cfg.fallbackGlyph

/-- `cell(ch) = glyph(ch) ++ [0x00]` (R92). -/
def cell (cfg : Config) (ch : Byte) : List Byte := glyph cfg ch ++ List.replicate spacing 0x00#8

/-- `zeros(n)` (R8). -/
def zeros (n : Nat) : List Byte := List.replicate n 0x00#8

/-- The pixel at a row and column of the panel: bit `row mod 8` of the byte of its page (R31). -/
def pixel (cfg : Config) (fb : Memory) (row column : Nat) : Bool :=
  (fb.read (idx cfg (row / rowsPerPage) column)).getLsbD (row % rowsPerPage)

end Sys2Proof.Machine
end

