-- ==== Sys2Proof/Machine/Flags.lean ====
section
/-! DEFINITION. Flags and modes: `inverted` and `dimmed` (10_state.md R14), `scrolling` (R15), and the two
ghost flags (R21; 60_exceptions.md R153; 70_reset_and_hazards.md R176). There are no condition codes. -/

namespace Sys2Proof.Machine

/-- The 3-bit encoding of `scrolling` (R15). -/
def Scroll.code : Scroll → BitVec 3
  | .none => 0
  | .right => 1
  | .left => 2
  | .diagLeft => 3
  | .diagRight => 4

/-- Whether the shadow says a scroll is active: `scrolling ≠ none` (R110, R176). -/
def Driver.scrollActive (d : Driver) : Bool := d.scrolling != .none

/-- `inverted <- enable` (R100). -/
def Driver.setInverted (d : Driver) (enable : Bool) : Driver := { d with inverted := enable }

/-- `dimmed <- enable` (R101). -/
def Driver.setDimmed (d : Driver) (enable : Bool) : Driver := { d with dimmed := enable }

/-- `scrolling <- dir` (R110, R117). -/
def Driver.setScrolling (d : Driver) (dir : Scroll) : Driver := { d with scrolling := dir }

/-- The plan step of an operation that changes the framebuffer: `if scrolling ≠ none then
g_drawn_while_scrolling <- true` (R176). -/
def Driver.markDrawn (d : Driver) : Driver := { d with gDrawn := d.gDrawn || d.scrollActive }

end Sys2Proof.Machine
end

