-- ==== Sys2Proof/Machine/Mapper.lean ====
section
/-! DEFINITION. The plans the operations build from the command register mapper (45_command_mapper.md):
cursor triple (R136), flush (41_framebuffer.md R80), scroll setup (44_scroll.md R111), initialisation
(40_lifecycle.md R70), text (42_cursor_text.md R91). The bytes of one command are the encoder's. -/

namespace Sys2Proof.Machine

/-- `W(0x40, data)` (R59). -/
def dataTxn (data : List Byte) : Txn := ⟨ctrlData, data⟩

/-- `W(0x00, payload)` (R59). -/
def commandTxn (payload : List Byte) : Txn := ⟨ctrlCmd, payload⟩

/-- R136: page, column low nibble, column high nibble, in this order. -/
def cursorTriple (page column : Nat) : List Txn :=
  [ txnOf (.setPageStart (BitVec.ofNat 3 page)),
    txnOf (.setColLow (BitVec.ofNat 4 column)),
    txnOf (.setColHigh (BitVec.ofNat 3 (column / 16))) ]

/-- The page slice `fbx[p × COLUMNS .. p × COLUMNS + COLUMNS - 1]` (R45 (b)). -/
def pageSlice (cfg : Config) (fbx : List Byte) (page : Nat) : List Byte :=
  (fbx.drop (idx cfg page 0)).take cfg.columns

/-- The four transactions of one page of a flush (R80). -/
def flushPage (cfg : Config) (fbx : List Byte) (page : Nat) : List Txn :=
  cursorTriple page 0 ++ [dataTxn (pageSlice cfg fbx page)]

/-- R80: page by page, then the cursor triple of the shadow cursor. -/
def flushPlan (cfg : Config) (fbx : List Byte) (cur : Cursor) : List Txn :=
  (List.range cfg.pages).flatMap (flushPage cfg fbx) ++ cursorTriple cur.page cur.column

/-- The plan of `construct`: one transaction per command of `INIT_SEQ` (R70). -/
def initPlan (cfg : Config) : List Txn := cfg.initSeq.map commandTxn

/-- The parameter bytes of a horizontal setup (R111, R127). -/
def hScrollParams (cfg : Config) (startPage endPage : Byte) : HScroll :=
  ⟨0x00, startPage, cfg.scrollInterval, endPage, 0x00, 0xFF⟩

/-- The parameter bytes of a diagonal setup (R111, R129). -/
def vhScrollParams (cfg : Config) (startPage endPage : Byte) : VHScroll :=
  ⟨0x00, startPage, cfg.scrollInterval, endPage, cfg.scrollVOffset⟩

/-- The vertical scroll area command of a diagonal setup: the whole panel height (R111, R137). -/
def vscrollArea (cfg : Config) : Txn :=
  txnOf (.setVscrollArea 0x00 (BitVec.ofNat 8 (rowsPerPage * cfg.pages)))

/-- `setup(dir, s, e)` (R111). There is no setup for `none`. -/
def scrollSetup (cfg : Config) (dir : Scroll) (startPage endPage : Byte) : List Txn :=
  match dir with
  | .none => []
  | .right => [txnOf (.scrollHRight (hScrollParams cfg startPage endPage))]
  | .left => [txnOf (.scrollHLeft (hScrollParams cfg startPage endPage))]
  | .diagLeft => [vscrollArea cfg, txnOf (.scrollVHLeft (vhScrollParams cfg startPage endPage))]
  | .diagRight => [vscrollArea cfg, txnOf (.scrollVHRight (vhScrollParams cfg startPage endPage))]

/-- The plan of `startscroll*` (R110): the implicit stop when the shadow says a scroll is active, the
setup, the activate. -/
def scrollPlan (cfg : Config) (active : Bool) (dir : Scroll) (startPage endPage : Byte) : List Txn :=
  (if active then [txnOf .scrollDeactivate] else []) ++ scrollSetup cfg dir startPage endPage
    ++ [txnOf .scrollActivate]

/-- The working copies of a `write` (R91): `fb'`, `(p, c)` and `P`. -/
structure Render where
  fb : Memory
  cur : Cursor
  plan : List Txn
  deriving DecidableEq, Repr

/-- A page wrap: `p <- (p + 1) mod PAGES; c <- 0`, and the device re-addressed (R91). -/
def wrapPage (cfg : Config) (r : Render) : Render :=
  { r with
    cur := ⟨(r.cur.page + 1) % cfg.pages, 0⟩
    plan := r.plan ++ cursorTriple ((r.cur.page + 1) % cfg.pages) 0 }

/-- Wrap first where the cell would pass the right edge (R91, D23). -/
def wrapBefore (cfg : Config) (r : Render) : Render :=
  if r.cur.column + cfg.cellW > cfg.columns then wrapPage cfg r else r

/-- Wrap after a cell that ended exactly at the right edge (R91, D23). -/
def wrapAfter (cfg : Config) (r : Render) : Render :=
  if r.cur.column = cfg.columns then wrapPage cfg r else r

/-- One character of a text (R91): its cell overwrites the framebuffer at the cursor and goes to the
device, and the cursor advances by the cell. -/
def renderChar (cfg : Config) (r : Render) (ch : Byte) : Except Fault Render :=
  let r₁ := wrapBefore cfg r
  match storeBytes cfg.fbLen r₁.fb (idx cfg r₁.cur.page r₁.cur.column) (cell cfg ch) with
  | .error f => .error f
  | .ok fb' =>
    .ok (wrapAfter cfg
      { fb := fb'
        cur := { r₁.cur with column := r₁.cur.column + cfg.cellW }
        plan := r₁.plan ++ [dataTxn (cell cfg ch)] })

/-- The characters of a text, in order (R91). -/
def renderText (cfg : Config) : Render → List Byte → Except Fault Render
  | r, [] => .ok r
  | r, ch :: text =>
    match renderChar cfg r ch with
    | .error f => .error f
    | .ok r' => renderText cfg r' text

end Sys2Proof.Machine
end

