-- ==== Sys2Proof/Machine/CursorText.lean ====
section
/-! DEFINITION. The cursor and text operations `setCursor` and `write` (42_cursor_text.md R90 to R92). -/

namespace Sys2Proof.Machine

/-- R90. -/
def execSetCursor (page column : Byte) (s : State) : Result :=
  acceptOpen s fun d s =>
    if (cursorOf page column).valid s.cfg then
      runPlan (cursorTriple page.toNat column.toNat) d { d with cur := cursorOf page column } s
    else raise .outOfRangeError s

/-- The driver after the plan step of a `write`: only a non-empty text can set the ghost flag (R91). -/
def Driver.markWritten (d : Driver) (text : List Byte) : Driver :=
  if text = [] then d else d.markDrawn

/-- R91. -/
def execWrite (text : List Byte) (s : State) : Result :=
  acceptOpen s fun d s =>
    match renderText s.cfg ⟨d.fb, d.cur, []⟩ text with
    | .error f => .fault f
    | .ok r => runPlan r.plan (d.markWritten text) { d.markWritten text with fb := r.fb, cur := r.cur } s

end Sys2Proof.Machine
end

