-- ==== Sys2Proof/Machine/DeviceCommands.lean ====
section
/-! DEFINITION. The device commands of the command register mapper (45_command_mapper.md R120 to R139).
Executed by the sequencer, a command is the one transaction `W(0x00, payload)` that carries it
(30_encoding.md R59): its bytes go to the Transport as the next transaction of the plan in progress.
What the device does with them is outside the block (00_scope.md R5). -/

namespace Sys2Proof.Machine

/-- The transaction of one device command, sent (R58, R59). -/
def sendCommand (i : Instr) (s : State) : Result := transact (txnOf i) s

/-- R120. -/
def execSetContrast (v : Byte) (s : State) : Result := sendCommand (.setContrast v) s

/-- R121. -/
def execDisplayOff (s : State) : Result := sendCommand .displayOff s

/-- R122. -/
def execDisplayOn (s : State) : Result := sendCommand .displayOn s

/-- R123. -/
def execNormalDisplay (s : State) : Result := sendCommand .normalDisplay s

/-- R124. -/
def execInverseDisplay (s : State) : Result := sendCommand .inverseDisplay s

/-- R125. -/
def execEntireResume (s : State) : Result := sendCommand .entireResume s

/-- R126. -/
def execEntireOn (s : State) : Result := sendCommand .entireOn s

/-- R127. -/
def execScrollHRight (p : HScroll) (s : State) : Result := sendCommand (.scrollHRight p) s

/-- R128. -/
def execScrollHLeft (p : HScroll) (s : State) : Result := sendCommand (.scrollHLeft p) s

/-- R129. -/
def execScrollVHRight (p : VHScroll) (s : State) : Result := sendCommand (.scrollVHRight p) s

/-- R130. -/
def execScrollVHLeft (p : VHScroll) (s : State) : Result := sendCommand (.scrollVHLeft p) s

/-- R131. -/
def execScrollDeactivate (s : State) : Result := sendCommand .scrollDeactivate s

/-- R132. -/
def execScrollActivate (s : State) : Result := sendCommand .scrollActivate s

/-- R133. -/
def execSetPageStart (page : BitVec 3) (s : State) : Result := sendCommand (.setPageStart page) s

/-- R134. -/
def execSetColLow (nibble : BitVec 4) (s : State) : Result := sendCommand (.setColLow nibble) s

/-- R135. -/
def execSetColHigh (nibble : BitVec 3) (s : State) : Result := sendCommand (.setColHigh nibble) s

/-- R137. -/
def execSetVscrollArea (top rows : Byte) (s : State) : Result := sendCommand (.setVscrollArea top rows) s

/-- R139. -/
def execSetClockDiv (v : Byte) (s : State) : Result := sendCommand (.setClockDiv v) s

/-- R139. -/
def execSetMultiplex (v : Byte) (s : State) : Result := sendCommand (.setMultiplex v) s

/-- R139. -/
def execSetDisplayOffset (v : Byte) (s : State) : Result := sendCommand (.setDisplayOffset v) s

/-- R139. -/
def execSetStartLine (line : BitVec 6) (s : State) : Result := sendCommand (.setStartLine line) s

/-- R139. -/
def execChargePump (v : Byte) (s : State) : Result := sendCommand (.chargePump v) s

/-- R139. -/
def execSetAddressingMode (mode : Byte) (s : State) : Result := sendCommand (.setAddressingMode mode) s

/-- R139. -/
def execSegRemap (b : Bool) (s : State) : Result := sendCommand (.segRemap b) s

/-- R139. -/
def execComScanDir (b : Bool) (s : State) : Result := sendCommand (.comScanDir b) s

/-- R139. -/
def execSetComPins (v : Byte) (s : State) : Result := sendCommand (.setComPins v) s

/-- R139. -/
def execSetPrecharge (v : Byte) (s : State) : Result := sendCommand (.setPrecharge v) s

/-- R139. -/
def execSetVcomh (v : Byte) (s : State) : Result := sendCommand (.setVcomh v) s

end Sys2Proof.Machine
end

