-- ==== Sys2Proof/Machine/DisplayMode.lean ====
section
/-! DEFINITION. The display-mode operations `invert` and `dim` (43_display_mode.md R100 to R102). -/

namespace Sys2Proof.Machine

/-- R100: 0xA7 for true, 0xA6 for false, whatever the flag holds. -/
def execInvert (enable : Bool) (s : State) : Result :=
  acceptOpen s fun d s =>
    runPlan [txnOf (if enable then .inverseDisplay else .normalDisplay)] d (d.setInverted enable) s

/-- R101: one contrast command, whatever the flag holds. -/
def execDim (enable : Bool) (s : State) : Result :=
  acceptOpen s fun d s =>
    runPlan [txnOf (.setContrast (if enable then s.cfg.contrastDim else s.cfg.contrastNormal))] d
      (d.setDimmed enable) s

end Sys2Proof.Machine
end

