-- ==== Sys2Proof/Machine/Framebuffer.lean ====
section
/-! DEFINITION. The whole-buffer operations `clear` and `draw` (41_framebuffer.md R80 to R83). -/

namespace Sys2Proof.Machine

/-- Replaces the whole framebuffer by `fbx` and flushes it: the body `clear` and `draw` share (R81, R82). -/
def replaceBuffer (fbx : List Byte) (d : Driver) (s : State) : Result :=
  runPlan (flushPlan s.cfg fbx d.cur) d.markDrawn { d.markDrawn with fb := Memory.ofBytes fbx } s

/-- R81. -/
def execClear (s : State) : Result :=
  acceptOpen s fun d s => replaceBuffer (zeros s.cfg.fbLen) d s

/-- R82. -/
def execDraw (bitmap : List Byte) (s : State) : Result :=
  acceptOpen s fun d s =>
    if bitmap.length ≠ s.cfg.fbLen then raise .invalidArgumentError s else replaceBuffer bitmap d s

end Sys2Proof.Machine
end

