-- ==== Sys2Proof/Machine/Lifecycle.lean ====
section
/-! DEFINITION. The lifecycle operations `construct` and `teardown` (40_lifecycle.md R70 to R73). -/

namespace Sys2Proof.Machine

/-- R70. -/
def execConstruct (busId deviceAddress : Byte) (s : State) : Result :=
  acceptClosed s fun s => .next (openTransport busId deviceAddress (initPlan s.cfg) s)

/-- R71: stop first, then a flush of zeros; released and closed on both paths. -/
def execTeardown (s : State) : Result :=
  acceptOpen s fun d s =>
    .next (startPlan (txnOf .scrollDeactivate :: flushPlan s.cfg (zeros s.cfg.fbLen) d.cur) .demolish s)

end Sys2Proof.Machine
end

