-- ==== Sys2Proof/Machine/ScrollOps.lean ====
section
/-! DEFINITION. The scroll operations (44_scroll.md R110 to R117). -/

namespace Sys2Proof.Machine

/-- The common body of `startscroll*` (R110). -/
def startScroll (dir : Scroll) (startPage endPage : Byte) (s : State) : Result :=
  acceptOpen s fun d s =>
    if scrollRangeOk s.cfg startPage endPage then
      runPlan (scrollPlan s.cfg d.scrollActive dir startPage endPage) d (d.setScrolling dir) s
    else raise .outOfRangeError s

/-- R112. -/
def execStartscrollright (startPage endPage : Byte) (s : State) : Result :=
  startScroll .right startPage endPage s

/-- R113. -/
def execStartscrollleft (startPage endPage : Byte) (s : State) : Result :=
  startScroll .left startPage endPage s

/-- R114. -/
def execStartscrolldiagleft (startPage endPage : Byte) (s : State) : Result :=
  startScroll .diagLeft startPage endPage s

/-- R115. -/
def execStartscrolldiagright (startPage endPage : Byte) (s : State) : Result :=
  startScroll .diagRight startPage endPage s

/-- R117: the command is sent whatever `scrolling` holds. -/
def execStopscroll (s : State) : Result :=
  acceptOpen s fun d s => runPlan [txnOf .scrollDeactivate] d (d.setScrolling .none) s

end Sys2Proof.Machine
end

