-- ==== Sys2Proof/Machine/Transactions.lean ====
section
/-! DEFINITION. The two kinds of Transport transaction (30_encoding.md R59), each sent as the next transaction
of the plan in progress. -/

namespace Sys2Proof.Machine

/-- A transaction whose payload is not empty (R38, R59), sent. -/
def transactNonempty (w : Txn) (s : State) : Result :=
  if w.data = [] then .refused .emptyTransaction else transact w s

/-- `W(0x00, payload)` (R59). -/
def execTxnCommand (payload : List Byte) (s : State) : Result := transactNonempty (commandTxn payload) s

/-- `W(0x40, data)` (R59). -/
def execTxnData (data : List Byte) (s : State) : Result := transactNonempty (dataTxn data) s

end Sys2Proof.Machine
end

