-- ==== Sys2Proof/Machine/Dispatch.lean ====
section
/-! DEFINITION. One arm per constructor of Instr. -/

namespace Sys2Proof.Machine

def exec (i : Instr) (s : State) : Host.Outcome State Fault Refusal :=
  match i with
  | .construct busId deviceAddress => Sys2Proof.Machine.execConstruct busId deviceAddress s
  | .clear => Sys2Proof.Machine.execClear s
  | .draw bitmap => Sys2Proof.Machine.execDraw bitmap s
  | .setCursor page column => Sys2Proof.Machine.execSetCursor page column s
  | .write text => Sys2Proof.Machine.execWrite text s
  | .invert enable => Sys2Proof.Machine.execInvert enable s
  | .dim enable => Sys2Proof.Machine.execDim enable s
  | .startscrollright startPage endPage => Sys2Proof.Machine.execStartscrollright startPage endPage s
  | .startscrollleft startPage endPage => Sys2Proof.Machine.execStartscrollleft startPage endPage s
  | .startscrolldiagleft startPage endPage => Sys2Proof.Machine.execStartscrolldiagleft startPage endPage s
  | .startscrolldiagright startPage endPage => Sys2Proof.Machine.execStartscrolldiagright startPage endPage s
  | .stopscroll => Sys2Proof.Machine.execStopscroll s
  | .teardown => Sys2Proof.Machine.execTeardown s
  | .setContrast v => Sys2Proof.Machine.execSetContrast v s
  | .displayOff => Sys2Proof.Machine.execDisplayOff s
  | .displayOn => Sys2Proof.Machine.execDisplayOn s
  | .normalDisplay => Sys2Proof.Machine.execNormalDisplay s
  | .inverseDisplay => Sys2Proof.Machine.execInverseDisplay s
  | .entireResume => Sys2Proof.Machine.execEntireResume s
  | .entireOn => Sys2Proof.Machine.execEntireOn s
  | .scrollHRight p => Sys2Proof.Machine.execScrollHRight p s
  | .scrollHLeft p => Sys2Proof.Machine.execScrollHLeft p s
  | .scrollVHRight p => Sys2Proof.Machine.execScrollVHRight p s
  | .scrollVHLeft p => Sys2Proof.Machine.execScrollVHLeft p s
  | .scrollDeactivate => Sys2Proof.Machine.execScrollDeactivate s
  | .scrollActivate => Sys2Proof.Machine.execScrollActivate s
  | .setPageStart page => Sys2Proof.Machine.execSetPageStart page s
  | .setColLow nibble => Sys2Proof.Machine.execSetColLow nibble s
  | .setColHigh nibble => Sys2Proof.Machine.execSetColHigh nibble s
  | .setVscrollArea top rows => Sys2Proof.Machine.execSetVscrollArea top rows s
  | .setClockDiv v => Sys2Proof.Machine.execSetClockDiv v s
  | .setMultiplex v => Sys2Proof.Machine.execSetMultiplex v s
  | .setDisplayOffset v => Sys2Proof.Machine.execSetDisplayOffset v s
  | .setStartLine line => Sys2Proof.Machine.execSetStartLine line s
  | .chargePump v => Sys2Proof.Machine.execChargePump v s
  | .setAddressingMode mode => Sys2Proof.Machine.execSetAddressingMode mode s
  | .segRemap b => Sys2Proof.Machine.execSegRemap b s
  | .comScanDir b => Sys2Proof.Machine.execComScanDir b s
  | .setComPins v => Sys2Proof.Machine.execSetComPins v s
  | .setPrecharge v => Sys2Proof.Machine.execSetPrecharge v s
  | .setVcomh v => Sys2Proof.Machine.execSetVcomh v s
  | .txnCommand payload => Sys2Proof.Machine.execTxnCommand payload s
  | .txnData data => Sys2Proof.Machine.execTxnData data s

end Sys2Proof.Machine
end

