-- ==== Sys2Proof/WellFormed.lean ====
section
/-! DEFINITION. The instructions as the spec lays them out: fixed dummy bytes, field ranges, non-empty
payloads, and one name per command. A request has no ill-formed operand: every byte is legal and a bad
value is an error response (30_encoding.md R56). -/

namespace Sys2Proof

/-- R127: bytes 1 and 5 are 0x00, byte 6 is 0xFF; start and end page use bits 2:0. -/
def HScroll.wellFormed (p : HScroll) : Bool :=
  p.dummy0 == 0x00#8 && p.dummy1 == 0x00#8 && p.dummy2 == 0xFF#8 && p.startPage.toNat < 8 && p.endPage.toNat < 8

/-- R129: byte 1 is 0x00; start and end page use bits 2:0. -/
def VHScroll.wellFormed (p : VHScroll) : Bool :=
  p.dummy0 == 0x00#8 && p.startPage.toNat < 8 && p.endPage.toNat < 8

/-- Whether an instruction is one the spec's tables describe: the widths of `top`, `rows` and `v` are those of
opcode_table.json (`SET_VSCROLL_AREA`, `SET_MULTIPLEX` and `SET_DISPLAY_OFFSET`: `v` is `payload byte 1 [5:0]`), the
three addressing modes R139's. -/
def WellFormed : Instr → Bool
  | .scrollHRight p | .scrollHLeft p => p.wellFormed
  | .scrollVHRight p | .scrollVHLeft p => p.wellFormed
  | .setVscrollArea top rows => top.toNat < 64 && rows.toNat < 128
  | .setMultiplex v => v.toNat < 64
  | .setDisplayOffset v => v.toNat < 64
  | .setAddressingMode mode => mode.toNat < 3
  | .txnCommand payload =>
    payload != [] && (match decodeCommand payload with | .ok _ => false | .error _ => true)
  | .txnData data => data != []
  | .construct _ _ | .clear | .draw _ | .setCursor _ _ | .write _ | .invert _ | .dim _
  | .startscrollright _ _ | .startscrollleft _ _ | .startscrolldiagleft _ _
  | .startscrolldiagright _ _ | .stopscroll | .teardown | .setContrast _ | .displayOff | .displayOn
  | .normalDisplay | .inverseDisplay | .entireResume | .entireOn | .scrollDeactivate
  | .scrollActivate | .setPageStart _ | .setColLow _ | .setColHigh _ | .setClockDiv _
  | .setStartLine _ | .chargePump _ | .segRemap _ | .comScanDir _ | .setComPins _ | .setPrecharge _
  | .setVcomh _ => true

end Sys2Proof
end

