-- ==== Sys2Proof/Machine/Fetch.lean ====
section
/-! DEFINITION. Where the next step takes its instruction from, and the observation port. The block has no
program counter (10_state.md R12): between operations it takes the next request from the request port
(R41, R44), and during one it goes on with that operation's Transport calls. -/

namespace Sys2Proof.Machine

/-- What the next step does. -/
inductive Fetched where
  /-- No request stands on the port: the block waits (R156, R173). -/
  | wait
  /-- The `TOpen` of a `construct` has not been answered yet (R40). -/
  | openPending (busId devAddr : Byte)
  /-- The plan in progress has no transaction left. -/
  | planEnd (e : Emission)
  /-- The bytes of an instruction, the port they stand on, and the state once they are taken from it. -/
  | bytes (port : Port) (bs : List Byte) (s : State)
  deriving DecidableEq, Repr

/-- The latches of a request (R11); bytes that are no request fill none. -/
def latch (bs : List Byte) : Option Request :=
  match parseRequest bs with
  | .ok r => some r
  | .error _ => none

/-- The bytes of a transaction on the Transport: its control byte, then its payload (R38, R59). -/
def txnBytes (w : Txn) : List Byte := w.control :: w.data

/-- The next instruction: the transaction at `seq` of a plan in progress (R12, R58), or the request at
the head of the request port, taken into the latches (R11, R50). -/
def fetch (s : State) : Fetched :=
  match s.sequencer with
  | .opening busId devAddr => .openPending busId devAddr
  | .emitting e =>
    match e.plan[e.seq]? with
    | none => .planEnd e
    | some w => .bytes .transport (txnBytes w) s
  | .idle =>
    match s.requests with
    | [] => .wait
    | bs :: rest => .bytes .request bs { s with requests := rest, req := latch bs }

/-- What an operation commits whose one transaction is placed from outside: a `construct` in phase
`Closed`, otherwise the driver as it is. -/
def placedCommit (p : Phase) : Commit :=
  match p with
  | .closed => .build 0x00#8 0x00#8
  | .opened d => .update d

/-- The state with bytes where the next step fetches from a port: at the head of the request port with
no operation in progress, or as the one transaction of a plan in progress with the handle held. -/
def placeBytes (port : Port) (bs : List Byte) (s : State) : State :=
  match port with
  | .request => { s with sequencer := .idle, requests := bs :: s.requests }
  | .transport =>
    { s with
      handle := true
      sequencer := .emitting ⟨[⟨bs.headD 0x00#8, bs.tail⟩], 0, placedCommit s.phase⟩ }

/-- What the host reads on the observation port (R24). -/
structure Observation where
  fb : List Byte
  cur : Cursor
  inverted : Bool
  dimmed : Bool
  scrolling : Scroll
  deriving DecidableEq, Repr

/-- The observation port (R24): a pure function of the state, answering while `phase = Open` and no
operation is in progress (R34, 90_conflicts.md C5, log 16). -/
def observe (s : State) : Option Observation :=
  match s.sequencer, s.phase with
  | .idle, .opened d => some ⟨d.fb.bytes s.cfg.fbLen, d.cur, d.inverted, d.dimmed, d.scrolling⟩
  | .idle, .closed => none
  | .opening _ _, _ => none
  | .emitting _, _ => none

end Sys2Proof.Machine
end

