-- ==== Sys2Proof/Machine/Step.lean ====
section
/-! DEFINITION. One step of the block. A step runs one operation as far as the Transport answers; a step that
finds an operation in progress goes on with it: a plan by one transaction, a pending `TOpen` by its answer and
what follows (log 6). -/

namespace Sys2Proof.Machine

/-- One step. -/
def step (s : State) : Host.Outcome State Fault Refusal :=
  match fetch s with
  | .wait => .next s
  | .openPending busId devAddr => .next (openTransport busId devAddr (initPlan s.cfg) s)
  | .planEnd e => .next (send e [] s)
  | .bytes port bs s' =>
    match decode port bs with
    | .error why => .refused (.rejected why)
    | .ok i => exec i s'

/-- The state with a table word's instruction where the next step fetches it (log 11, log 20). -/
def State.withFetchWord (s : State) (nbits w : Nat) : State :=
  placeBytes (tableFormat w).port (tableBytes nbits w) s

end Sys2Proof.Machine
end

