-- ==== Sys2Proof/Safety.lean ====
section
/-! DEFINITION. What counts as a well-formed state and as a safe run, in the terms the statements use: the
structural invariant (10_state.md R16, R20; 40_lifecycle.md R73), the bracketing of `trace` (R73), the
scroll order (44_scroll.md R116), the premises on `INIT_SEQ` (45_command_mapper.md R140), and the
replay of `trace` on a panel (20_memory.md R46). None of it is part of the machine. -/

namespace Sys2Proof.Machine

/-! ## Structural invariant -/

/-- R16 and R20: the cursor is on the panel, and the framebuffer is in canonical form with no byte
outside `0 .. FB_LEN-1`. -/
def Driver.wf (cfg : Config) (d : Driver) : Bool :=
  d.cur.valid cfg && d.fb.wf && d.fb.below cfg.fbLen

/-- R16, R20: "holding whenever `phase = Open`". -/
def Phase.wf (cfg : Config) : Phase → Bool
  | .closed => true
  | .opened d => d.wf cfg

/-- Whether the phase is `Open`. -/
def Phase.isOpen : Phase → Bool
  | .closed => false
  | .opened _ => true

/-- R38, R59: the control byte is 0x00 or 0x40 and the payload is not empty. -/
def txnWf (w : Txn) : Bool := (w.control == ctrlCmd || w.control == ctrlData) && w.data != []

/-- New shadow values keep the invariant, and no operation but `construct` writes the identifiers or
clears a ghost flag (R10, R21). -/
def Driver.mayFollow (cfg : Config) (d d' : Driver) : Bool :=
  d'.wf cfg && d'.busId == d.busId && d'.devAddr == d.devAddr && d'.gUnknown == d.gUnknown
    && d'.gDrawn == d.gDrawn

/-- A `construct` in progress runs in phase `Closed`, every other operation in phase `Open`, and what
it commits keeps the invariant (R70 to R72). -/
def Commit.wf (cfg : Config) (p : Phase) : Commit → Bool
  | .build _ _ => !p.isOpen
  | .demolish => p.isOpen
  | .update d' =>
    match p with
    | .closed => false
    | .opened d => d.mayFollow cfg d'

/-- R12: while a plan is emitted, `seq` is the index of a transaction of it. -/
def Emission.wf (cfg : Config) (p : Phase) (e : Emission) : Bool :=
  decide (e.seq < e.plan.length) && e.plan.all txnWf && e.commit.wf cfg p

/-- The operation in progress. -/
def Sequencer.wf (cfg : Config) (p : Phase) : Sequencer → Bool
  | .idle => true
  | .opening _ _ => !p.isOpen
  | .emitting e => e.wf cfg p

/-- Whether an operation is in progress. -/
def Sequencer.inProgress : Sequencer → Bool
  | .idle => false
  | .opening _ _ | .emitting _ => true

/-- The structural invariant of the block; R21 (b) and R73: the Transport handle is held exactly while
`phase = Open` or an operation is in progress (in phase `Closed` that is a `construct`, from its `TOpen` on). -/
def State.wf (s : State) : Bool :=
  s.cfg.valid && s.phase.wf s.cfg && s.sequencer.wf s.cfg s.phase
    && (s.handle == (s.phase.isOpen || s.sequencer.inProgress))

/-! ## Bracketing of the trace -/

/-- Where a reading of `trace` stands with respect to the handle (R73). -/
inductive Bracket where
  | released
  | acked
  | noacked
  | broken
  deriving DecidableEq, Repr

/-- R73: `Open` and `Release` alternate; writes only after an `Open(.., ack)`; after an
`Open(.., noack)` the very next event is `Release`. -/
def Bracket.event : Bracket → Event → Bracket
  | .released, .topen _ _ .ack => .acked
  | .released, .topen _ _ .noack => .noacked
  | .acked, .twrite _ _ _ => .acked
  | .acked, .trelease => .released
  | .noacked, .trelease => .released
  | _, _ => .broken

/-- The bracket state after a whole trace. -/
def bracketOf (trace : List Event) : Bracket := trace.foldl Bracket.event .released

/-- R73: the trace is bracketed, and it stands inside an `Open(.., ack)` that no `Release` has closed exactly
while the handle is held. The event of a `TOpen` without an answer is not in the trace yet (log 7). -/
def State.bracketed (s : State) : Bool :=
  bracketOf s.trace ==
    match s.sequencer with
    | .opening _ _ => .released
    | .idle | .emitting _ => if s.handle then .acked else .released

/-! ## Scroll order -/

/-- A reading of the scroll commands in `trace` since the last `Open`: whether the last of them
activated, and whether no activate followed an activate without a deactivate between (R116). -/
structure ScrollScan where
  active : Bool
  ordered : Bool
  deriving DecidableEq, Repr

/-- One transaction that was answered `ok`. -/
def ScrollScan.txn (k : ScrollScan) (w : Txn) : ScrollScan :=
  if w = ⟨ctrlCmd, [0x2F]⟩ then ⟨true, k.ordered && !k.active⟩
  else if w = ⟨ctrlCmd, [0x2E]⟩ then ⟨false, k.ordered⟩
  else k

/-- One event of the trace. -/
def ScrollScan.event (k : ScrollScan) : Event → ScrollScan
  | .topen _ _ _ => ⟨false, true⟩
  | .twrite control data .ok => k.txn ⟨control, data⟩
  | .twrite _ _ .fail => k
  | .trelease => k

/-- The reading of a whole trace. -/
def scrollScanOf (trace : List Event) : ScrollScan := trace.foldl ScrollScan.event ⟨false, true⟩

/-- The premise on `INIT_SEQ` that the reading needs: its scroll commands are in order and leave
scrolling deactivated (R140 (c)). -/
def initScrollQuiet (cfg : Config) : Bool :=
  (initPlan cfg).foldl ScrollScan.txn ⟨false, true⟩ == ⟨false, true⟩

/-- What the reading says of a driver the shadow can be trusted of (`g_unknown = false`): the scroll
commands are in order, and the last of them activated exactly if `scrolling ≠ none` (R116). -/
def ScrollScan.agrees (k : ScrollScan) (d : Driver) : Bool :=
  d.gUnknown || k == ⟨d.scrollActive, true⟩

/-- R116 between operations, and inside one for the plan that is left: what will be committed agrees with
the trace that will then stand. -/
def State.scrollOrdered (s : State) : Bool :=
  initScrollQuiet s.cfg &&
    match s.sequencer with
    | .emitting e =>
      let k := (e.plan.drop e.seq).foldl ScrollScan.txn (scrollScanOf s.trace)
      match e.commit with
      | .build _ _ => k == ⟨false, true⟩
      | .demolish => true
      | .update d => k.agrees d
    | .idle | .opening _ _ =>
      match s.phase with
      | .closed => true
      | .opened d => (scrollScanOf s.trace).agrees d

/-! ## The premises on the initialisation table -/

/-- The last command of a table whose first byte is one of `opcodes`. -/
def lastCommand (opcodes : List Byte) (table : List (List Byte)) : Option (List Byte) :=
  table.reverse.find? fun c => match c with
    | [] => false
    | op :: _ => opcodes.contains op

/-- R140: the named premise a claim about the device needs, which the block cannot check: (a) contrast,
multiplex ratio, charge pump and addressing mode are set; (b) page addressing mode; (c) normal
display, contrast `CONTRAST_NORMAL`, scrolling deactivated; (d) the display left on. -/
def initEstablishes (cfg : Config) : Bool :=
  (lastCommand [0xA8] cfg.initSeq).isSome && (lastCommand [0x8D] cfg.initSeq).isSome
    && lastCommand [0x20] cfg.initSeq == some [0x20, 0x02]
    && lastCommand [0xA6, 0xA7] cfg.initSeq == some [0xA6]
    && lastCommand [0x81] cfg.initSeq == some [0x81, cfg.contrastNormal]
    && lastCommand [0x2E, 0x2F] cfg.initSeq == some [0x2E]
    && lastCommand [0xAE, 0xAF] cfg.initSeq == some [0xAF]

/-! ## The panel -/

/-- A reading of `trace` on the device's display memory, as R46 defines it: the address pointer and
the last data byte sent for each position. The pointer-advance rule is general knowledge, not the
source's (93_implementation_defined.md G2, log 18). -/
structure Panel where
  page : Nat
  column : Nat
  ram : Memory
  deriving DecidableEq, Repr

/-- One data byte: it goes to the current page and column, and the column increases by one (R46). -/
def Panel.byte (cfg : Config) (p : Panel) (v : Byte) : Panel :=
  { p with ram := p.ram.write (idx cfg p.page p.column) v, column := p.column + 1 }

/-- The addressing commands move the pointer (R133 to R135). -/
def Panel.command (p : Panel) : Instr → Panel
  | .setPageStart page => { p with page := page.toNat }
  | .setColLow nibble => { p with column := p.column / 16 * 16 + nibble.toNat }
  | .setColHigh nibble => { p with column := nibble.toNat * 16 + p.column % 16 }
  | _ => p

/-- One transaction that was answered `ok`. -/
def Panel.txn (cfg : Config) (p : Panel) (w : Txn) : Panel :=
  match decodeTxn w with
  | .error _ => p
  | .ok (.txnData data) => data.foldl (Panel.byte cfg) p
  | .ok i => p.command i

/-- One event of the trace. DESIGN CHOICE: a transaction answered `fail` has no effect on the panel; the spec leaves
open which part of it took effect (U3; log 21). -/
def Panel.event (cfg : Config) (p : Panel) : Event → Panel
  | .twrite control data .ok => p.txn cfg ⟨control, data⟩
  | .twrite _ _ .fail | .topen _ _ _ | .trelease => p

/-- The panel after a whole trace, from what it held before. -/
def Panel.replay (cfg : Config) (p : Panel) (trace : List Event) : Panel :=
  trace.foldl (Panel.event cfg) p

/-- The shadow is a mirror of the panel (R46), and the pointer is where the shadow cursor says (R83). -/
def Panel.mirrors (p : Panel) (d : Driver) : Bool :=
  p.ram == d.fb && p.page == d.cur.page && p.column == d.cur.column

/-- The premises under which R46 lets a claim speak of what the panel shows: the shadow is not known to
be stale, nothing was drawn during a scroll, and no scroll is active (R18, R175, R179). -/
def Driver.trusted (d : Driver) : Bool := !d.gUnknown && !d.gDrawn && !d.scrollActive

end Sys2Proof.Machine
end

