-- ==== Sys2Proof/Certificates/Slice0/Obligations.lean ====
section
/-! DEFINITION. The statements about the model, each citing in its docstring the rule of spec/ it formalises. The
helpers of the namespace `Sys2Proof.Claims` write out plans, states and tables from the spec, apart
from the machine's own functions. -/

namespace Sys2Proof.Claims

open Sys2Proof.Machine

/-! ## Vocabulary -/

/-- A transaction `W(addr, data)` (R59). -/
def W (control : Byte) (data : List Byte) : Txn := ⟨control, data⟩

/-- `cursor_triple(p, c)`, byte by byte as R136 writes it. -/
def triple (p c : Nat) : List Txn :=
  [ W 0x00 [0xB0#8 ||| BitVec.ofNat 8 p],
    W 0x00 [0x00#8 ||| BitVec.ofNat 8 (c &&& 0x0F)],
    W 0x00 [0x10#8 ||| BitVec.ofNat 8 (c >>> 4)] ]

/-- `flush_plan(fbx, (cp, cc))` as R80 writes it. -/
def flush (cfg : Config) (fbx : List Byte) (cp cc : Nat) : List Txn :=
  (List.range cfg.pages).flatMap
      (fun p => triple p 0 ++ [W 0x40 ((fbx.drop (p * cfg.columns)).take cfg.columns)])
    ++ triple cp cc

/-- `setup(dir, s, e)` as R111 writes it, for the four directions. -/
def setup (cfg : Config) (dir : Scroll) (s e : Byte) : List Txn :=
  match dir with
  | .none => []
  | .right => [W 0x00 [0x26, 0x00, s, cfg.scrollInterval, e, 0x00, 0xFF]]
  | .left => [W 0x00 [0x27, 0x00, s, cfg.scrollInterval, e, 0x00, 0xFF]]
  | .diagRight => [W 0x00 [0xA3, 0x00, BitVec.ofNat 8 (8 * cfg.pages)],
                   W 0x00 [0x29, 0x00, s, cfg.scrollInterval, e, cfg.scrollVOffset]]
  | .diagLeft => [W 0x00 [0xA3, 0x00, BitVec.ofNat 8 (8 * cfg.pages)],
                  W 0x00 [0x2A, 0x00, s, cfg.scrollInterval, e, cfg.scrollVOffset]]

/-- The plan of `startscroll<dir>` as R110 writes it. -/
def scrollPlanOf (cfg : Config) (d : Driver) (dir : Scroll) (s e : Byte) : List Txn :=
  (if d.scrolling ≠ .none then [W 0x00 [0x2E]] else []) ++ setup cfg dir s e ++ [W 0x00 [0x2F]]

/-- The events of transactions all answered `ok`. -/
def acknowledged (ws : List Txn) : List Event := ws.map fun w => .twrite w.control w.data .ok

/-- `n` answers `ok`, then others. -/
def oks (n : Nat) (rest : List WriteAnswer) : List WriteAnswer := List.replicate n .ok ++ rest

/-- The block accepts an operation of phase `Open` on the driver `d`. -/
def Ready (s : State) (d : Driver) : Prop :=
  s.cfg.valid = true ∧ s.sequencer = .idle ∧ s.phase = .opened d

/-- The block accepts a `construct`. -/
def ReadyClosed (s : State) : Prop :=
  s.cfg.valid = true ∧ s.sequencer = .idle ∧ s.phase = .closed

/-- The *Encoding* and *Operands* of an operation: its code, and the instruction its other latches make. -/
def EncodedAs (op : Byte) (i : Byte → Byte → List Byte → Instr) : Prop :=
  ∀ a b payload, decode .request (op :: a :: b :: payload) = .ok (i a b payload)

/-- The state an operation leaves: its events appended, the answers `rest` left, its response given. -/
def ended (s : State) (phase : Phase) (evs : List Event) (rest : List WriteAnswer) (r : Response) : State :=
  { s with
    phase := phase
    sequencer := .idle
    req := none
    response := some r
    trace := s.trace ++ evs
    writeAnswers := rest }

/-- The state a successful operation of phase `Open` leaves. -/
def completed (s : State) (plan : List Txn) (rest : List WriteAnswer) (d' : Driver) : State :=
  ended s (.opened d') (acknowledged plan) rest .ok

/-- The state an operation of phase `Open` leaves whose transaction `w`, number `k` of its plan, is answered
`fail`: the ones before it and the failed one are in `trace`, no other is sent, nothing is committed, and
`g_unknown` is set (R58, R150, R153). `d₁` is the driver with the ghost flag of the plan step. -/
def failed (s : State) (d₁ : Driver) (plan : List Txn) (k : Nat) (w : Txn) (rest : List WriteAnswer) : State :=
  ended s (.opened { d₁ with gUnknown := true })
    (acknowledged (plan.take k) ++ [.twrite w.control w.data .fail]) rest .transportError

/-- `g_drawn_while_scrolling` as the plan step of `clear`, `draw` and a non-empty `write` leaves it (R176). -/
def drawn (d : Driver) : Driver := { d with gDrawn := d.gDrawn || decide (d.scrolling ≠ .none) }

/-- The driver as the plan step of a `write` leaves it: an empty text does not set the ghost flag (R91, R176). -/
def written (d : Driver) (text : List Byte) : Driver := if text = [] then d else drawn d

/-- The state of an operation that hangs at transaction `k` of its plan: the ones before it are in `trace`, `seq`
stands at it, and there is no response (R40, R58). -/
def hung (s : State) (phase : Phase) (plan : List Txn) (k : Nat) (c : Commit) : State :=
  { s with
    phase := phase
    sequencer := .emitting ⟨plan, k, c⟩
    response := none
    trace := s.trace ++ acknowledged (plan.take k)
    writeAnswers := [] }

/-- The transactions of `INIT_SEQ`, one per command (R70). -/
def initWrites (cfg : Config) : List Txn := cfg.initSeq.map (W 0x00)

/-- The state once the `TOpen` of a `construct` was answered `ack` (R39). -/
def acked (s : State) (b a : Byte) (rest : List OpenAnswer) : State :=
  { s with handle := true, trace := s.trace ++ [.topen b a .ack], openAnswers := rest }

/-- What R70 says of a `construct` whose `TOpen` is answered, for the result `r` it has: `noack` gives
`DeviceNotFoundError` with nothing written; on `ack` the whole of `INIT_SEQ` answered `ok` gives a fresh driver, and
its write number `k` answered `fail` gives `TransportError` with the rest not sent; both errors release. -/
def ConstructEnds (s : State) (b a : Byte) (r : Result) : Prop :=
  ∀ ro : List OpenAnswer,
    (s.openAnswers = .noack :: ro →
      r = .next { ended s s.phase [.topen b a .noack, .trelease] s.writeAnswers .deviceNotFoundError with
        handle := false
        openAnswers := ro }) ∧
    (s.openAnswers = .ack :: ro →
      (∀ rest, s.writeAnswers = oks (initWrites s.cfg).length rest →
        r = .next (ended (acked s b a ro) (.opened ⟨[], ⟨0, 0⟩, false, false, .none, b, a, false, false⟩)
          (acknowledged (initWrites s.cfg)) rest .ok)) ∧
      (∀ k w rest, (initWrites s.cfg)[k]? = some w → s.writeAnswers = oks k (.fail :: rest) →
        r = .next { ended (acked s b a ro) s.phase
            (acknowledged ((initWrites s.cfg).take k) ++ [.twrite w.control w.data .fail, .trelease]) rest
            .transportError with
          handle := false }))

/-- The state after one transaction of a plan in progress was answered `ok`, more being left. -/
def advanced (s : State) (e : Emission) (control : Byte) (payload : List Byte) (rest : List WriteAnswer) : State :=
  { s with
    sequencer := .emitting { e with seq := e.seq + 1 }
    trace := s.trace ++ [.twrite control payload .ok]
    writeAnswers := rest }

/-- A plan is in progress with more to send than the next transaction, which the Transport answers `ok` (that a
command runs so is the model's choice, log 10). -/
def InPlan (s : State) (e : Emission) (rest : List WriteAnswer) : Prop :=
  s.sequencer = .emitting e ∧ e.seq + 1 < e.plan.length ∧ s.writeAnswers = .ok :: rest

/-! ## The plans of `teardown` and `write` -/

/-- The plan of `teardown` as R71 writes it. -/
def teardownWrites (cfg : Config) (d : Driver) : List Txn :=
  W 0x00 [0x2E] :: flush cfg (List.replicate cfg.fbLen 0x00) d.cur.page d.cur.column

/-- The plan of `write` as R91 writes it, from a page and a column: per character, the triple of the wrap before
it, its cell, the triple of the wrap after it. -/
def textWrites (cfg : Config) (page column : Nat) : List Byte → List Txn
  | [] => []
  | ch :: text =>
    let wrapsBefore := column + cfg.cellW > cfg.columns
    let p := if wrapsBefore then (page + 1) % cfg.pages else page
    let c := if wrapsBefore then 0 else column
    let wrapsAfter := c + cfg.cellW = cfg.columns
    (if wrapsBefore then triple p 0 else []) ++ [W 0x40 (cell cfg ch)] ++
      (if wrapsAfter then triple ((p + 1) % cfg.pages) 0 else []) ++
      textWrites cfg (if wrapsAfter then (p + 1) % cfg.pages else p) (if wrapsAfter then 0 else c + cfg.cellW) text

/-! ## The operations with a plan that does not depend on a text -/

/-- The operations of phase `Open` other than `write` and `teardown`, with operands that pass their checks
(R81, R82, R90, R100, R101, R110, R117). -/
def planned (cfg : Config) : Instr → Bool
  | .clear | .invert _ | .dim _ | .stopscroll => true
  | .draw bitmap => bitmap.length == cfg.fbLen
  | .setCursor page column => decide (page.toNat < cfg.pages) && decide (column.toNat < cfg.columns)
  | .startscrollright s e | .startscrollleft s e | .startscrolldiagleft s e | .startscrolldiagright s e =>
    decide (s.toNat ≤ e.toNat) && decide (e.toNat < cfg.pages)
  | _ => false

/-- Their plans `P`, as their rules write them. -/
def planOf (cfg : Config) (d : Driver) : Instr → List Txn
  | .clear => flush cfg (List.replicate cfg.fbLen 0x00) d.cur.page d.cur.column
  | .draw bitmap => flush cfg bitmap d.cur.page d.cur.column
  | .setCursor page column => triple page.toNat column.toNat
  | .invert enable => [W 0x00 [if enable then 0xA7 else 0xA6]]
  | .dim enable => [W 0x00 [0x81, if enable then cfg.contrastDim else cfg.contrastNormal]]
  | .startscrollright s e => scrollPlanOf cfg d .right s e
  | .startscrollleft s e => scrollPlanOf cfg d .left s e
  | .startscrolldiagleft s e => scrollPlanOf cfg d .diagLeft s e
  | .startscrolldiagright s e => scrollPlanOf cfg d .diagRight s e
  | .stopscroll => [W 0x00 [0x2E]]
  | _ => []

/-- The driver after their plan step (R176). -/
def plannedDriver (d : Driver) : Instr → Driver
  | .clear | .draw _ => drawn d
  | _ => d

/-- The new values `S'` they commit. -/
def committed (d : Driver) : Instr → Driver
  | .clear => { drawn d with fb := [] }
  | .draw bitmap => { drawn d with fb := Memory.ofBytes bitmap }
  | .setCursor page column => { d with cur := ⟨page.toNat, column.toNat⟩ }
  | .invert enable => { d with inverted := enable }
  | .dim enable => { d with dimmed := enable }
  | .startscrollright _ _ => { d with scrolling := .right }
  | .startscrollleft _ _ => { d with scrolling := .left }
  | .startscrolldiagleft _ _ => { d with scrolling := .diagLeft }
  | .startscrolldiagright _ _ => { d with scrolling := .diagRight }
  | .stopscroll => { d with scrolling := .none }
  | _ => d

/-! ## Which operation a step runs -/

/-- The operation in progress, or the one of the request that the next step takes, is the one that `op` accepts as a
request, or that commits as `c` says. -/
def runs (s : State) (op : Instr → Bool) (c : Commit → Bool) : Bool :=
  match s.sequencer with
  | .opening b a => op (.construct b a)
  | .emitting e => c e.commit
  | .idle =>
    match s.requests with
    | [] => false
    | bs :: _ =>
      match decode .request bs with
      | .ok i => op i
      | .error _ => false

/-- A step runs a `construct`, begun or resumed. -/
def runsConstruct (s : State) : Bool :=
  runs s (fun i => match i with | .construct _ _ => true | _ => false)
    (fun c => match c with | .build _ _ => true | _ => false)

/-- A step runs a `teardown`, begun or resumed. -/
def runsTeardown (s : State) : Bool := runs s (· == .teardown) (· == .demolish)

/-! ## Who writes what -/

/-- The operations that write `fb` (R81 to R83, R91). -/
def writesFb : Instr → Bool
  | .clear | .draw _ | .write _ => true
  | _ => false

/-- The operations that write `cur` (R16). -/
def writesCur : Instr → Bool
  | .setCursor _ _ | .write _ => true
  | _ => false

/-- The operation that writes `inverted` (R14). -/
def writesInverted : Instr → Bool
  | .invert _ => true
  | _ => false

/-- The operation that writes `dimmed` (R14). -/
def writesDimmed : Instr → Bool
  | .dim _ => true
  | _ => false

/-- The operations that write `scrolling` (R15). -/
def writesScrolling : Instr → Bool
  | .startscrollright _ _ | .startscrollleft _ _ | .startscrolldiagleft _ _
  | .startscrolldiagright _ _ | .stopscroll => true
  | _ => false

/-- `construct` and `teardown`, the only operations that open or release the Transport and change `phase`. -/
def isLifecycle : Instr → Bool
  | .construct _ _ | .teardown => true
  | _ => false

/-- The rows of the error matrix (R152). -/
def possible : Instr → List Response
  | .construct _ _ => [.ok, .deviceNotFoundError, .transportError]
  | .draw _ => [.ok, .transportError, .invalidArgumentError]
  | .setCursor _ _ | .startscrollright _ _ | .startscrollleft _ _ | .startscrolldiagleft _ _
  | .startscrolldiagright _ _ => [.ok, .transportError, .outOfRangeError]
  | _ => [.ok, .transportError]

end Sys2Proof.Claims

open Sys2Proof Sys2Proof.Machine Sys2Proof.Claims

/-! ## Reset, fetch and refusal -/

/-- R22, R170: after reset `phase = Closed`, `trace = []`, no Transport call made and nothing readable. That the
sequencer is idle and that a step of reset finds no request is the model's choice (log 4, log 15). -/
def Obligations.ResetLeavesClosedAndSilent : Prop :=
  State.reset.phase = .closed ∧ State.reset.trace = [] ∧ State.reset.handle = false ∧
    State.reset.sequencer = .idle ∧ observe State.reset = none ∧ step State.reset = .next State.reset

/-- The three invariants of the model hold at reset (with the configuration the model chose for reset, log 1, log 2). -/
def Obligations.ResetMeetsInvariants : Prop :=
  State.reset.wf = true ∧ State.reset.bracketed = true ∧ State.reset.scrollOrdered = true

/-- Between operations a step takes the request at the head of the request port into the four latches and is
`exec` of the instruction it decodes to (R11, R41, R50). -/
def Obligations.StepRunsNextRequest : Prop :=
  ∀ (s : State) (op a b : Byte) (payload : List Byte) (rest : List (List Byte)) (i : Instr),
    s.sequencer = .idle → s.requests = (op :: a :: b :: payload) :: rest →
    decode .request (op :: a :: b :: payload) = .ok i →
    step s = exec i { s with requests := rest, req := some ⟨op, a, b, payload⟩ }

/-- While a plan is in progress a step is `exec` of the instruction that the transaction at `seq` decodes
to (R12, R58; a transaction as an instruction of its own step is the model's choice, log 6, log 10). -/
def Obligations.StepRunsPlannedTransaction : Prop :=
  ∀ (s : State) (e : Emission) (w : Txn) (i : Instr),
    s.sequencer = .emitting e → e.plan[e.seq]? = some w → decode .transport (w.control :: w.data) = .ok i →
    step s = exec i s

/-- A step of an idle block without a request changes nothing; a step whose Transport call has no answer
leaves the operation where it is (R40, R156; the handle is held from the `TOpen` on, R73). How an operation in progress
stands in State, and the input queues, are the model's choice (log 3, log 4, log 6, log 7). -/
def Obligations.StepWaitsForInput : Prop :=
  (∀ s : State, s.sequencer = .idle → s.requests = [] → step s = .next s) ∧
  (∀ (s : State) (b a : Byte), s.sequencer = .opening b a → s.handle = true → s.openAnswers = [] →
    step s = .next s) ∧
  (∀ (s : State) (e : Emission), s.sequencer = .emitting e → e.wf s.cfg s.phase = true →
    s.writeAnswers = [] → step s = .next s)

/-- R56 (a): an `op` in 0x0D .. 0xFF is refused, whatever the other latches hold. -/
def Obligations.ReservedOperationsRefused : Prop :=
  ∀ (s : State) (op a b : Byte) (payload : List Byte) (rest : List (List Byte)),
    s.sequencer = .idle → s.requests = (op :: a :: b :: payload) :: rest → 0x0D ≤ op.toNat →
    step s = .refused (.rejected (.reservedOp op))

/-- R56 (b), R180: anything but `construct` in phase `Closed`, and `construct` in phase `Open`, is refused,
whatever the operands. -/
def Obligations.WrongPhaseRefused : Prop :=
  ∀ (s : State) (i : Instr), s.cfg.valid = true → s.sequencer = .idle → i.format = .req →
    (s.phase = .closed → (∀ b a, i ≠ .construct b a) → exec i s = .refused .wrongPhase) ∧
    (∀ d b a, s.phase = .opened d → i = .construct b a → exec i s = .refused .wrongPhase)

/-- R44, R178: a request while another operation is in progress is refused. -/
def Obligations.OverlappingRequestRefused : Prop :=
  ∀ (s : State) (i : Instr), s.cfg.valid = true → s.sequencer ≠ .idle → i.format = .req →
    exec i s = .refused .requestInFlight

/-- R6: a configuration that breaks a constraint is refused: no request is accepted under it
(that acceptance is where it is refused is the model's choice, log 17). -/
def Obligations.BadConfigurationRefused : Prop :=
  ∀ (s : State) (i : Instr), i.format = .req →
    ¬ (1 ≤ s.cfg.pages ∧ s.cfg.pages ≤ 8 ∧ 1 ≤ s.cfg.columns ∧ s.cfg.columns ≤ 128 ∧
        1 ≤ s.cfg.glyphW ∧ s.cfg.cellW ≤ s.cfg.columns ∧
        (∀ g ∈ s.cfg.font, g.2.length = s.cfg.glyphW) ∧ s.cfg.fallbackGlyph.length = s.cfg.glyphW ∧
        (∀ c ∈ s.cfg.initSeq, c ≠ [])) →
    exec i s = .refused .badConfiguration

/-- A device command or transaction is refused where no plan is in progress: the block sends a
transaction only as part of an operation's plan (R57, R58, R73; the refusal is the model's choice,
log 10). -/
def Obligations.TransactionWithoutPlanRefused : Prop :=
  ∀ (s : State) (i : Instr), i.format ≠ .req → WellFormed i = true → (∀ e, s.sequencer ≠ .emitting e) →
    exec i s = .refused .noPlanInProgress

/-! ## Encodings -/

/-- Words written out from R52, R60 and R139 decode to the instructions they stand for. -/
def Obligations.SpecWordsDecode : Prop :=
  decode .request [0x00, 0x00, 0x3C] = .ok (.construct 0x00 0x3C) ∧
  decode .request [0x01, 0x55, 0xAA, 0x01, 0x02] = .ok .clear ∧
  decode .request [0x03, 0x07, 0x5A] = .ok (.setCursor 7 90) ∧
  decode .request [0x04, 0x00, 0x00, 0x48, 0x69] = .ok (.write [0x48, 0x69]) ∧
  decode .request [0x05, 0x02, 0x00] = .ok (.invert true) ∧
  decode .request [0x0A, 0x00, 0x00] = .ok (.startscrolldiagright 0 0) ∧
  decode .transport [0x00, 0x81, 0xCF] = .ok (.setContrast 0xCF) ∧
  decode .transport [0x00, 0x26, 0x00, 0x00, 0x00, 0x07, 0x00, 0xFF] = .ok (.scrollHRight ⟨0, 0, 0, 7, 0, 0xFF⟩) ∧
  decode .transport [0x00, 0xB5] = .ok (.setPageStart 5) ∧
  decode .transport [0x00, 0x17] = .ok (.setColHigh 7) ∧
  decode .transport [0x00, 0x40] = .ok (.setStartLine 0) ∧
  decode .transport [0x40, 0x7F, 0x08] = .ok (.txnData [0x7F, 0x08])

/-- R54, R55: a latch an operation does not use is ignored, and every non-zero `a` is `true`; the canonical encodings
of the boolean operand are 0x00 and 0x01. -/
def Obligations.UnusedLatchesIgnored : Prop :=
  (∀ e : Bool, let a := if e then 0x01 else 0x00
    encode (.invert e) = [0x05, a, 0x00] ∧ encode (.dim e) = [0x06, a, 0x00]) ∧
  ∀ (a b : Byte) (p : List Byte),
    decode .request (0x00 :: a :: b :: p) = .ok (.construct a b) ∧
    decode .request (0x01 :: a :: b :: p) = .ok .clear ∧
    decode .request (0x02 :: a :: b :: p) = .ok (.draw p) ∧
    decode .request (0x03 :: a :: b :: p) = .ok (.setCursor a b) ∧
    decode .request (0x04 :: a :: b :: p) = .ok (.write p) ∧
    decode .request (0x05 :: a :: b :: p) = .ok (.invert (decide (a ≠ 0x00))) ∧
    decode .request (0x06 :: a :: b :: p) = .ok (.dim (decide (a ≠ 0x00))) ∧
    decode .request (0x07 :: a :: b :: p) = .ok (.startscrollright a b) ∧
    decode .request (0x08 :: a :: b :: p) = .ok (.startscrollleft a b) ∧
    decode .request (0x09 :: a :: b :: p) = .ok (.startscrolldiagleft a b) ∧
    decode .request (0x0A :: a :: b :: p) = .ok (.startscrolldiagright a b) ∧
    decode .request (0x0B :: a :: b :: p) = .ok .stopscroll ∧
    decode .request (0x0C :: a :: b :: p) = .ok .teardown

/-- Decode and encode agree: every well-formed instruction, with every operand at every value, is read back
from its own bytes on its port. For the device commands this is the mapper's injectivity (R138).
A raw command is well-formed where the tables do not name it (the model's choice, log 12). -/
def Obligations.DecodeOfEncode : Prop :=
  ∀ i : Instr, WellFormed i = true → decode i.format.port (encode i) = .ok i

/-- R138, R59: every transaction the block can send is read back as one instruction, and that instruction's
bytes are the transaction's: the decoder drops no bit. A command the tables do not name is read as a raw
one (the model's choice, log 12). -/
def Obligations.TransactionDecodingLosesNothing : Prop :=
  ∀ (control : Byte) (data : List Byte), (control = 0x00 ∨ control = 0x40) → data ≠ [] →
    ∃ i, decode .transport (control :: data) = .ok i ∧ encode i = control :: data ∧ i.format ≠ .req

/-- R51, R151 and R15: the response codes and the code of `scrolling`. -/
def Obligations.CodesAsNumbered : Prop :=
  Response.ok.code = 0x00 ∧ Response.deviceNotFoundError.code = 0x01 ∧ Response.transportError.code = 0x02 ∧
  Response.invalidArgumentError.code = 0x03 ∧ Response.outOfRangeError.code = 0x04 ∧
  (∀ r : Response, r.code.toNat < 5) ∧
  Scroll.none.code = 0 ∧ Scroll.right.code = 1 ∧ Scroll.left.code = 2 ∧ Scroll.diagLeft.code = 3 ∧
  Scroll.diagRight.code = 4

/-! ## Lifecycle -/

/-- R70: `construct`, accepted only in phase `Closed`, ends as its rule says (`ConstructEnds`): at once where its
`TOpen` is answered (R39), and the same where the answer of a `TOpen` that hung (R40) comes late. That a pending `TOpen`
stands as `opening` and its event is appended with the late answer is the model's choice (log 7), and so is that
the step that finds the answer sends the whole plan (log 6). -/
def Obligations.ConstructCompletes : Prop :=
  EncodedAs 0x00 (fun a b _ => .construct a b) ∧
  (∀ s d b a, Ready s d → exec (.construct b a) s = .refused .wrongPhase) ∧
  (∀ s b a, ReadyClosed s → ConstructEnds s b a (exec (.construct b a) s)) ∧
  (∀ s b a, s.sequencer = .opening b a → s.phase = .closed → ConstructEnds s b a (step s))

/-- R71: `teardown`, accepted only in phase `Open`, stops first and then sends the flush of zeros. It releases the
Transport and closes the block on both paths: with `OK` when every write is answered `ok`, with
`TransportError` and no further write at the first `fail`. -/
def Obligations.TeardownCompletes : Prop :=
  EncodedAs 0x0C (fun _ _ _ => .teardown) ∧
  (∀ s, ReadyClosed s → exec .teardown s = .refused .wrongPhase) ∧
  ∀ (s : State) (d : Driver),
    let plan := teardownWrites s.cfg d
    Ready s d → d.cur.valid s.cfg = true →
    (∀ rest, s.writeAnswers = oks plan.length rest →
      exec .teardown s =
        .next { ended s .closed (acknowledged plan ++ [.trelease]) rest .ok with handle := false }) ∧
    (∀ k w rest, plan[k]? = some w → s.writeAnswers = oks k (.fail :: rest) →
      exec .teardown s = .next { ended s .closed
        (acknowledged (plan.take k) ++ [.twrite w.control w.data .fail, .trelease]) rest .transportError with
        handle := false })

/-- R72: which outcome changes `phase`: of an operation begun by `exec`, and of every step of a well-formed state,
which begins an operation or goes on with one that hung (how one that hung stands in State and is gone on with is the
model's choice, log 6, log 7). -/
def Obligations.PhaseTransitions : Prop :=
  (∀ (s t : State) (i : Instr), exec i s = .next t → i.format = .req →
    (∀ b a, i = .construct b a → s.phase = .closed ∧
      (t.sequencer = .idle → (t.phase.isOpen = true ↔ t.response = some .ok))) ∧
    (i = .teardown → s.phase.isOpen = true ∧ (t.sequencer = .idle → t.phase = .closed)) ∧
    (isLifecycle i = false → s.phase.isOpen = true ∧ t.phase.isOpen = true)) ∧
  (∀ s t : State, s.wf = true → step s = .next t →
    (runsConstruct s = true → s.phase = .closed ∧ (t.sequencer ≠ .idle → t.phase = .closed) ∧
      (t.sequencer = .idle → (t.phase.isOpen = true ↔ t.response = some .ok))) ∧
    (runsTeardown s = true → s.phase.isOpen = true ∧ (t.sequencer ≠ .idle → t.phase = s.phase) ∧
      (t.sequencer = .idle → t.phase = .closed)) ∧
    (runsConstruct s = false → runsTeardown s = false → t.phase.isOpen = s.phase.isOpen))

/-! ## Whole-buffer operations -/

/-- R81 (with R80): `clear` sends the flush of zeros, sets the ghost flag of a draw while scrolling (R176), and
commits a zero framebuffer; at the first `fail` the framebuffer stays. -/
def Obligations.ClearCompletes : Prop :=
  EncodedAs 0x01 (fun _ _ _ => .clear) ∧
  ∀ (s : State) (d : Driver),
    let plan := flush s.cfg (List.replicate s.cfg.fbLen 0x00) d.cur.page d.cur.column
    Ready s d → d.cur.valid s.cfg = true →
    (∀ rest, s.writeAnswers = oks plan.length rest →
      exec .clear s = .next (completed s plan rest
        { drawn d with fb := Memory.ofBytes (List.replicate s.cfg.fbLen 0x00) })) ∧
    (∀ k w rest, plan[k]? = some w → s.writeAnswers = oks k (.fail :: rest) →
      exec .clear s = .next (failed s (drawn d) plan k w rest))

/-- R82 (with R80): a bitmap of another length gives `InvalidArgumentError`, with no write and nothing changed; one
of the exact length is flushed and committed; at the first `fail` the framebuffer stays. -/
def Obligations.DrawCompletes : Prop :=
  EncodedAs 0x02 (fun _ _ payload => .draw payload) ∧
  ∀ (s : State) (d : Driver) (bitmap : List Byte),
    let plan := flush s.cfg bitmap d.cur.page d.cur.column
    Ready s d → d.cur.valid s.cfg = true →
    (bitmap.length ≠ s.cfg.fbLen →
      exec (.draw bitmap) s = .next (ended s (.opened d) [] s.writeAnswers .invalidArgumentError)) ∧
    (bitmap.length = s.cfg.fbLen →
      (∀ rest, s.writeAnswers = oks plan.length rest →
        exec (.draw bitmap) s = .next (completed s plan rest { drawn d with fb := Memory.ofBytes bitmap })) ∧
      (∀ k w rest, plan[k]? = some w → s.writeAnswers = oks k (.fail :: rest) →
        exec (.draw bitmap) s = .next (failed s (drawn d) plan k w rest)))

/-- R30: `idx(p, c) = p × COLUMNS + c` puts the pages one after another, each in ascending columns, every position
at an index of its own and every index of the framebuffer at a position; a bitmap is indexed alike. -/
def Obligations.FramebufferLayout : Prop :=
  ∀ cfg : Config, cfg.valid = true →
    (∀ p c, p < cfg.pages → c < cfg.columns → idx cfg p c = p * cfg.columns + c ∧ idx cfg p c < cfg.fbLen) ∧
    (∀ p c p' c', p < cfg.pages → c < cfg.columns → p' < cfg.pages → c' < cfg.columns →
      idx cfg p c = idx cfg p' c' → p = p' ∧ c = c') ∧
    (∀ i < cfg.fbLen, ∃ p c, p < cfg.pages ∧ c < cfg.columns ∧ idx cfg p c = i) ∧
    idx cfg (cfg.pages - 1) (cfg.columns - 1) = cfg.fbLen - 1 ∧
    (∀ (bitmap : List Byte) (p c : Nat), bitmap.length = cfg.fbLen → p < cfg.pages → c < cfg.columns →
      bitmap[idx cfg p c]? = some ((Memory.ofBytes bitmap).read (idx cfg p c)))

/-- The source's first property (95_test_vectors.md E1): a read of the shadow framebuffer after a successful
`draw` gives exactly the bitmap, and after a successful `clear` zeros. -/
def Obligations.DrawnBufferReadsBack : Prop :=
  ∀ (s t : State) (bitmap : List Byte), t.sequencer = .idle → t.response = some .ok →
    (exec (.draw bitmap) s = .next t → (observe t).map (·.fb) = some bitmap) ∧
    (exec .clear s = .next t → (observe t).map (·.fb) = some (List.replicate s.cfg.fbLen 0x00))

/-- R61: a flush has `4 × PAGES + 3` transactions, `teardown` `4 × PAGES + 4`, `startscroll*` at most 4. -/
def Obligations.PlanLengthsBounded : Prop :=
  ∀ (s t : State) (d : Driver) (i : Instr), Ready s d → exec i s = .next t →
    (t.trace.length - s.trace.length) ≤
      match i with
      | .clear | .draw _ => 4 * s.cfg.pages + 3
      | .teardown => 4 * s.cfg.pages + 5
      | .write text => 7 * text.length
      | .setCursor _ _ => 3
      | .startscrollright _ _ | .startscrollleft _ _ | .startscrolldiagleft _ _
      | .startscrolldiagright _ _ => 4
      | _ => 1

/-! ## Cursor and text -/

/-- R90, R136: out of range, `setCursor` gives one `OutOfRangeError`, with no write and nothing changed; in range it
sends the cursor triple and sets `cur`; at the first `fail` the cursor stays. -/
def Obligations.SetCursorCompletes : Prop :=
  EncodedAs 0x03 (fun a b _ => .setCursor a b) ∧
  ∀ (s : State) (d : Driver) (page column : Byte),
    let plan := triple page.toNat column.toNat
    Ready s d →
    (¬ (page.toNat < s.cfg.pages ∧ column.toNat < s.cfg.columns) →
      exec (.setCursor page column) s = .next (ended s (.opened d) [] s.writeAnswers .outOfRangeError)) ∧
    (page.toNat < s.cfg.pages ∧ column.toNat < s.cfg.columns →
      (∀ rest, s.writeAnswers = oks plan.length rest →
        exec (.setCursor page column) s =
          .next (completed s plan rest { d with cur := ⟨page.toNat, column.toNat⟩ })) ∧
      (∀ k w rest, plan[k]? = some w → s.writeAnswers = oks k (.fail :: rest) →
        exec (.setCursor page column) s = .next (failed s d plan k w rest)))

/-- R92: the cell of a character is its glyph in the font, or the fallback glyph outside the font, and then one blank
column: `CELL_W` bytes in all. -/
def Obligations.CellOfCharacter : Prop :=
  ∀ (cfg : Config) (ch : Byte), cfg.valid = true →
    (∀ g, (ch, g) ∈ cfg.font → cell cfg ch = g ++ [0x00]) ∧
    ((∀ g, (ch, g) ∉ cfg.font) → cell cfg ch = cfg.fallbackGlyph ++ [0x00]) ∧
    (glyph cfg ch).length = cfg.glyphW ∧ (cell cfg ch).length = cfg.cellW

/-- R91, R92: a text of one character. Its cell goes to the start position (after the wrap before it, if the
cell would pass the right edge), is sent as one data transaction, overwrites exactly `CELL_W` bytes
there, and the cursor advances by it (wrapping after it, if it ended at the edge). -/
def Obligations.WriteOfOneCharacter : Prop :=
  ∀ (s : State) (d : Driver) (ch : Byte) (rest : List WriteAnswer),
    let next := (d.cur.page + 1) % s.cfg.pages
    let wrapsBefore := d.cur.column + s.cfg.cellW > s.cfg.columns
    let p := if wrapsBefore then next else d.cur.page
    let c := if wrapsBefore then 0 else d.cur.column
    let wrapsAfter := c + s.cfg.cellW = s.cfg.columns
    let shape := cell s.cfg ch
    let plan := (if wrapsBefore then triple p 0 else []) ++ [W 0x40 shape] ++
      (if wrapsAfter then triple ((p + 1) % s.cfg.pages) 0 else [])
    let cur' : Cursor := if wrapsAfter then ⟨(p + 1) % s.cfg.pages, 0⟩ else ⟨p, c + s.cfg.cellW⟩
    Ready s d → d.wf s.cfg = true → s.writeAnswers = oks plan.length rest →
    ∃ fb' : Memory, fb'.wf = true ∧
      (∀ a, fb'.read a = if idx s.cfg p c ≤ a ∧ a < idx s.cfg p c + s.cfg.cellW
        then shape.getD (a - idx s.cfg p c) 0x00 else d.fb.read a) ∧
      exec (.write [ch]) s = .next (completed s plan rest { drawn d with fb := fb', cur := cur' })

/-- R91: writing one text after another is writing their concatenation: the same cells, transactions,
framebuffer and cursor. -/
def Obligations.WriteOfConcatenation : Prop :=
  ∀ (s t : State) (d : Driver) (x y : List Byte) (rest : List WriteAnswer),
    Ready s d → d.wf s.cfg = true → s.writeAnswers = oks (7 * (x ++ y).length) rest →
    exec (.write x) s = .next t → exec (.write (x ++ y)) s = exec (.write y) t

/-- R91, R61: every text is legal and is written with at most 7 transactions a character; the cursor stays on
the panel (R16) and the empty text changes nothing. -/
def Obligations.WriteAlwaysCompletes : Prop :=
  ∀ (s : State) (d : Driver) (text : List Byte) (rest : List WriteAnswer),
    Ready s d → d.wf s.cfg = true → s.writeAnswers = oks (7 * text.length) rest →
    ∃ (t : State) (d' : Driver), exec (.write text) s = .next t ∧ t.sequencer = .idle ∧
      t.response = some .ok ∧ t.phase = .opened d' ∧ d'.wf s.cfg = true ∧
      (text = [] → d' = d ∧ t.trace = s.trace ∧ t.writeAnswers = s.writeAnswers)

/-! ## Display mode -/

/-- R100: `invert` sends exactly one command, 0xA7 or 0xA6, whatever the flag holds, and sets the flag to its operand;
answered `fail`, the flag stays. -/
def Obligations.InvertCompletes : Prop :=
  EncodedAs 0x05 (fun a _ _ => .invert (decide (a ≠ 0x00))) ∧
  ∀ (s : State) (d : Driver) (enable : Bool) (rest : List WriteAnswer),
    let plan := [W 0x00 [if enable then 0xA7 else 0xA6]]
    Ready s d →
    (s.writeAnswers = .ok :: rest →
      exec (.invert enable) s = .next (completed s plan rest { d with inverted := enable })) ∧
    (s.writeAnswers = .fail :: rest →
      exec (.invert enable) s = .next (failed s d plan 0 (W 0x00 [if enable then 0xA7 else 0xA6]) rest))

/-- R101: `dim` sends exactly one contrast command of two payload bytes, whatever the flag holds, and sets the flag
to its operand; answered `fail`, the flag stays. -/
def Obligations.DimCompletes : Prop :=
  EncodedAs 0x06 (fun a _ _ => .dim (decide (a ≠ 0x00))) ∧
  ∀ (s : State) (d : Driver) (enable : Bool) (rest : List WriteAnswer),
    let v := if enable then s.cfg.contrastDim else s.cfg.contrastNormal
    Ready s d →
    (s.writeAnswers = .ok :: rest →
      exec (.dim enable) s = .next (completed s [W 0x00 [0x81, v]] rest { d with dimmed := enable })) ∧
    (s.writeAnswers = .fail :: rest →
      exec (.dim enable) s = .next (failed s d [W 0x00 [0x81, v]] 0 (W 0x00 [0x81, v]) rest))

/-! ## Scroll -/

/-- R110 to R115: the four `startscroll*`. An out-of-order or out-of-bounds range gives `OutOfRangeError`, with no
write, no implicit stop and nothing changed; a legal one sends the implicit stop (if the shadow says a
scroll is active), the setup and the activate, and sets `scrolling`; at the first `fail` it stays. -/
def Obligations.StartscrollCompletes : Prop :=
  EncodedAs 0x07 (fun a b _ => .startscrollright a b) ∧ EncodedAs 0x08 (fun a b _ => .startscrollleft a b) ∧
  EncodedAs 0x09 (fun a b _ => .startscrolldiagleft a b) ∧
  EncodedAs 0x0A (fun a b _ => .startscrolldiagright a b) ∧
  ∀ (s : State) (d : Driver) (sp ep : Byte), Ready s d →
    ∀ x ∈ [(Instr.startscrollright sp ep, Scroll.right), (.startscrollleft sp ep, .left),
        (.startscrolldiagleft sp ep, .diagLeft), (.startscrolldiagright sp ep, .diagRight)],
      let plan := scrollPlanOf s.cfg d x.2 sp ep
      (¬ (sp.toNat ≤ ep.toNat ∧ ep.toNat < s.cfg.pages) →
        exec x.1 s = .next (ended s (.opened d) [] s.writeAnswers .outOfRangeError)) ∧
      (sp.toNat ≤ ep.toNat ∧ ep.toNat < s.cfg.pages →
        (∀ rest, s.writeAnswers = oks plan.length rest →
          exec x.1 s = .next (completed s plan rest { d with scrolling := x.2 })) ∧
        (∀ k w rest, plan[k]? = some w → s.writeAnswers = oks k (.fail :: rest) →
          exec x.1 s = .next (failed s d plan k w rest)))

/-- R117: `stopscroll` sends the deactivate command whatever `scrolling` holds, and sets it to `none`; answered
`fail`, it stays. -/
def Obligations.StopscrollCompletes : Prop :=
  EncodedAs 0x0B (fun _ _ _ => .stopscroll) ∧
  ∀ (s : State) (d : Driver) (rest : List WriteAnswer), Ready s d →
    (s.writeAnswers = .ok :: rest →
      exec .stopscroll s = .next (completed s [W 0x00 [0x2E]] rest { d with scrolling := .none })) ∧
    (s.writeAnswers = .fail :: rest →
      exec .stopscroll s = .next (failed s d [W 0x00 [0x2E]] 0 (W 0x00 [0x2E]) rest))

/-! ## Failure, hang and frames of the operations -/

/-- R40: a Transport call that does not answer leaves the operation in progress: `seq` stands at it, nothing is
committed, no response is produced. For the `TOpen` of a `construct`, a write of its `INIT_SEQ`, and a write of
`teardown`, of `write` and of every other operation. What is kept for the commit is the model's
representation (log 6); that an unanswered `TOpen` stands as `opening` and leaves `trace` as it is, its
event coming with its answer, is the model's choice (log 7). -/
def Obligations.HungCallLeavesOperationInProgress : Prop :=
  (∀ s b a, ReadyClosed s →
    (s.openAnswers = [] → exec (.construct b a) s =
      .next { s with response := none, handle := true, sequencer := .opening b a }) ∧
    (∀ ro k, s.openAnswers = .ack :: ro → k < (initWrites s.cfg).length → s.writeAnswers = oks k [] →
      exec (.construct b a) s = .next (hung (acked s b a ro) .closed (initWrites s.cfg) k (.build b a)))) ∧
  (∀ s d k, Ready s d → d.cur.valid s.cfg = true → k < (teardownWrites s.cfg d).length →
    s.writeAnswers = oks k [] →
    exec .teardown s = .next (hung s (.opened d) (teardownWrites s.cfg d) k .demolish)) ∧
  (∀ s d text k, Ready s d → d.wf s.cfg = true →
    k < (textWrites s.cfg d.cur.page d.cur.column text).length → s.writeAnswers = oks k [] →
    ∃ fb' cur', exec (.write text) s =
      .next (hung s (.opened (written d text)) (textWrites s.cfg d.cur.page d.cur.column text) k
        (.update { written d text with fb := fb', cur := cur' }))) ∧
  (∀ s d i k, Ready s d → d.cur.valid s.cfg = true → planned s.cfg i = true → k < (planOf s.cfg d i).length →
    s.writeAnswers = oks k [] →
    exec i s = .next (hung s (.opened (plannedDriver d i)) (planOf s.cfg d i) k (.update (committed d i))))

/-- R57, R58, R91, R153, R176: a `write` that is not answered `OK` commits nothing: `fb` and `cur` are as before, and
the ghost flag of a draw while scrolling is as its plan step leaves it, whether it fails or hangs. One whose
write number `k` is answered `fail` has sent exactly the ones before it and that one. -/
def Obligations.UnfinishedWriteCommitsNothing : Prop :=
  (∀ (s t : State) (d : Driver) (text : List Byte), Ready s d → exec (.write text) s = .next t →
    t.response ≠ some .ok →
    ∃ d', t.phase = .opened d' ∧ d'.fb = d.fb ∧ d'.cur = d.cur ∧ d'.inverted = d.inverted ∧
      d'.dimmed = d.dimmed ∧ d'.scrolling = d.scrolling ∧ d'.gDrawn = (written d text).gDrawn ∧
      (t.response = some .transportError → t.sequencer = .idle ∧ d'.gUnknown = true) ∧
      (t.response = none → t.sequencer ≠ .idle ∧ d'.gUnknown = d.gUnknown)) ∧
  (∀ (s : State) (d : Driver) (text : List Byte) (k : Nat) (w : Txn) (rest : List WriteAnswer),
    let plan := textWrites s.cfg d.cur.page d.cur.column text
    Ready s d → d.wf s.cfg = true → plan[k]? = some w → s.writeAnswers = oks k (.fail :: rest) →
    exec (.write text) s = .next (failed s (written d text) plan k w rest))

/-- The frame of every operation of phase `Open` but `teardown`, in whatever next state (success, error or hang):
what it may write (R14 to R16, R83, R102), that the identifiers, the handle, the configuration and the
inputs it does not read stay, and that `trace` grows by writes only. A form that does not write `fb` leaves
every byte of it. -/
def Obligations.OpenOperationFrame : Prop :=
  ∀ (s t : State) (d : Driver) (i : Instr), exec i s = .next t → i.format = .req → isLifecycle i = false →
    s.phase = .opened d →
    t.cfg = s.cfg ∧ t.handle = s.handle ∧ t.requests = s.requests ∧ t.openAnswers = s.openAnswers ∧
    (∃ evs, t.trace = s.trace ++ evs ∧ ∀ ev ∈ evs, ∃ control data ans, ev = .twrite control data ans) ∧
    ∃ d', t.phase = .opened d' ∧ d'.busId = d.busId ∧ d'.devAddr = d.devAddr ∧
      (writesFb i = false → (∀ a, d'.fb.read a = d.fb.read a) ∧ d'.fb = d.fb ∧ d'.gDrawn = d.gDrawn) ∧
      (writesCur i = false → d'.cur = d.cur) ∧ (writesInverted i = false → d'.inverted = d.inverted) ∧
      (writesDimmed i = false → d'.dimmed = d.dimmed) ∧
      (writesScrolling i = false → d'.scrolling = d.scrolling)

/-- The frame of the lifecycle operations: the configuration and the host's requests stay, and `trace` is
extended, never rewritten (R10, R23). -/
def Obligations.LifecycleFrame : Prop :=
  ∀ (s t : State) (i : Instr), exec i s = .next t → isLifecycle i = true →
    t.cfg = s.cfg ∧ t.requests = s.requests ∧ (∃ evs, t.trace = s.trace ++ evs) ∧
    (i = .teardown → t.openAnswers = s.openAnswers ∧ (t.sequencer ≠ .idle → t.phase = s.phase)) ∧
    (i ≠ .teardown → t.response ≠ some .ok → t.phase = .closed)

/-- R152: which responses an operation can end with. -/
def Obligations.ErrorMatrix : Prop :=
  ∀ (s t : State) (i : Instr), exec i s = .next t → i.format = .req → t.sequencer = .idle →
    ∃ r ∈ possible i, t.response = some r

/-! ## Device commands and transactions

That a command or transaction runs as the next transaction of the plan in progress (`InPlan`) is the model's
choice (log 10); what it sends is the spec's. -/

/-- R120 to R126: the display-mode commands, each sent as one transaction `W(0x00, payload)`. -/
def Obligations.DisplayCommandsSent : Prop :=
  ∀ (s : State) (e : Emission) (rest : List WriteAnswer) (v : Byte), InPlan s e rest →
    ∀ x ∈ [(Instr.setContrast v, [0x81, v]), (.displayOff, [0xAE]), (.displayOn, [0xAF]),
        (.normalDisplay, [0xA6]), (.inverseDisplay, [0xA7]), (.entireResume, [0xA4]), (.entireOn, [0xA5])],
      exec x.1 s = .next (advanced s e 0x00 x.2 rest)

/-- R127 to R132, R137: the scroll commands, each sent as one transaction, parameters in order. -/
def Obligations.ScrollCommandsSent : Prop :=
  ∀ (s : State) (e : Emission) (rest : List WriteAnswer) (sp iv ep v top rows d₀ d₁ d₂ : Byte), InPlan s e rest →
    ∀ x ∈ [(Instr.scrollHRight ⟨d₀, sp, iv, ep, d₁, d₂⟩, [0x26, d₀, sp, iv, ep, d₁, d₂]),
        (.scrollHLeft ⟨d₀, sp, iv, ep, d₁, d₂⟩, [0x27, d₀, sp, iv, ep, d₁, d₂]),
        (.scrollVHRight ⟨d₀, sp, iv, ep, v⟩, [0x29, d₀, sp, iv, ep, v]),
        (.scrollVHLeft ⟨d₀, sp, iv, ep, v⟩, [0x2A, d₀, sp, iv, ep, v]),
        (.scrollDeactivate, [0x2E]), (.scrollActivate, [0x2F]), (.setVscrollArea top rows, [0xA3, top, rows])],
      exec x.1 s = .next (advanced s e 0x00 x.2 rest)

/-- R133 to R135: the addressing commands, with their operand in the low bits of the opcode byte. -/
def Obligations.AddressingCommandsSent : Prop :=
  ∀ (s : State) (e : Emission) (rest : List WriteAnswer) (p : BitVec 3) (l : BitVec 4) (h : BitVec 3),
    InPlan s e rest →
    exec (.setPageStart p) s = .next (advanced s e 0x00 [BitVec.ofNat 8 (0xB0 + p.toNat)] rest) ∧
    exec (.setColLow l) s = .next (advanced s e 0x00 [BitVec.ofNat 8 l.toNat] rest) ∧
    exec (.setColHigh h) s = .next (advanced s e 0x00 [BitVec.ofNat 8 (0x10 + h.toNat)] rest)

/-- R139: the init-only commands. -/
def Obligations.InitCommandsSent : Prop :=
  ∀ (s : State) (e : Emission) (rest : List WriteAnswer) (v : Byte) (n : BitVec 6), InPlan s e rest →
    ∀ x ∈ [(Instr.setClockDiv v, [0xD5, v]), (.setMultiplex v, [0xA8, v]), (.setDisplayOffset v, [0xD3, v]),
        (.setStartLine n, [BitVec.ofNat 8 (0x40 + n.toNat)]), (.chargePump v, [0x8D, v]),
        (.setAddressingMode v, [0x20, v]), (.segRemap false, [0xA0]), (.segRemap true, [0xA1]),
        (.comScanDir false, [0xC0]), (.comScanDir true, [0xC8]), (.setComPins v, [0xDA, v]),
        (.setPrecharge v, [0xD9, v]), (.setVcomh v, [0xDB, v])],
      exec x.1 s = .next (advanced s e 0x00 x.2 rest)

/-- R59: the two kinds of transaction: a command stream to 0x00, a data stream to 0x40. An empty payload is no
transaction and is refused. -/
def Obligations.TransactionsSent : Prop :=
  ∀ (s : State) (e : Emission) (rest : List WriteAnswer) (data : List Byte), InPlan s e rest →
    (data ≠ [] → exec (.txnCommand data) s = .next (advanced s e 0x00 data rest) ∧
      exec (.txnData data) s = .next (advanced s e 0x40 data rest)) ∧
    exec (.txnCommand []) s = .refused .emptyTransaction ∧ exec (.txnData []) s = .refused .emptyTransaction

/-- R57, R58: what the end of a plan does, whichever transaction is its last: on `ok` the commit of the
operation, on `fail` its abort, and without an answer nothing. That a plan carries its commit is the
model's representation (log 6, log 10). -/
def Obligations.LastTransactionEndsOperation : Prop :=
  ∀ (s : State) (e : Emission) (i : Instr) (control : Byte) (payload : List Byte) (rest : List WriteAnswer),
    s.sequencer = .emitting e → i.format ≠ .req → encode i = control :: payload → payload ≠ [] →
    (s.writeAnswers = .ok :: rest → e.seq + 1 = e.plan.length →
      (∀ d', e.commit = .update d' →
        exec i s = .next (ended s (.opened d') [.twrite control payload .ok] rest .ok)) ∧
      (∀ b a, e.commit = .build b a →
        exec i s = .next (ended s (.opened ⟨[], ⟨0, 0⟩, false, false, .none, b, a, false, false⟩)
          [.twrite control payload .ok] rest .ok)) ∧
      (e.commit = .demolish →
        exec i s = .next { ended s .closed [.twrite control payload .ok, .trelease] rest .ok with handle := false })) ∧
    (s.writeAnswers = .fail :: rest →
      (∀ d d', e.commit = .update d' → s.phase = .opened d →
        exec i s = .next (ended s (.opened { d with gUnknown := true }) [.twrite control payload .fail] rest
          .transportError)) ∧
      (∀ b a, e.commit = .build b a →
        exec i s = .next { ended s s.phase [.twrite control payload .fail, .trelease] rest .transportError with
          handle := false }) ∧
      (e.commit = .demolish →
        exec i s = .next { ended s .closed [.twrite control payload .fail, .trelease] rest .transportError with
          handle := false })) ∧
    (s.writeAnswers = [] → e.seq < e.plan.length → exec i s = .next s)

/-! ## Invariants and whole-machine rules -/

/-- R16, R20, R12, R21 (b), R73: every step keeps the structural invariant: cursor on the panel, framebuffer canonical
and inside `FB_LEN`, `seq` inside its plan, handle held exactly while `Open` or while an operation is in progress (a
`construct` from its `TOpen` on, answered or not). What stands for an operation in progress is the model's choice
(log 6, log 7). -/
def Obligations.StepKeepsWellFormed : Prop :=
  ∀ s t : State, s.wf = true → step s = .next t → t.wf = true

/-- R33: no step of a well-formed state faults: an index outside the framebuffer "cannot occur". -/
def Obligations.WellFormedNeverFaults : Prop :=
  ∀ (s : State) (f : Fault), s.wf = true → step s ≠ .fault f

/-- R73: every step keeps the trace bracketed: `Open` and `Release` alternate, writes lie only between an
acknowledged `Open` and the next `Release`, and the trace stands there exactly while the handle is held, but for a
`TOpen` without an answer, whose event is not in the trace yet (the model's choice, log 7). -/
def Obligations.StepKeepsTraceBracketed : Prop :=
  ∀ s t : State, s.wf = true → s.bracketed = true → step s = .next t → t.bracketed = true

/-- R116: every step keeps the scroll order: while the shadow can be trusted, no activate command follows an
activate without a deactivate between, and the last of them activated exactly if `scrolling ≠ none`. -/
def Obligations.StepKeepsScrollOrder : Prop :=
  ∀ s t : State, s.wf = true → s.scrollOrdered = true → step s = .next t → t.scrollOrdered = true

/-- R7, R10, R35: no step changes the configuration or rewrites `trace`, and the inputs are only ever consumed
from the front. -/
def Obligations.StepOnlyExtendsTrace : Prop :=
  ∀ s t : State, step s = .next t →
    t.cfg = s.cfg ∧ (∃ evs, t.trace = s.trace ++ evs) ∧ t.requests <:+ s.requests ∧
    t.openAnswers <:+ s.openAnswers ∧ t.writeAnswers <:+ s.writeAnswers

/-- R21, R153, R176: the ghost flags are sticky for the life of a driver. -/
def Obligations.GhostFlagsSticky : Prop :=
  ∀ (s t : State) (d d' : Driver), s.wf = true → step s = .next t → s.phase = .opened d → t.phase = .opened d' →
    (d.gUnknown = true → d'.gUnknown = true) ∧ (d.gDrawn = true → d'.gDrawn = true) ∧
    d'.busId = d.busId ∧ d'.devAddr = d.devAddr

/-- R24, R34: the observation port answers between operations in phase `Open` and shows the shadow state; in
phase `Closed` it gives nothing (its silence during an operation is the model's choice, log 16). -/
def Obligations.ObservationShowsShadow : Prop :=
  ∀ s : State, (s.phase = .closed → observe s = none) ∧
    (∀ d, s.phase = .opened d → s.sequencer = .idle →
      ∃ o, observe s = some o ∧ o.cur = d.cur ∧ o.inverted = d.inverted ∧ o.dimmed = d.dimmed ∧
        o.scrolling = d.scrolling ∧ o.fb.length = s.cfg.pages * s.cfg.columns ∧
        ∀ i < s.cfg.pages * s.cfg.columns, o.fb[i]? = some (d.fb.read i))

/-- R40, R41, R58: an operation that hung, at its `TOpen` or at a write, and then gets its answers ends exactly as if
the Transport had answered at once: its transactions go out in order, and it commits or aborts alike (the
two ways of stepping, and the event of a late `TOpen` coming with its answer, are the model's choice, log 6, log 7). -/
def Obligations.ResumedOperationEndsAlike : Prop :=
  ∀ (s t u : State) (i : Instr) (openNow openLater : List OpenAnswer) (now later : List WriteAnswer),
    s.wf = true → i.format = .req →
    exec i { s with openAnswers := openNow ++ openLater, writeAnswers := now ++ later } = .next t →
    t.sequencer = .idle →
    exec i { s with openAnswers := openNow, writeAnswers := now } = .next u → u.sequencer ≠ .idle →
    ∃ n, Host.Core.run core n
      { u with openAnswers := u.openAnswers ++ openLater, writeAnswers := u.writeAnswers ++ later } = .next t

/-- R46 (with the device's pointer rule, general knowledge G2; log 18): a successful `clear` or `draw` makes the
shadow a mirror of the panel, whatever the panel held inside the display, and puts its pointer at the
shadow cursor. That an earlier transaction answered `fail` is replayed as having no effect is the model's
choice (log 21). -/
def Obligations.FlushMakesMirror : Prop :=
  ∀ (s t : State) (p : Panel) (d' : Driver) (i : Instr), s.wf = true → exec i s = .next t →
    (i = .clear ∨ ∃ bitmap, i = .draw bitmap) → t.sequencer = .idle → t.response = some .ok →
    t.phase = .opened d' →
    (p.replay s.cfg s.trace).ram.wf = true → (p.replay s.cfg s.trace).ram.below s.cfg.fbLen = true →
    (p.replay s.cfg t.trace).mirrors d' = true

/-- R46 (with the device's pointer rule, general knowledge G2; log 18): every operation that ends with
`g_unknown` false keeps the shadow a mirror of the panel, pointer included. The premise that the shadow was one
replays an earlier transaction answered `fail` as having no effect, the model's choice (log 21). -/
def Obligations.OperationsKeepMirror : Prop :=
  ∀ (s t : State) (p : Panel) (d d' : Driver) (i : Instr), s.wf = true → exec i s = .next t → i.format = .req →
    t.sequencer = .idle → s.phase = .opened d → t.phase = .opened d' → d'.gUnknown = false →
    (p.replay s.cfg s.trace).mirrors d = true → (p.replay s.cfg t.trace).mirrors d' = true
end

