-- ==== Sys2Proof/Laws/State.lean ====
section
/-! SUPPORT. One lemma per field per update of State, and the shape of what an operation's end leaves. -/

namespace Sys2Proof.Machine

/-! ## `respond` -/

@[simp] theorem respond_cfg (s : State) (r : Response) : (s.respond r).cfg = s.cfg := rfl
@[simp] theorem respond_phase (s : State) (r : Response) : (s.respond r).phase = s.phase := rfl
@[simp] theorem respond_handle (s : State) (r : Response) : (s.respond r).handle = s.handle := rfl
@[simp] theorem respond_sequencer (s : State) (r : Response) : (s.respond r).sequencer = .idle := rfl
@[simp] theorem respond_req (s : State) (r : Response) : (s.respond r).req = none := rfl
@[simp] theorem respond_response (s : State) (r : Response) : (s.respond r).response = some r := rfl
@[simp] theorem respond_trace (s : State) (r : Response) : (s.respond r).trace = s.trace := rfl
@[simp] theorem respond_requests (s : State) (r : Response) : (s.respond r).requests = s.requests := rfl
@[simp] theorem respond_openAnswers (s : State) (r : Response) : (s.respond r).openAnswers = s.openAnswers := rfl
@[simp] theorem respond_writeAnswers (s : State) (r : Response) : (s.respond r).writeAnswers = s.writeAnswers := rfl

/-! ## `release` -/

@[simp] theorem release_cfg (s : State) : s.release.cfg = s.cfg := rfl
@[simp] theorem release_phase (s : State) : s.release.phase = s.phase := rfl
@[simp] theorem release_handle (s : State) : s.release.handle = false := rfl
@[simp] theorem release_sequencer (s : State) : s.release.sequencer = s.sequencer := rfl
@[simp] theorem release_req (s : State) : s.release.req = s.req := rfl
@[simp] theorem release_response (s : State) : s.release.response = s.response := rfl
@[simp] theorem release_trace (s : State) : s.release.trace = s.trace ++ [.trelease] := rfl
@[simp] theorem release_requests (s : State) : s.release.requests = s.requests := rfl
@[simp] theorem release_openAnswers (s : State) : s.release.openAnswers = s.openAnswers := rfl
@[simp] theorem release_writeAnswers (s : State) : s.release.writeAnswers = s.writeAnswers := rfl

/-! ## `finish` and `abort`: what every commit leaves alone -/

@[simp] theorem finish_cfg (c : Commit) (s : State) : (finish c s).cfg = s.cfg := by cases c <;> rfl
@[simp] theorem finish_requests (c : Commit) (s : State) : (finish c s).requests = s.requests := by cases c <;> rfl
@[simp] theorem finish_openAnswers (c : Commit) (s : State) : (finish c s).openAnswers = s.openAnswers := by cases c <;> rfl
@[simp] theorem finish_writeAnswers (c : Commit) (s : State) : (finish c s).writeAnswers = s.writeAnswers := by cases c <;> rfl
@[simp] theorem finish_sequencer (c : Commit) (s : State) : (finish c s).sequencer = .idle := by cases c <;> rfl
@[simp] theorem finish_req (c : Commit) (s : State) : (finish c s).req = none := by cases c <;> rfl
@[simp] theorem finish_response (c : Commit) (s : State) : (finish c s).response = some .ok := by cases c <;> rfl
@[simp] theorem abort_cfg (c : Commit) (s : State) : (abort c s).cfg = s.cfg := by
  cases c with
  | build _ _ => rfl
  | demolish => rfl
  | update _ => cases h : s.phase <;> simp [abort, h]
@[simp] theorem abort_requests (c : Commit) (s : State) : (abort c s).requests = s.requests := by
  cases c with
  | build _ _ => rfl
  | demolish => rfl
  | update _ => cases h : s.phase <;> simp [abort, h]
@[simp] theorem abort_openAnswers (c : Commit) (s : State) : (abort c s).openAnswers = s.openAnswers := by
  cases c with
  | build _ _ => rfl
  | demolish => rfl
  | update _ => cases h : s.phase <;> simp [abort, h]
@[simp] theorem abort_writeAnswers (c : Commit) (s : State) : (abort c s).writeAnswers = s.writeAnswers := by
  cases c with
  | build _ _ => rfl
  | demolish => rfl
  | update _ => cases h : s.phase <;> simp [abort, h]
@[simp] theorem abort_sequencer (c : Commit) (s : State) : (abort c s).sequencer = .idle := by
  cases c with
  | build _ _ => rfl
  | demolish => rfl
  | update _ => cases h : s.phase <;> simp [abort, h]
@[simp] theorem abort_req (c : Commit) (s : State) : (abort c s).req = none := by
  cases c with
  | build _ _ => rfl
  | demolish => rfl
  | update _ => cases h : s.phase <;> simp [abort, h]
@[simp] theorem abort_response (c : Commit) (s : State) : (abort c s).response = some .transportError := by
  cases c with
  | build _ _ => rfl
  | demolish => rfl
  | update _ => cases h : s.phase <;> simp [abort, h]

/-! ## Driver updates -/

@[simp] theorem markDrawn_fb (d : Driver) : d.markDrawn.fb = d.fb := rfl
@[simp] theorem markDrawn_cur (d : Driver) : d.markDrawn.cur = d.cur := rfl
@[simp] theorem markDrawn_inverted (d : Driver) : d.markDrawn.inverted = d.inverted := rfl
@[simp] theorem markDrawn_dimmed (d : Driver) : d.markDrawn.dimmed = d.dimmed := rfl
@[simp] theorem markDrawn_scrolling (d : Driver) : d.markDrawn.scrolling = d.scrolling := rfl
@[simp] theorem markDrawn_busId (d : Driver) : d.markDrawn.busId = d.busId := rfl
@[simp] theorem markDrawn_devAddr (d : Driver) : d.markDrawn.devAddr = d.devAddr := rfl
@[simp] theorem markDrawn_gUnknown (d : Driver) : d.markDrawn.gUnknown = d.gUnknown := rfl
@[simp] theorem markDrawn_gDrawn (d : Driver) : d.markDrawn.gDrawn = (d.gDrawn || d.scrollActive) := rfl

/-- A non-empty text marks as `clear` and `draw` do, an empty one not at all (R91, R176). -/
theorem markWritten_eq (d : Driver) (text : List Byte) :
    d.markWritten text = { d with gDrawn := d.gDrawn || (text != [] && d.scrollActive) } := by
  cases text with
  | nil => simp [Driver.markWritten]
  | cons ch text => rfl

end Sys2Proof.Machine
end

