-- ==== Sys2Proof/Laws/Emit.lean ====
section
/-! SUPPORT. What emitting a plan can do (30_encoding.md R58) and what a sent plan leaves. -/

namespace Sys2Proof.Machine

/-- The events of transactions that were all answered `ok`. -/
def okEvents (ws : List Txn) : List Event := ws.map fun w => .twrite w.control w.data .ok

@[simp] theorem okEvents_nil : okEvents [] = [] := rfl
@[simp] theorem okEvents_cons (w : Txn) (ws : List Txn) :
    okEvents (w :: ws) = .twrite w.control w.data .ok :: okEvents ws := rfl
@[simp] theorem okEvents_append (ws vs : List Txn) : okEvents (ws ++ vs) = okEvents ws ++ okEvents vs := by
  simp [okEvents]
@[simp] theorem length_okEvents (ws : List Txn) : (okEvents ws).length = ws.length := by
  simp [okEvents]

/-- Everything `emit` can do: all of the list answered `ok`; a first `fail` after `ok` answers only; or no
more answers, after `ok` answers only. -/
theorem emit_cases (ws : List Txn) (as : List WriteAnswer) :
    (∃ rest, as = List.replicate ws.length .ok ++ rest ∧ emit ws as = ⟨okEvents ws, rest, false⟩) ∨
    (∃ k w rest, ws[k]? = some w ∧ as = List.replicate k .ok ++ .fail :: rest ∧
      emit ws as = ⟨okEvents (ws.take k) ++ [.twrite w.control w.data .fail], rest, true⟩) ∨
    (∃ k, k < ws.length ∧ as = List.replicate k .ok ∧ emit ws as = ⟨okEvents (ws.take k), [], false⟩) := by
  induction ws generalizing as with
  | nil => exact .inl ⟨as, by simp, rfl⟩
  | cons w ws ih =>
    cases as with
    | nil => exact .inr (.inr ⟨0, by simp, rfl, rfl⟩)
    | cons a as =>
      cases a with
      | fail => exact .inr (.inl ⟨0, w, as, rfl, rfl, rfl⟩)
      | ok =>
        rcases ih as with ⟨rest, h₁, h₂⟩ | ⟨k, w', rest, h₁, h₂, h₃⟩ | ⟨k, h₁, h₂, h₃⟩
        · exact .inl ⟨rest, by simp [h₁, List.replicate_succ], by simp [emit, h₂]⟩
        · exact .inr (.inl ⟨k + 1, w', rest, by simpa using h₁, by simp [h₂, List.replicate_succ],
            by simp [emit, h₃]⟩)
        · exact .inr (.inr ⟨k + 1, by simpa using h₁, by simp [h₂, List.replicate_succ], by simp [emit, h₃]⟩)

theorem emit_ok (ws : List Txn) (rest : List WriteAnswer) :
    emit ws (List.replicate ws.length .ok ++ rest) = ⟨okEvents ws, rest, false⟩ := by
  induction ws with
  | nil => rfl
  | cons w ws ih => simp [List.replicate_succ, emit, ih]

theorem emit_fail {ws : List Txn} {k : Nat} {w : Txn} (h : ws[k]? = some w) (rest : List WriteAnswer) :
    emit ws (List.replicate k .ok ++ .fail :: rest) =
      ⟨okEvents (ws.take k) ++ [.twrite w.control w.data .fail], rest, true⟩ := by
  induction ws generalizing k with
  | nil => simp at h
  | cons v ws ih =>
    cases k with
    | zero => simp at h; subst h; rfl
    | succ k => simp [List.replicate_succ, emit, ih (by simpa using h)]

theorem emit_hang {ws : List Txn} {k : Nat} (h : k < ws.length) :
    emit ws (List.replicate k .ok) = ⟨okEvents (ws.take k), [], false⟩ := by
  induction ws generalizing k with
  | nil => simp at h
  | cons v ws ih =>
    cases k with
    | zero => rfl
    | succ k => simp [List.replicate_succ, emit, ih (by simpa using h)]

/-- The answers left are the end of the answers given. -/
theorem emit_left_suffix (ws : List Txn) (as : List WriteAnswer) : (emit ws as).left <:+ as := by
  rcases emit_cases ws as with ⟨r, h₁, h₂⟩ | ⟨k, w, r, _, h₁, h₂⟩ | ⟨k, _, h₁, h₂⟩ <;> rw [h₂, h₁]
  · exact ⟨_, rfl⟩
  · exact ⟨List.replicate k .ok ++ [.fail], by simp⟩
  · exact List.nil_suffix

/-! ## `send` -/

/-- The state after some events of a plan, with the answers that are left. -/
def State.sent (s : State) (evs : List Event) (left : List WriteAnswer) : State :=
  { s with trace := s.trace ++ evs, writeAnswers := left }

@[simp] theorem sent_cfg (s : State) (evs left) : (s.sent evs left).cfg = s.cfg := rfl
@[simp] theorem sent_phase (s : State) (evs left) : (s.sent evs left).phase = s.phase := rfl
@[simp] theorem sent_handle (s : State) (evs left) : (s.sent evs left).handle = s.handle := rfl
@[simp] theorem sent_sequencer (s : State) (evs left) : (s.sent evs left).sequencer = s.sequencer := rfl
@[simp] theorem sent_req (s : State) (evs left) : (s.sent evs left).req = s.req := rfl
@[simp] theorem sent_response (s : State) (evs left) : (s.sent evs left).response = s.response := rfl
@[simp] theorem sent_trace (s : State) (evs left) : (s.sent evs left).trace = s.trace ++ evs := rfl
@[simp] theorem sent_requests (s : State) (evs left) : (s.sent evs left).requests = s.requests := rfl
@[simp] theorem sent_openAnswers (s : State) (evs left) : (s.sent evs left).openAnswers = s.openAnswers := rfl
@[simp] theorem sent_writeAnswers (s : State) (evs left) : (s.sent evs left).writeAnswers = left := rfl

/-- Every transaction answered `ok`, and they were the last of the plan: the commit. -/
theorem send_done {e : Emission} {ws : List Txn} {s : State} {rest : List WriteAnswer}
    (ha : s.writeAnswers = List.replicate ws.length .ok ++ rest)
    (hl : e.plan.length ≤ e.seq + ws.length) :
    send e ws s = finish e.commit (s.sent (okEvents ws) rest) := by
  simp [send, ha, emit_ok, hl, State.sent]

/-- Every transaction answered `ok`, with more of the plan to come: still in progress. -/
theorem send_more {e : Emission} {ws : List Txn} {s : State} {rest : List WriteAnswer}
    (ha : s.writeAnswers = List.replicate ws.length .ok ++ rest)
    (hl : e.seq + ws.length < e.plan.length) :
    send e ws s = { s.sent (okEvents ws) rest with
      sequencer := .emitting { e with seq := e.seq + ws.length } } := by
  have : ¬ e.plan.length ≤ e.seq + ws.length := by omega
  simp [send, ha, emit_ok, this, State.sent]

/-- A `fail` after `k` answers `ok`: the abort. -/
theorem send_fail {e : Emission} {ws : List Txn} {s : State} {k : Nat} {w : Txn} {rest : List WriteAnswer}
    (hw : ws[k]? = some w) (ha : s.writeAnswers = List.replicate k .ok ++ .fail :: rest) :
    send e ws s = abort e.commit
      (s.sent (okEvents (ws.take k) ++ [.twrite w.control w.data .fail]) rest) := by
  simp [send, ha, emit_fail hw, State.sent]

/-- No answer after `k` answers `ok`: the operation stays in progress at that transaction (R40). -/
theorem send_hang {e : Emission} {ws : List Txn} {s : State} {k : Nat} (hk : k < ws.length)
    (ha : s.writeAnswers = List.replicate k .ok) (hl : e.seq + k < e.plan.length) :
    send e ws s = { s.sent (okEvents (ws.take k)) [] with
      sequencer := .emitting { e with seq := e.seq + k } } := by
  have h₁ : ¬ e.plan.length ≤ e.seq + k := by omega
  have h₂ : min k ws.length = k := by omega
  simp [send, ha, emit_hang hk, State.sent, h₁, h₂]

/-- Everything sending the transactions `ws` of a plan can do. -/
theorem send_cases (e : Emission) (ws : List Txn) (s : State) :
    (∃ rest, s.writeAnswers = List.replicate ws.length .ok ++ rest ∧ e.plan.length ≤ e.seq + ws.length ∧
      send e ws s = finish e.commit (s.sent (okEvents ws) rest)) ∨
    (∃ k w rest, ws[k]? = some w ∧ s.writeAnswers = List.replicate k .ok ++ .fail :: rest ∧
      send e ws s = abort e.commit
        (s.sent (okEvents (ws.take k) ++ [.twrite w.control w.data .fail]) rest)) ∨
    (∃ k rest, k ≤ ws.length ∧ s.writeAnswers = List.replicate k .ok ++ rest ∧
      (k < ws.length → rest = []) ∧
      e.seq + k < e.plan.length ∧
      send e ws s = { s.sent (okEvents (ws.take k)) rest with
        sequencer := .emitting { e with seq := e.seq + k } }) ∨
    (∃ k, k < ws.length ∧ s.writeAnswers = List.replicate k .ok ∧ e.plan.length ≤ e.seq + k ∧
      send e ws s = finish e.commit (s.sent (okEvents (ws.take k)) [])) := by
  rcases emit_cases ws s.writeAnswers with ⟨rest, h₁, h₂⟩ | ⟨k, w, rest, h₁, h₂, h₃⟩ | ⟨k, h₁, h₂, h₃⟩
  · by_cases hl : e.plan.length ≤ e.seq + ws.length
    · exact .inl ⟨rest, h₁, hl, send_done h₁ hl⟩
    · refine .inr (.inr (.inl ⟨ws.length, rest, le_rfl, h₁, by omega, by omega, ?_⟩))
      rw [send_more h₁ (by omega), List.take_length]
  · exact .inr (.inl ⟨k, w, rest, h₁, h₂, send_fail h₁ h₂⟩)
  · by_cases hl : e.plan.length ≤ e.seq + k
    · refine .inr (.inr (.inr ⟨k, h₁, h₂, hl, ?_⟩))
      have h₄ : min k ws.length = k := by omega
      simp [send, h₃, State.sent, hl, h₄]
    · exact .inr (.inr (.inl ⟨k, [], by omega, by simpa using h₂, fun _ => rfl, by omega,
        send_hang h₁ h₂ (by omega)⟩))

/-- Everything starting a plan can do: commit, abort at a `fail`, or stay in progress where the Transport has
no answer. -/
theorem startPlan_cases (plan : List Txn) (c : Commit) (s : State) :
    (∃ rest, s.writeAnswers = List.replicate plan.length .ok ++ rest ∧
      startPlan plan c s = finish c (s.sent (okEvents plan) rest)) ∨
    (∃ k w rest, plan[k]? = some w ∧ s.writeAnswers = List.replicate k .ok ++ .fail :: rest ∧
      startPlan plan c s = abort c
        (s.sent (okEvents (plan.take k) ++ [.twrite w.control w.data .fail]) rest)) ∨
    (∃ k, k < plan.length ∧ s.writeAnswers = List.replicate k .ok ∧
      startPlan plan c s = { s.sent (okEvents (plan.take k)) [] with
        sequencer := .emitting ⟨plan, k, c⟩ }) := by
  rcases emit_cases plan s.writeAnswers with ⟨rest, h₁, h₂⟩ | ⟨k, w, rest, h₁, h₂, h₃⟩ | ⟨k, h₁, h₂, h₃⟩
  · exact .inl ⟨rest, h₁, send_done h₁ (by simp)⟩
  · exact .inr (.inl ⟨k, w, rest, h₁, h₂, send_fail h₁ h₂⟩)
  · refine .inr (.inr ⟨k, h₁, h₂, ?_⟩)
    rw [startPlan, send_hang h₁ h₂ (by simpa using h₁)]
    simp

/-- Sending leaves the configuration and the host's and the open's inputs alone. -/
@[simp] theorem send_cfg (e : Emission) (ws : List Txn) (s : State) : (send e ws s).cfg = s.cfg := by
  rcases send_cases e ws s with ⟨_, _, _, h⟩ | ⟨_, _, _, _, _, h⟩ | ⟨_, _, _, _, _, _, h⟩ | ⟨_, _, _, _, h⟩ <;>
    simp [h]

@[simp] theorem send_requests (e : Emission) (ws : List Txn) (s : State) :
    (send e ws s).requests = s.requests := by
  rcases send_cases e ws s with ⟨_, _, _, h⟩ | ⟨_, _, _, _, _, h⟩ | ⟨_, _, _, _, _, _, h⟩ | ⟨_, _, _, _, h⟩ <;>
    simp [h]

@[simp] theorem send_openAnswers (e : Emission) (ws : List Txn) (s : State) :
    (send e ws s).openAnswers = s.openAnswers := by
  rcases send_cases e ws s with ⟨_, _, _, h⟩ | ⟨_, _, _, _, _, h⟩ | ⟨_, _, _, _, _, _, h⟩ | ⟨_, _, _, _, h⟩ <;>
    simp [h]

end Sys2Proof.Machine
end

