-- ==== Sys2Proof/Laws/Accept.lean ====
section
/-! SUPPORT. What the acceptance of a request can do (30_encoding.md R56, R57), and what a device command
or transaction can do (R58). -/

namespace Sys2Proof.Machine

/-- An operation of phase `Open` is accepted: its body runs. -/
theorem acceptOpen_ready {s : State} {d : Driver} {k : Driver → State → Result}
    (hv : s.cfg.valid = true) (hi : s.sequencer = .idle) (hp : s.phase = .opened d) :
    acceptOpen s k = k d { s with response := none } := by
  simp [acceptOpen, hv, hi, hp]

/-- `construct` is accepted: its body runs. -/
theorem acceptClosed_ready {s : State} {k : State → Result}
    (hv : s.cfg.valid = true) (hi : s.sequencer = .idle) (hp : s.phase = .closed) :
    acceptClosed s k = k { s with response := none } := by
  simp [acceptClosed, hv, hi, hp]

/-- An accepted operation of phase `Open` met all of R6, R44 and R56. -/
theorem acceptOpen_next {s t : State} {k : Driver → State → Result} (h : acceptOpen s k = .next t) :
    ∃ d, s.cfg.valid = true ∧ s.sequencer = .idle ∧ s.phase = .opened d ∧
      k d { s with response := none } = .next t := by
  unfold acceptOpen at h
  split at h
  · cases h
  · split at h
    · cases h
    · rename_i hv hi
      split at h
      · cases h
      · rename_i d hp
        exact ⟨d, by simpa using hv, by simpa using hi, hp, h⟩

/-- An accepted `construct` met all of R6, R44 and R56. -/
theorem acceptClosed_next {s t : State} {k : State → Result} (h : acceptClosed s k = .next t) :
    s.cfg.valid = true ∧ s.sequencer = .idle ∧ s.phase = .closed ∧
      k { s with response := none } = .next t := by
  unfold acceptClosed at h
  split at h
  · cases h
  · split at h
    · cases h
    · rename_i hv hi
      split at h
      · exact ⟨by simpa using hv, by simpa using hi, ‹_›, h⟩
      · cases h

/-- A device command or transaction runs exactly while a plan is emitted, as one sent transaction. -/
theorem transact_emitting {s : State} {e : Emission} (w : Txn) (h : s.sequencer = .emitting e) :
    transact w s = .next (send e [w] s) := by
  simp [transact, h]

theorem transact_next {s t : State} {w : Txn} (h : transact w s = .next t) :
    ∃ e, s.sequencer = .emitting e ∧ t = send e [w] s := by
  unfold transact at h
  split at h
  · rename_i e he
    cases h
    exact ⟨e, he, rfl⟩
  · cases h
  · cases h

end Sys2Proof.Machine
end

