-- ==== Sys2Proof/Laws/Memory.lean ====
section
/-! SUPPORT. The framebuffer memory: every operation keeps the canonical form, a read after a write, and
two canonical memories that read the same are equal. -/

namespace Sys2Proof.Machine

/-! ## Canonical form, unfolded once -/

theorem wf_cons {a : Nat} {v : Byte} {m : Memory} :
    Memory.wf ((a, v) :: m) = true ↔
      v ≠ Memory.blank ∧ (∀ c ∈ m, a < c.1) ∧ Memory.wf m = true := by
  simp [Memory.wf, and_assoc]

theorem below_iff {m : Memory} {n : Nat} : m.below n = true ↔ ∀ c ∈ m, c.1 < n := by
  simp [Memory.below]

/-- An index before every listed one reads as blank. -/
theorem read_of_lt {m : Memory} {a : Nat} (h : ∀ c ∈ m, a < c.1) : m.read a = Memory.blank := by
  induction m with
  | nil => rfl
  | cons c m ih =>
    have hc := h c (by simp)
    have : ¬ a = c.1 := by omega
    simp only [Memory.read, this, if_false]
    exact ih fun c' hc' => h c' (by simp [hc'])

/-- An index at or past the bound reads as blank. -/
theorem read_of_below {m : Memory} {n a : Nat} (h : m.below n = true) (ha : n ≤ a) :
    m.read a = Memory.blank := by
  rw [below_iff] at h
  induction m with
  | nil => rfl
  | cons c m ih =>
    have hc := h c (by simp)
    have : ¬ a = c.1 := by omega
    simp only [Memory.read, this, if_false]
    exact ih fun c' hc' => h c' (by simp [hc'])

/-! ## Write -/

theorem mem_write {m : Memory} {a : Nat} {v : Byte} {c : Host.Cell} (h : c ∈ m.write a v) :
    c = (a, v) ∨ c ∈ m := by
  induction m with
  | nil => unfold Memory.write at h; split at h <;> simp_all
  | cons x m ih =>
    unfold Memory.write at h
    split at h
    · split at h <;> simp_all
    · split at h
      · split at h
        · simp [h]
        · rcases List.mem_cons.1 h with h | h <;> simp [h]
      · rcases List.mem_cons.1 h with h | h
        · simp [h]
        · rcases ih h with h | h <;> simp [h]

theorem write_wf {m : Memory} (a : Nat) (v : Byte) (h : m.wf = true) : (m.write a v).wf = true := by
  induction m with
  | nil => unfold Memory.write; split <;> simp_all [Memory.wf]
  | cons x m ih =>
    obtain ⟨b, w⟩ := x
    obtain ⟨hw, hlt, hm⟩ := wf_cons.1 h
    unfold Memory.write
    split
    · rename_i hab
      split
      · exact h
      · refine wf_cons.2 ⟨‹_›, ?_, h⟩
        intro c hc
        rcases List.mem_cons.1 hc with rfl | hc
        · exact hab
        · have := hlt c hc; omega
    · split
      · rename_i hab; subst hab
        split
        · exact hm
        · exact wf_cons.2 ⟨‹_›, hlt, hm⟩
      · refine wf_cons.2 ⟨hw, ?_, ih hm⟩
        intro c hc
        rcases mem_write hc with rfl | hc
        · show b < a; omega
        · exact hlt c hc

theorem write_below {m : Memory} {n a : Nat} {v : Byte} (h : m.below n = true) (ha : a < n) :
    (m.write a v).below n = true := by
  rw [below_iff] at h ⊢
  intro c hc
  rcases mem_write hc with rfl | hc
  · exact ha
  · exact h c hc

theorem read_write_same {m : Memory} (a : Nat) (v : Byte) (h : m.wf = true) :
    (m.write a v).read a = v := by
  induction m with
  | nil => unfold Memory.write; split <;> simp_all [Memory.read]
  | cons x m ih =>
    obtain ⟨b, w⟩ := x
    obtain ⟨hw, hlt, hm⟩ := wf_cons.1 h
    unfold Memory.write
    split
    · rename_i hab
      split
      · rename_i hv
        rw [hv]
        refine read_of_lt fun c hc => ?_
        rcases List.mem_cons.1 hc with rfl | hc
        · exact hab
        · have := hlt c hc; omega
      · simp [Memory.read]
    · split
      · rename_i hab; subst hab
        split
        · rename_i hv; rw [hv]; exact read_of_lt hlt
        · simp [Memory.read]
      · rename_i hab
        simp only [Memory.read, hab, if_false]
        exact ih hm

theorem read_write_other {m : Memory} {a b : Nat} (v : Byte) (hab : b ≠ a) :
    (m.write a v).read b = m.read b := by
  induction m with
  | nil => unfold Memory.write; split <;> simp_all [Memory.read]
  | cons x m ih =>
    obtain ⟨c, w⟩ := x
    unfold Memory.write
    split
    · split
      · rfl
      · simp [Memory.read, hab]
    · split
      · rename_i hac; subst hac
        split <;> simp [Memory.read, hab]
      · by_cases hbc : b = c
        · simp [Memory.read, hbc]
        · simp only [Memory.read, hbc, if_false]; exact ih

/-! ## A whole buffer -/

theorem mem_ofBytesAt {vs : List Byte} {a : Nat} {c : Host.Cell} (h : c ∈ Memory.ofBytesAt a vs) :
    a ≤ c.1 ∧ c.1 < a + vs.length := by
  induction vs generalizing a with
  | nil => simp [Memory.ofBytesAt] at h
  | cons v vs ih =>
    unfold Memory.ofBytesAt at h
    simp only [List.length_cons]
    split at h
    · have := ih h; omega
    · rcases List.mem_cons.1 h with rfl | h
      · simp
      · have := ih h; omega

theorem ofBytesAt_wf (a : Nat) (vs : List Byte) : (Memory.ofBytesAt a vs).wf = true := by
  induction vs generalizing a with
  | nil => rfl
  | cons v vs ih =>
    unfold Memory.ofBytesAt
    split
    · exact ih _
    · exact wf_cons.2 ⟨‹_›, fun c hc => by have := mem_ofBytesAt hc; omega, ih _⟩

theorem ofBytes_wf (vs : List Byte) : (Memory.ofBytes vs).wf = true := ofBytesAt_wf 0 vs

theorem ofBytes_below (vs : List Byte) : (Memory.ofBytes vs).below vs.length = true :=
  below_iff.2 fun _ hc => by have := mem_ofBytesAt hc; omega

theorem read_ofBytesAt (a i : Nat) (vs : List Byte) :
    (Memory.ofBytesAt a vs).read (a + i) = vs.getD i Memory.blank := by
  induction vs generalizing a i with
  | nil => rfl
  | cons v vs ih =>
    cases i with
    | zero =>
      unfold Memory.ofBytesAt
      split
      · rename_i hv
        rw [read_of_lt fun c hc => by have := mem_ofBytesAt hc; omega]
        simp [hv]
      · simp [Memory.read]
    | succ i =>
      have h := ih (a + 1) i
      have e : a + (i + 1) = a + 1 + i := by omega
      unfold Memory.ofBytesAt
      split
      · rw [e, h]; simp
      · have : ¬ a + 1 + i = a := by omega
        rw [e]
        simp only [Memory.read, this, if_false]
        rw [h]; simp

theorem read_ofBytes (i : Nat) (vs : List Byte) :
    (Memory.ofBytes vs).read i = vs.getD i Memory.blank := by
  have := read_ofBytesAt 0 i vs
  rwa [Nat.zero_add] at this

theorem bytes_ofBytes (vs : List Byte) : (Memory.ofBytes vs).bytes vs.length = vs := by
  apply List.ext_getElem
  · simp [Memory.bytes]
  · intro i h₁ h₂
    simp [Memory.bytes, read_ofBytes, List.getD, List.getElem?_eq_getElem h₂]

/-! ## Extensionality -/

/-- Two canonical memories that read the same at every index are equal data. -/
theorem memory_ext {m₁ m₂ : Memory} (h₁ : m₁.wf = true) (h₂ : m₂.wf = true)
    (h : ∀ a, m₁.read a = m₂.read a) : m₁ = m₂ := by
  induction m₁ generalizing m₂ with
  | nil =>
    cases m₂ with
    | nil => rfl
    | cons c m₂ =>
      have := h c.1
      simp only [Memory.read, if_true] at this
      exact absurd this.symm (wf_cons.1 h₂).1
  | cons c m₁ ih =>
    obtain ⟨a, v⟩ := c
    cases m₂ with
    | nil =>
      have := h a
      simp only [Memory.read, if_true] at this
      exact absurd this (wf_cons.1 h₁).1
    | cons c' m₂ =>
      obtain ⟨b, w⟩ := c'
      obtain ⟨hv, hlt₁, hm₁⟩ := wf_cons.1 h₁
      obtain ⟨hw, hlt₂, hm₂⟩ := wf_cons.1 h₂
      have ha := h a
      have hb := h b
      simp only [Memory.read, if_true] at ha hb
      have hab : a = b := by
        rcases Nat.lt_trichotomy a b with hl | hl | hl
        · rw [if_neg (by omega), read_of_lt fun c hc => by have := hlt₂ c hc; omega] at ha
          exact absurd ha hv
        · exact hl
        · rw [if_neg (by omega), read_of_lt fun c hc => by have := hlt₁ c hc; omega] at hb
          exact absurd hb.symm hw
      subst hab
      rw [if_pos rfl] at ha
      subst ha
      congr 1
      refine ih hm₁ hm₂ fun x => ?_
      by_cases hx : x = a
      · subst hx; rw [read_of_lt hlt₁, read_of_lt hlt₂]
      · have := h x
        simpa only [Memory.read, hx, if_false] using this

/-! ## Stores of several bytes -/

/-- `storeBytes` inside the bound: it succeeds, keeps the canonical form and the bound, and changes
exactly the indices it stores to. -/
theorem storeBytes_ok {limit : Nat} {vs : List Byte} {m : Memory} {i : Nat}
    (hm : m.wf = true) (hb : m.below limit = true) (hi : i + vs.length ≤ limit) :
    ∃ m', storeBytes limit m i vs = .ok m' ∧ m'.wf = true ∧ m'.below limit = true ∧
      ∀ a, m'.read a = if i ≤ a ∧ a < i + vs.length then vs.getD (a - i) Memory.blank else m.read a := by
  induction vs generalizing m i with
  | nil =>
    refine ⟨m, rfl, hm, hb, fun a => ?_⟩
    rw [if_neg]
    simp only [List.length_nil]
    omega
  | cons v vs ih =>
    simp only [List.length_cons] at hi
    have hlt : i < limit := by omega
    obtain ⟨m', e, hw, hbel, hr⟩ := ih (write_wf i v hm) (write_below hb hlt) (i := i + 1) (by omega)
    refine ⟨m', ?_, hw, hbel, fun a => ?_⟩
    · simp only [storeBytes, storeByte, hlt, if_true]; exact e
    · rw [hr a]
      simp only [List.length_cons]
      by_cases ha : a = i
      · subst ha
        rw [if_neg (by omega), if_pos (by omega), read_write_same _ _ hm]
        simp
      · rw [read_write_other _ ha]
        by_cases h : i + 1 ≤ a ∧ a < i + 1 + vs.length
        · rw [if_pos h, if_pos (by omega)]
          obtain ⟨k, rfl⟩ : ∃ k, a = i + 1 + k := ⟨a - (i + 1), by omega⟩
          have e₁ : i + 1 + k - (i + 1) = k := by omega
          have e₂ : i + 1 + k - i = k + 1 := by omega
          rw [e₁, e₂]; simp
        · rw [if_neg h, if_neg (by omega)]

end Sys2Proof.Machine
end

