-- ==== Sys2Proof/Laws/Config.lean ====
section
/-! SUPPORT. What a valid configuration gives (00_scope.md R6). -/

namespace Sys2Proof.Machine

/-- The constraints of R6 as one conjunction. -/
theorem valid_iff {cfg : Config} : cfg.valid = true ↔
    1 ≤ cfg.pages ∧ cfg.pages ≤ 8 ∧ 1 ≤ cfg.columns ∧ cfg.columns ≤ 128 ∧ 1 ≤ cfg.glyphW ∧
    cfg.cellW ≤ cfg.columns ∧ fontSorted cfg.font = true ∧
    (∀ g ∈ cfg.font, g.2.length = cfg.glyphW) ∧ cfg.fallbackGlyph.length = cfg.glyphW ∧
    (∀ c ∈ cfg.initSeq, c ≠ []) := by
  simp only [Config.valid, Bool.and_eq_true, decide_eq_true_eq, List.all_eq_true, beq_iff_eq, bne_iff_ne,
    and_assoc]

theorem fontGlyph_mem {font : List (Byte × List Byte)} {ch : Byte} {g : List Byte}
    (h : fontGlyph font ch = some g) : (ch, g) ∈ font := by
  induction font with
  | nil => cases h
  | cons x font ih =>
    obtain ⟨code, g'⟩ := x
    unfold fontGlyph at h
    split at h
    · rename_i hc
      cases h; subst hc; simp
    · exact List.mem_cons_of_mem _ (ih h)

/-- A glyph has `GLYPH_W` bytes (R92). -/
theorem glyph_length {cfg : Config} (h : cfg.valid = true) (ch : Byte) :
    (glyph cfg ch).length = cfg.glyphW := by
  obtain ⟨-, -, -, -, -, -, -, hf, hb, -⟩ := valid_iff.1 h
  unfold glyph
  cases hg : fontGlyph cfg.font ch with
  | none => exact hb
  | some g => exact hf _ (fontGlyph_mem hg)

/-- A cell has `CELL_W` bytes (R92). -/
theorem cell_length {cfg : Config} (h : cfg.valid = true) (ch : Byte) :
    (cell cfg ch).length = cfg.cellW := by
  simp [cell, glyph_length h, Config.cellW]

theorem cell_ne_nil (cfg : Config) (ch : Byte) : cell cfg ch ≠ [] := by
  simp [cell]

theorem cursor_valid_iff {cfg : Config} {c : Cursor} :
    c.valid cfg = true ↔ c.page < cfg.pages ∧ c.column < cfg.columns := by
  simp [Cursor.valid]

/-- A run of `n` bytes from a position of a page lies inside the framebuffer (R33). -/
theorem idx_add_le {cfg : Config} {p c n : Nat} (hp : p < cfg.pages) (hc : c + n ≤ cfg.columns) :
    idx cfg p c + n ≤ cfg.fbLen := by
  unfold idx Config.fbLen
  have : (p + 1) * cfg.columns ≤ cfg.pages * cfg.columns := Nat.mul_le_mul_right _ hp
  rw [Nat.add_mul, Nat.one_mul] at this
  omega

end Sys2Proof.Machine
end

