-- ==== Sys2Proof/Laws/Exec.lean ====
section
/-! SUPPORT. What an operation and a step can do, said once: the inversion lemmas the statements' proofs
start from, in place of unfolding `exec` and `step`. -/

namespace Sys2Proof.Machine

/-! ## The operations of phase `Open` -/

/-- The direction and the page range of a `startscroll*`. -/
def scrollOperands : Instr → Option (Scroll × Byte × Byte)
  | .startscrollright sp ep => some (.right, sp, ep)
  | .startscrollleft sp ep => some (.left, sp, ep)
  | .startscrolldiagleft sp ep => some (.diagLeft, sp, ep)
  | .startscrolldiagright sp ep => some (.diagRight, sp, ep)
  | _ => none

/-- An operation of phase `Open` whose checks pass: the driver after its plan step, the driver it
commits, and its plan. -/
inductive OpRun (cfg : Config) (d : Driver) : Instr → Driver → Driver → List Txn → Prop where
  | clear : OpRun cfg d .clear d.markDrawn { d.markDrawn with fb := Memory.ofBytes (zeros cfg.fbLen) }
      (flushPlan cfg (zeros cfg.fbLen) d.cur)
  | draw (bitmap : List Byte) (h : bitmap.length = cfg.fbLen) :
      OpRun cfg d (.draw bitmap) d.markDrawn { d.markDrawn with fb := Memory.ofBytes bitmap }
        (flushPlan cfg bitmap d.cur)
  | setCursor (page column : Byte) (h : (cursorOf page column).valid cfg = true) :
      OpRun cfg d (.setCursor page column) d { d with cur := cursorOf page column }
        (cursorTriple page.toNat column.toNat)
  | write (text : List Byte) (r : Render) (h : renderText cfg ⟨d.fb, d.cur, []⟩ text = .ok r) :
      OpRun cfg d (.write text) (d.markWritten text)
        { d.markWritten text with fb := r.fb, cur := r.cur } r.plan
  | invert (enable : Bool) :
      OpRun cfg d (.invert enable) d (d.setInverted enable)
        [txnOf (if enable then .inverseDisplay else .normalDisplay)]
  | dim (enable : Bool) :
      OpRun cfg d (.dim enable) d (d.setDimmed enable)
        [txnOf (.setContrast (if enable then cfg.contrastDim else cfg.contrastNormal))]
  | startscroll (i : Instr) (dir : Scroll) (sp ep : Byte) (hi : scrollOperands i = some (dir, sp, ep))
      (h : scrollRangeOk cfg sp ep = true) :
      OpRun cfg d i d (d.setScrolling dir) (scrollPlan cfg d.scrollActive dir sp ep)
  | stopscroll : OpRun cfg d .stopscroll d (d.setScrolling .none) [txnOf .scrollDeactivate]

/-- An operation of phase `Open` whose argument check fails, and its error (R151). -/
inductive OpError (cfg : Config) : Instr → Response → Prop where
  | draw (bitmap : List Byte) (h : bitmap.length ≠ cfg.fbLen) :
      OpError cfg (.draw bitmap) .invalidArgumentError
  | setCursor (page column : Byte) (h : (cursorOf page column).valid cfg = false) :
      OpError cfg (.setCursor page column) .outOfRangeError
  | startscroll (i : Instr) (dir : Scroll) (sp ep : Byte) (hi : scrollOperands i = some (dir, sp, ep))
      (h : scrollRangeOk cfg sp ep = false) : OpError cfg i .outOfRangeError

/-- The state an accepted operation of phase `Open` starts its plan in. -/
def State.starting (s : State) (d : Driver) : State := { s with response := none, phase := .opened d }

@[simp] theorem starting_cfg (s : State) (d) : (s.starting d).cfg = s.cfg := rfl
@[simp] theorem starting_phase (s : State) (d) : (s.starting d).phase = .opened d := rfl
@[simp] theorem starting_handle (s : State) (d) : (s.starting d).handle = s.handle := rfl
@[simp] theorem starting_sequencer (s : State) (d) : (s.starting d).sequencer = s.sequencer := rfl
@[simp] theorem starting_req (s : State) (d) : (s.starting d).req = s.req := rfl
@[simp] theorem starting_response (s : State) (d) : (s.starting d).response = none := rfl
@[simp] theorem starting_trace (s : State) (d) : (s.starting d).trace = s.trace := rfl
@[simp] theorem starting_requests (s : State) (d) : (s.starting d).requests = s.requests := rfl
@[simp] theorem starting_openAnswers (s : State) (d) : (s.starting d).openAnswers = s.openAnswers := rfl
@[simp] theorem starting_writeAnswers (s : State) (d) : (s.starting d).writeAnswers = s.writeAnswers := rfl

theorem startScroll_next {dir : Scroll} {sp ep : Byte} {s t : State} {i : Instr}
    (hi : scrollOperands i = some (dir, sp, ep)) (h : startScroll dir sp ep s = .next t) :
    ∃ d, s.cfg.valid = true ∧ s.sequencer = .idle ∧ s.phase = .opened d ∧
      ((∃ d₁ d' plan, OpRun s.cfg d i d₁ d' plan ∧ t = startPlan plan (.update d') (s.starting d₁)) ∨
       (∃ r, OpError s.cfg i r ∧ t = (s.starting d).respond r)) := by
  unfold startScroll at h
  obtain ⟨d, hv, hs, hp, h⟩ := acceptOpen_next h
  refine ⟨d, hv, hs, hp, ?_⟩
  by_cases hr : scrollRangeOk s.cfg sp ep = true
  · rw [if_pos hr] at h
    cases h
    exact .inl ⟨_, _, _, .startscroll i dir sp ep hi hr, rfl⟩
  · rw [if_neg hr] at h
    cases h
    exact .inr ⟨_, .startscroll i dir sp ep hi (by simpa using hr), by simp [State.starting, hp]⟩

/-- Everything an accepted operation of phase `Open` other than `teardown` can do: its plan is started
(`OpRun`), or its argument check fails (`OpError`). -/
theorem exec_open_next {i : Instr} {s t : State} (h : exec i s = .next t) (hf : i.format = .req)
    (hc : ∀ b a, i ≠ .construct b a) (ht : i ≠ .teardown) :
    ∃ d, s.cfg.valid = true ∧ s.sequencer = .idle ∧ s.phase = .opened d ∧
      ((∃ d₁ d' plan, OpRun s.cfg d i d₁ d' plan ∧ t = startPlan plan (.update d') (s.starting d₁)) ∨
       (∃ r, OpError s.cfg i r ∧ t = (s.starting d).respond r)) := by
  cases i with
  | construct b a => exact absurd rfl (hc b a)
  | teardown => exact absurd rfl ht
  | clear =>
    replace h : execClear s = .next t := h
    unfold execClear at h
    obtain ⟨d, hv, hs, hp, h⟩ := acceptOpen_next h
    cases h
    exact ⟨d, hv, hs, hp, .inl ⟨_, _, _, .clear, rfl⟩⟩
  | draw bitmap =>
    replace h : execDraw bitmap s = .next t := h
    unfold execDraw at h
    obtain ⟨d, hv, hs, hp, h⟩ := acceptOpen_next h
    refine ⟨d, hv, hs, hp, ?_⟩
    by_cases hl : bitmap.length = s.cfg.fbLen
    · simp only [hl, ne_eq, not_true, if_false] at h
      cases h
      exact .inl ⟨_, _, _, .draw bitmap hl, rfl⟩
    · simp only [hl, ne_eq, not_false_iff, if_true] at h
      cases h
      exact .inr ⟨_, .draw bitmap hl, by simp [State.starting, hp]⟩
  | setCursor page column =>
    replace h : execSetCursor page column s = .next t := h
    unfold execSetCursor at h
    obtain ⟨d, hv, hs, hp, h⟩ := acceptOpen_next h
    refine ⟨d, hv, hs, hp, ?_⟩
    by_cases hl : (cursorOf page column).valid s.cfg = true
    · rw [if_pos hl] at h
      cases h
      exact .inl ⟨_, _, _, .setCursor page column hl, by simp [startPlan, State.starting]⟩
    · rw [if_neg hl] at h
      cases h
      exact .inr ⟨_, .setCursor page column (by simpa using hl), by simp [State.starting, hp]⟩
  | write text =>
    replace h : execWrite text s = .next t := h
    unfold execWrite at h
    obtain ⟨d, hv, hs, hp, h⟩ := acceptOpen_next h
    refine ⟨d, hv, hs, hp, .inl ?_⟩
    simp only at h
    split at h
    · cases h
    · rename_i r hr
      cases h
      exact ⟨_, _, _, .write text r hr, rfl⟩
  | invert enable =>
    replace h : execInvert enable s = .next t := h
    unfold execInvert at h
    obtain ⟨d, hv, hs, hp, h⟩ := acceptOpen_next h
    cases h
    exact ⟨d, hv, hs, hp, .inl ⟨_, _, _, .invert enable, rfl⟩⟩
  | dim enable =>
    replace h : execDim enable s = .next t := h
    unfold execDim at h
    obtain ⟨d, hv, hs, hp, h⟩ := acceptOpen_next h
    cases h
    exact ⟨d, hv, hs, hp, .inl ⟨_, _, _, .dim enable, rfl⟩⟩
  | startscrollright sp ep => exact startScroll_next rfl h
  | startscrollleft sp ep => exact startScroll_next rfl h
  | startscrolldiagleft sp ep => exact startScroll_next rfl h
  | startscrolldiagright sp ep => exact startScroll_next rfl h
  | stopscroll =>
    replace h : execStopscroll s = .next t := h
    unfold execStopscroll at h
    obtain ⟨d, hv, hs, hp, h⟩ := acceptOpen_next h
    cases h
    exact ⟨d, hv, hs, hp, .inl ⟨_, _, _, .stopscroll, rfl⟩⟩
  | _ => cases hf

/-- An operation of phase `Open` whose checks pass, accepted: its plan is started. -/
theorem exec_of_opRun {i : Instr} {s : State} {d d₁ d' : Driver} {plan : List Txn}
    (hv : s.cfg.valid = true) (hs : s.sequencer = .idle) (hp : s.phase = .opened d)
    (h : OpRun s.cfg d i d₁ d' plan) :
    exec i s = .next (startPlan plan (.update d') (s.starting d₁)) := by
  cases h with
  | clear => exact acceptOpen_ready hv hs hp
  | draw bitmap hl =>
    show execDraw bitmap s = _
    rw [execDraw, acceptOpen_ready hv hs hp]
    simp only [hl, ne_eq, not_true, if_false]
    rfl
  | setCursor page column hl =>
    show execSetCursor page column s = _
    rw [execSetCursor, acceptOpen_ready hv hs hp]
    rw [if_pos hl]
    rfl
  | write text r hr =>
    show execWrite text s = _
    rw [execWrite, acceptOpen_ready hv hs hp]
    simp only [hr]
    rfl
  | invert enable => exact acceptOpen_ready hv hs hp
  | dim enable => exact acceptOpen_ready hv hs hp
  | startscroll i dir sp ep hi hr =>
    have : startScroll dir sp ep s =
        .next (startPlan (scrollPlan s.cfg d.scrollActive dir sp ep) (.update (d.setScrolling dir))
          (s.starting d)) := by
      rw [startScroll, acceptOpen_ready hv hs hp]
      rw [if_pos hr]
      rfl
    cases i <;> simp only [scrollOperands, Option.some.injEq, Prod.mk.injEq, reduceCtorEq] at hi <;>
      (obtain ⟨rfl, rfl, rfl⟩ := hi; exact this)
  | stopscroll => exact acceptOpen_ready hv hs hp

/-- An operation of phase `Open` whose check fails, accepted: the error response and nothing else. -/
theorem exec_of_opError {i : Instr} {s : State} {d : Driver} {r : Response}
    (hv : s.cfg.valid = true) (hs : s.sequencer = .idle) (hp : s.phase = .opened d)
    (h : OpError s.cfg i r) : exec i s = .next ((s.starting d).respond r) := by
  have e : ({ s with response := none } : State).respond r = (s.starting d).respond r := by
    simp [State.starting, State.respond, hp]
  cases h with
  | draw bitmap hl =>
    show execDraw bitmap s = _
    rw [execDraw, acceptOpen_ready hv hs hp]
    simp only [hl, ne_eq, not_false_iff, if_true, raise]
    rw [e]
  | setCursor page column hl =>
    show execSetCursor page column s = _
    rw [execSetCursor, acceptOpen_ready hv hs hp]
    simp only [hl, raise]
    rw [e]; rfl
  | startscroll i dir sp ep hi hr =>
    have : startScroll dir sp ep s = .next ((s.starting d).respond .outOfRangeError) := by
      rw [startScroll, acceptOpen_ready hv hs hp]
      simp only [hr, raise]
      rw [e]; rfl
    cases i <;> simp only [scrollOperands, Option.some.injEq, Prod.mk.injEq, reduceCtorEq] at hi <;>
      (obtain ⟨rfl, rfl, rfl⟩ := hi; exact this)

/-! ## `teardown` and `construct` -/

/-- The plan of a `teardown` (R71). -/
def teardownPlan (cfg : Config) (cur : Cursor) : List Txn :=
  txnOf .scrollDeactivate :: flushPlan cfg (zeros cfg.fbLen) cur

theorem exec_teardown_next {s t : State} (h : exec .teardown s = .next t) :
    ∃ d, s.cfg.valid = true ∧ s.sequencer = .idle ∧ s.phase = .opened d ∧
      t = startPlan (teardownPlan s.cfg d.cur) .demolish (s.starting d) := by
  replace h : execTeardown s = .next t := h
  unfold execTeardown at h
  obtain ⟨d, hv, hs, hp, h⟩ := acceptOpen_next h
  cases h
  exact ⟨d, hv, hs, hp, by simp [startPlan, State.starting, hp, teardownPlan]⟩

theorem exec_teardown_ready {s : State} {d : Driver} (hv : s.cfg.valid = true) (hs : s.sequencer = .idle)
    (hp : s.phase = .opened d) :
    exec .teardown s = .next (startPlan (teardownPlan s.cfg d.cur) .demolish (s.starting d)) := by
  show execTeardown s = _
  rw [execTeardown, acceptOpen_ready hv hs hp]
  simp [startPlan, State.starting, hp, teardownPlan]

theorem exec_construct_next {s t : State} {b a : Byte} (h : exec (.construct b a) s = .next t) :
    s.cfg.valid = true ∧ s.sequencer = .idle ∧ s.phase = .closed ∧
      t = openTransport b a (initPlan s.cfg) { s with response := none } := by
  replace h : execConstruct b a s = .next t := h
  unfold execConstruct at h
  obtain ⟨hv, hs, hp, h⟩ := acceptClosed_next h
  cases h
  exact ⟨hv, hs, hp, rfl⟩

/-- Everything a `TOpen` and what follows it can do (R39, R40, R70). -/
theorem openTransport_cases (b a : Byte) (plan : List Txn) (s : State) :
    (s.openAnswers = [] ∧ openTransport b a plan s = { s with handle := true, sequencer := .opening b a }) ∨
    (∃ rest, s.openAnswers = .noack :: rest ∧
      openTransport b a plan s =
        { s with
          openAnswers := rest, handle := false, sequencer := .idle, req := none
          response := some .deviceNotFoundError
          trace := s.trace ++ [.topen b a .noack, .trelease] }) ∨
    (∃ rest, s.openAnswers = .ack :: rest ∧
      openTransport b a plan s = startPlan plan (.build b a)
        { s with openAnswers := rest, handle := true, trace := s.trace ++ [.topen b a .ack] }) := by
  rcases h : s.openAnswers with _ | ⟨_ | _, rest⟩
  · exact .inl ⟨rfl, by simp [openTransport, h]⟩
  · exact .inr (.inr ⟨rest, rfl, by simp [openTransport, h]⟩)
  · exact .inr (.inl ⟨rest, rfl, by simp [openTransport, h, State.release, State.respond]⟩)

/-! ## Transactions -/

/-- Every instruction of the Transport port, executed, sends its own transaction. -/
theorem exec_transport {i : Instr} (hf : i.format ≠ .req) (hn : (txnOf i).data ≠ []) (s : State) :
    exec i s = transact (txnOf i) s := by
  cases i with
  | txnCommand payload =>
    have : payload ≠ [] := hn
    show transactNonempty (commandTxn payload) s = _
    simp [transactNonempty, commandTxn, this]
    rfl
  | txnData data =>
    have : data ≠ [] := hn
    show transactNonempty (dataTxn data) s = _
    simp [transactNonempty, dataTxn, this]
    rfl
  | _ => first | rfl | exact absurd rfl hf

/-- An instruction of the Transport port that answers a next state sent its own transaction as the next
one of the plan in progress. -/
theorem exec_transport_next {i : Instr} {s t : State} (hf : i.format ≠ .req) (h : exec i s = .next t) :
    ∃ e, s.sequencer = .emitting e ∧ t = send e [txnOf i] s ∧ (txnOf i).data ≠ [] := by
  have key : (txnOf i).data ≠ [] := by
    cases i with
    | txnCommand payload =>
      intro hn
      have : payload = [] := hn
      subst this
      cases h
    | txnData data =>
      intro hn
      have : data = [] := hn
      subst this
      cases h
    | _ => first | exact absurd rfl hf | exact List.cons_ne_nil _ _
  rw [exec_transport hf key] at h
  obtain ⟨e, he, ht⟩ := transact_next h
  exact ⟨e, he, ht, key⟩

/-! ## Steps -/

/-- The request port gives requests only. -/
theorem decode_request_format {bs : List Byte} {i : Instr} (h : decode .request bs = .ok i) :
    i.format = .req := by
  unfold decode parseRequest at h
  simp only at h
  split at h
  · simp only [Except.bind, decodeRequest] at h
    split at h <;> cases h <;> rfl
  · cases h

/-- The Transport port gives no request. -/
theorem decode_transport_format {bs : List Byte} {i : Instr} (h : decode .transport bs = .ok i) :
    i.format ≠ .req := by
  unfold decode parseTxn at h
  simp only at h
  split at h
  · cases h
  · simp only [Except.bind, decodeTxn] at h
    split at h
    · cases h
    · split at h
      · split at h
        · rename_i j hj
          cases h
          unfold decodeCommand at hj
          split at hj
          · cases hj
          · split at hj
            · cases hj
            · rename_i row hrow
              split at hj
              · cases hj
                have hm := List.mem_of_find?_eq_some hrow
                simp only [commandTable, addressingRows, scrollRows, displayRows, initRows, List.cons_append,
                  List.nil_append, List.mem_cons, List.not_mem_nil, or_false] at hm
                rcases hm with rfl | rfl | rfl | rfl | rfl | rfl | rfl | rfl | rfl | rfl | rfl | rfl | rfl |
                  rfl | rfl | rfl | rfl | rfl | rfl | rfl | rfl | rfl | rfl | rfl | rfl | rfl | rfl | rfl <;>
                  simp [Instr.format]
              · cases hj
        · cases h; simp [Instr.format]
      · split at h
        · cases h; simp [Instr.format]
        · cases h

/-- Everything a step can do. -/
theorem step_next {s t : State} (h : step s = .next t) :
    (s.sequencer = .idle ∧ s.requests = [] ∧ t = s) ∨
    (∃ b a, s.sequencer = .opening b a ∧ t = openTransport b a (initPlan s.cfg) s) ∨
    (∃ e, s.sequencer = .emitting e ∧ e.plan[e.seq]? = none ∧ t = send e [] s) ∨
    (∃ e w i, s.sequencer = .emitting e ∧ e.plan[e.seq]? = some w ∧
      decode .transport (w.control :: w.data) = .ok i ∧ t = send e [txnOf i] s) ∨
    (∃ bs rest i, s.sequencer = .idle ∧ s.requests = bs :: rest ∧ i.format = .req ∧
      decode .request bs = .ok i ∧ exec i { s with requests := rest, req := latch bs } = .next t) := by
  unfold step fetch at h
  cases hs : s.sequencer with
  | idle =>
    simp only [hs] at h
    cases hr : s.requests with
    | nil =>
      simp only [hr] at h
      cases h
      exact .inl ⟨rfl, rfl, rfl⟩
    | cons bs rest =>
      simp only [hr] at h
      split at h
      · cases h
      · rename_i i hi
        exact .inr (.inr (.inr (.inr ⟨bs, rest, i, rfl, rfl, decode_request_format hi, hi, h⟩)))
  | opening b a =>
    simp only [hs] at h
    cases h
    exact .inr (.inl ⟨b, a, rfl, rfl⟩)
  | emitting e =>
    simp only [hs] at h
    cases hw : e.plan[e.seq]? with
    | none =>
      simp only [hw] at h
      cases h
      exact .inr (.inr (.inl ⟨e, rfl, hw, rfl⟩))
    | some w =>
      simp only [hw, txnBytes] at h
      split at h
      · cases h
      · rename_i i hi
        obtain ⟨e', he, ht, _⟩ := exec_transport_next (decode_transport_format hi) h
        rw [hs] at he
        cases he
        exact .inr (.inr (.inr (.inl ⟨e, w, i, rfl, hw, hi, ht⟩)))

end Sys2Proof.Machine
end

