-- ==== Sys2Proof/Laws/Decode.lean ====
section
/-! SUPPORT. The decoder: what a row of the command table makes of a payload, and the step of a plan in progress
(45_command_mapper.md R138; 30_encoding.md R58, R59). -/

namespace Sys2Proof.Machine

/-! ## The operand fields of the one-byte commands, put back -/

theorem setColLow_byte : ∀ op : Byte, op &&& 0xF0#8 = 0x00#8 → 0x00#8 ||| (op.setWidth 4).setWidth 8 = op := by decide
theorem setColHigh_byte : ∀ op : Byte, op &&& 0xF8#8 = 0x10#8 → 0x10#8 ||| (op.setWidth 3).setWidth 8 = op := by decide
theorem setPageStart_byte : ∀ op : Byte, op &&& 0xF8#8 = 0xB0#8 → 0xB0#8 ||| (op.setWidth 3).setWidth 8 = op := by decide
theorem setStartLine_byte : ∀ op : Byte, op &&& 0xC0#8 = 0x40#8 → 0x40#8 ||| (op.setWidth 6).setWidth 8 = op := by decide
theorem segRemap_byte : ∀ op : Byte, op &&& 0xFE#8 = 0xA0#8 → (if op.getLsbD 0 then 0xA1#8 else 0xA0#8) = op := by decide
theorem comScanDir_byte : ∀ op : Byte, op &&& 0xF7#8 = 0xC0#8 → (if op.getLsbD 3 then 0xC8#8 else 0xC0#8) = op := by decide

/-- A mask of all ones compares the whole byte. -/
theorem and_ff (op p : Byte) (h : op &&& 0xFF#8 = p) : op = p := by
  have : ∀ op : Byte, op &&& 0xFF#8 = op := by decide
  rw [← h, this]

/-- The command a row builds from a payload it accepts has that payload for its bytes: no bit is dropped. -/
theorem encode_build {op : Byte} {ps : List Byte} {row : CommandRow} (hm : row ∈ commandTable)
    (ha : row.accepts op = true) (hl : ps.length = row.params) :
    encode (row.build op ps) = ctrlCmd :: op :: ps ∧ (row.build op ps).format ≠ .req := by
  simp only [commandTable, addressingRows, scrollRows, displayRows, initRows, List.cons_append, List.nil_append,
    List.mem_cons, List.not_mem_nil, or_false] at hm
  simp only [CommandRow.accepts, beq_iff_eq] at ha
  rcases hm with rfl | rfl | rfl | rfl | rfl | rfl | rfl | rfl | rfl | rfl | rfl | rfl | rfl | rfl | rfl | rfl |
    rfl | rfl | rfl | rfl | rfl | rfl | rfl | rfl | rfl | rfl | rfl | rfl
  all_goals refine ⟨?_, by simp [Instr.format]⟩
  all_goals first
    | (obtain rfl := and_ff _ _ ha
       simp only at hl
       rcases ps with _ | ⟨a, _ | ⟨b, _ | ⟨c, _ | ⟨d, _ | ⟨e, _ | ⟨f, _ | ⟨g, ps⟩⟩⟩⟩⟩⟩⟩ <;>
         first | rfl | simp at hl)
    | (obtain rfl : ps = [] := List.length_eq_zero_iff.1 hl
       first
         | exact congrArg (fun x => [ctrlCmd, x]) (setColLow_byte _ ha)
         | exact congrArg (fun x => [ctrlCmd, x]) (setColHigh_byte _ ha)
         | exact congrArg (fun x => [ctrlCmd, x]) (setPageStart_byte _ ha)
         | exact congrArg (fun x => [ctrlCmd, x]) (setStartLine_byte _ ha)
         | exact congrArg (fun x => [ctrlCmd, x]) (segRemap_byte _ ha)
         | exact congrArg (fun x => [ctrlCmd, x]) (comScanDir_byte _ ha))

/-- A transaction the block can send is decoded to the instruction that sends it. -/
theorem decodeTxn_of_wf {w : Txn} (h : txnWf w = true) :
    ∃ i, decodeTxn w = .ok i ∧ txnOf i = w ∧ i.format ≠ .req := by
  obtain ⟨control, data⟩ := w
  simp only [txnWf, Bool.and_eq_true, Bool.or_eq_true, beq_iff_eq, bne_iff_ne] at h
  obtain ⟨hc, hd⟩ := h
  rcases hc with rfl | rfl
  · simp only [decodeTxn, hd, if_false, if_true]
    cases data with
    | nil => exact absurd rfl hd
    | cons op ps =>
      unfold decodeCommand
      simp only
      cases hr : commandRow op with
      | none => exact ⟨_, rfl, rfl, by simp [Instr.format]⟩
      | some row =>
        by_cases hl : ps.length = row.params
        · simp only [hl, if_true]
          obtain ⟨he, hf⟩ := encode_build (List.mem_of_find?_eq_some hr) (by simpa using List.find?_some hr) hl
          exact ⟨_, rfl, by simp [txnOf, he], hf⟩
        · simp only [hl, if_false]
          exact ⟨_, rfl, rfl, by simp [Instr.format]⟩
  · refine ⟨.txnData data, ?_, rfl, by simp [Instr.format]⟩
    have : ctrlData ≠ ctrlCmd := by decide
    simp [decodeTxn, hd, this]

/-- A step of a well-formed plan in progress sends its next transaction (R12, R58). -/
theorem step_emitting {s : State} {e : Emission} (hs : s.sequencer = .emitting e)
    (hw : e.wf s.cfg s.phase = true) :
    ∃ w, e.plan[e.seq]? = some w ∧ step s = .next (send e [w] s) := by
  simp only [Emission.wf, Bool.and_eq_true, decide_eq_true_eq, List.all_eq_true] at hw
  obtain ⟨⟨h₁, h₂⟩, -⟩ := hw
  have hw' := h₂ _ (List.getElem_mem h₁)
  obtain ⟨i, h₃, h₄, h₅⟩ := decodeTxn_of_wf hw'
  have hn : (txnOf i).data ≠ [] := by
    rw [h₄]; simp only [txnWf, Bool.and_eq_true, bne_iff_ne] at hw'; exact hw'.2
  refine ⟨e.plan[e.seq], by simp [h₁], ?_⟩
  have hf : fetch s = .bytes .transport (txnBytes e.plan[e.seq]) s := by simp [fetch, hs, h₁]
  have hd : decode .transport (txnBytes e.plan[e.seq]) = .ok i := by
    simpa [decode, txnBytes, parseTxn, Except.bind] using h₃
  simp only [step, hf, hd]
  rw [exec_transport h₅ hn, transact_emitting _ hs, h₄]

end Sys2Proof.Machine
end

