-- ==== Sys2Proof/Laws/Mapper.lean ====
section
/-! SUPPORT. The transactions of the mapper: their bytes, their shape, and the number of transactions in a
plan (30_encoding.md R59, R61). -/

namespace Sys2Proof.Machine

/-! ## Bytes of the commands the plans use -/

@[simp] theorem txnOf_setPageStart (p : BitVec 3) :
    txnOf (.setPageStart p) = ⟨ctrlCmd, [0xB0#8 ||| p.setWidth 8]⟩ := rfl
@[simp] theorem txnOf_setColLow (n : BitVec 4) :
    txnOf (.setColLow n) = ⟨ctrlCmd, [0x00#8 ||| n.setWidth 8]⟩ := rfl
@[simp] theorem txnOf_setColHigh (n : BitVec 3) :
    txnOf (.setColHigh n) = ⟨ctrlCmd, [0x10#8 ||| n.setWidth 8]⟩ := rfl
@[simp] theorem txnOf_setContrast (v : Byte) : txnOf (.setContrast v) = ⟨ctrlCmd, [0x81, v]⟩ := rfl
@[simp] theorem txnOf_normalDisplay : txnOf .normalDisplay = ⟨ctrlCmd, [0xA6]⟩ := rfl
@[simp] theorem txnOf_inverseDisplay : txnOf .inverseDisplay = ⟨ctrlCmd, [0xA7]⟩ := rfl
@[simp] theorem txnOf_scrollDeactivate : txnOf .scrollDeactivate = ⟨ctrlCmd, [0x2E]⟩ := rfl
@[simp] theorem txnOf_scrollActivate : txnOf .scrollActivate = ⟨ctrlCmd, [0x2F]⟩ := rfl
@[simp] theorem txnOf_scrollHRight (p : HScroll) :
    txnOf (.scrollHRight p) = ⟨ctrlCmd, 0x26 :: p.bytes⟩ := rfl
@[simp] theorem txnOf_scrollHLeft (p : HScroll) :
    txnOf (.scrollHLeft p) = ⟨ctrlCmd, 0x27 :: p.bytes⟩ := rfl
@[simp] theorem txnOf_scrollVHRight (p : VHScroll) :
    txnOf (.scrollVHRight p) = ⟨ctrlCmd, 0x29 :: p.bytes⟩ := rfl
@[simp] theorem txnOf_scrollVHLeft (p : VHScroll) :
    txnOf (.scrollVHLeft p) = ⟨ctrlCmd, 0x2A :: p.bytes⟩ := rfl
@[simp] theorem txnOf_setVscrollArea (top rows : Byte) :
    txnOf (.setVscrollArea top rows) = ⟨ctrlCmd, [0xA3, top, rows]⟩ := rfl

/-! ## Lengths -/

@[simp] theorem length_cursorTriple (p c : Nat) : (cursorTriple p c).length = 3 := rfl

@[simp] theorem length_flushPlan (cfg : Config) (fbx : List Byte) (cur : Cursor) :
    (flushPlan cfg fbx cur).length = 4 * cfg.pages + 3 := by
  simp [flushPlan, flushPage, List.length_flatMap, Nat.mul_comm]

theorem length_scrollPlan (cfg : Config) (active : Bool) (dir : Scroll) (s e : Byte) :
    (scrollPlan cfg active dir s e).length ≤ 4 := by
  cases active <;> cases dir <;> simp [scrollPlan, scrollSetup]

/-! ## Shape: the control byte is 0x00 or 0x40 and the payload is not empty -/

@[simp] theorem txnWf_command (op : Byte) (ps : List Byte) : txnWf ⟨ctrlCmd, op :: ps⟩ = true := by
  simp [txnWf]

theorem txnWf_dataTxn {data : List Byte} (h : data ≠ []) : txnWf (dataTxn data) = true := by
  simp [txnWf, dataTxn, h]

theorem wf_cursorTriple (p c : Nat) : (cursorTriple p c).all txnWf = true := by
  simp [cursorTriple]

/-- A page of a buffer of `FB_LEN` bytes is a full page (R45 (b)). -/
theorem length_pageSlice {cfg : Config} {fbx : List Byte} {p : Nat} (hf : fbx.length = cfg.fbLen)
    (hp : p < cfg.pages) : (pageSlice cfg fbx p).length = cfg.columns := by
  have := idx_add_le hp (by omega : 0 + cfg.columns ≤ cfg.columns)
  simp only [pageSlice, List.length_take, List.length_drop, hf]
  omega

theorem wf_flushPlan {cfg : Config} (hv : cfg.valid = true) {fbx : List Byte} (hf : fbx.length = cfg.fbLen)
    (cur : Cursor) : (flushPlan cfg fbx cur).all txnWf = true := by
  obtain ⟨-, -, hc, -⟩ := valid_iff.1 hv
  simp only [flushPlan, List.all_append, wf_cursorTriple, Bool.and_true, List.all_flatMap, List.all_eq_true,
    List.mem_range]
  intro p hp w hw
  rcases List.mem_append.1 hw with hw | hw
  · exact List.all_eq_true.1 (wf_cursorTriple p 0) w hw
  · rw [List.mem_singleton.1 hw]
    refine txnWf_dataTxn fun h => ?_
    have := length_pageSlice hf hp
    rw [h] at this
    simp at this
    omega

theorem wf_scrollPlan (cfg : Config) (active : Bool) (dir : Scroll) (s e : Byte) :
    (scrollPlan cfg active dir s e).all txnWf = true := by
  cases active <;> cases dir <;> simp [scrollPlan, scrollSetup, vscrollArea]

theorem wf_initPlan {cfg : Config} (hv : cfg.valid = true) : (initPlan cfg).all txnWf = true := by
  obtain ⟨-, -, -, -, -, -, -, -, -, hi⟩ := valid_iff.1 hv
  simp only [initPlan, List.all_eq_true, List.mem_map, forall_exists_index, and_imp,
    forall_apply_eq_imp_iff₂]
  intro c hc
  simp [txnWf, commandTxn, hi c hc]

end Sys2Proof.Machine
end

