-- ==== Sys2Proof/Laws/Render.lean ====
section
/-! SUPPORT. What rendering a text does (42_cursor_text.md R91): where each cell goes, what is sent for it, and
that it never fails under a valid configuration and cursor. -/

namespace Sys2Proof.Machine

/-- Where the cell of a character at a cursor goes: the wrap before it (R91). -/
def cellStart (cfg : Config) (cur : Cursor) : Cursor :=
  if cur.column + cfg.cellW > cfg.columns then ⟨(cur.page + 1) % cfg.pages, 0⟩ else cur

/-- Where the cursor stands after it: the wrap after it (R91). -/
def cellEnd (cfg : Config) (cur : Cursor) : Cursor :=
  if (cellStart cfg cur).column + cfg.cellW = cfg.columns then ⟨((cellStart cfg cur).page + 1) % cfg.pages, 0⟩
  else ⟨(cellStart cfg cur).page, (cellStart cfg cur).column + cfg.cellW⟩

/-- What is sent for it (R91). -/
def cellPlan (cfg : Config) (cur : Cursor) (ch : Byte) : List Txn :=
  (if cur.column + cfg.cellW > cfg.columns then cursorTriple (cellStart cfg cur).page 0 else []) ++
    [dataTxn (cell cfg ch)] ++
    (if (cellStart cfg cur).column + cfg.cellW = cfg.columns then
      cursorTriple (((cellStart cfg cur).page + 1) % cfg.pages) 0 else [])

/-- The framebuffer index of its first byte (R30). -/
def cellIdx (cfg : Config) (cur : Cursor) : Nat := idx cfg (cellStart cfg cur).page (cellStart cfg cur).column

theorem renderChar_eq (cfg : Config) (fb : Memory) (cur : Cursor) (plan : List Txn) (ch : Byte) :
    renderChar cfg ⟨fb, cur, plan⟩ ch =
      match storeBytes cfg.fbLen fb (cellIdx cfg cur) (cell cfg ch) with
      | .error f => .error f
      | .ok fb' => .ok ⟨fb', cellEnd cfg cur, plan ++ cellPlan cfg cur ch⟩ := by
  unfold renderChar wrapBefore wrapAfter wrapPage cellIdx cellEnd cellPlan cellStart
  by_cases h : cur.column + cfg.cellW > cfg.columns
  · simp only [h, if_true]
    cases storeBytes cfg.fbLen fb (idx cfg ((cur.page + 1) % cfg.pages) 0) (cell cfg ch) with
    | error f => rfl
    | ok fb' => simp only; split <;> simp
  · simp only [h, if_false]
    cases storeBytes cfg.fbLen fb (idx cfg cur.page cur.column) (cell cfg ch) with
    | error f => rfl
    | ok fb' => simp only; split <;> simp

theorem cellStart_ok {cfg : Config} (hv : cfg.valid = true) {cur : Cursor} (hc : cur.valid cfg = true) :
    (cellStart cfg cur).page < cfg.pages ∧ (cellStart cfg cur).column + cfg.cellW ≤ cfg.columns := by
  obtain ⟨h1, -, -, -, -, h6, -⟩ := valid_iff.1 hv
  obtain ⟨hp, -⟩ := cursor_valid_iff.1 hc
  unfold cellStart
  split
  · exact ⟨Nat.mod_lt _ (by omega), by simpa using h6⟩
  · exact ⟨hp, by omega⟩

/-- The cursor after a cell is on the panel (R91 corner case 2). -/
theorem cellEnd_valid {cfg : Config} (hv : cfg.valid = true) {cur : Cursor} (hc : cur.valid cfg = true) :
    (cellEnd cfg cur).valid cfg = true := by
  obtain ⟨h1, -, h3, -⟩ := valid_iff.1 hv
  obtain ⟨hp, hcol⟩ := cellStart_ok hv hc
  unfold cellEnd
  split
  · exact cursor_valid_iff.2 ⟨Nat.mod_lt _ (by omega), by show 0 < _; omega⟩
  · exact cursor_valid_iff.2 ⟨hp, by show _ + _ < _; omega⟩

theorem wf_cellPlan (cfg : Config) (cur : Cursor) (ch : Byte) : (cellPlan cfg cur ch).all txnWf = true := by
  have h := txnWf_dataTxn (cell_ne_nil cfg ch)
  unfold cellPlan
  split <;> split <;> simp [List.all_append, wf_cursorTriple, h]

/-- At most seven transactions a character (R61). -/
theorem length_cellPlan (cfg : Config) (cur : Cursor) (ch : Byte) : (cellPlan cfg cur ch).length ≤ 7 := by
  unfold cellPlan
  split <;> split <;> simp

/-- One character: the stores succeed, and exactly the `CELL_W` bytes of its cell change (R91). -/
theorem renderChar_ok {cfg : Config} (hv : cfg.valid = true) {fb : Memory} {cur : Cursor}
    (hc : cur.valid cfg = true) (hw : fb.wf = true) (hb : fb.below cfg.fbLen = true) (ch : Byte) :
    ∃ fb', storeBytes cfg.fbLen fb (cellIdx cfg cur) (cell cfg ch) = .ok fb' ∧ fb'.wf = true ∧
      fb'.below cfg.fbLen = true ∧
      (∀ a, fb'.read a = if cellIdx cfg cur ≤ a ∧ a < cellIdx cfg cur + cfg.cellW
        then (cell cfg ch).getD (a - cellIdx cfg cur) Memory.blank else fb.read a) ∧
      ∀ plan, renderChar cfg ⟨fb, cur, plan⟩ ch = .ok ⟨fb', cellEnd cfg cur, plan ++ cellPlan cfg cur ch⟩ := by
  obtain ⟨hp, hcol⟩ := cellStart_ok hv hc
  have hl := cell_length hv ch
  obtain ⟨fb', h1, h2, h3, h4⟩ := storeBytes_ok (vs := cell cfg ch) (i := cellIdx cfg cur) hw hb
    (by rw [hl]; exact idx_add_le hp hcol)
  refine ⟨fb', h1, h2, h3, by rw [hl] at h4; exact h4, fun plan => ?_⟩
  rw [renderChar_eq, h1]

/-- Every text renders (R91: "every byte sequence is a legal text"). -/
theorem renderText_ok {cfg : Config} (hv : cfg.valid = true) (text : List Byte) {fb : Memory} {cur : Cursor}
    (hc : cur.valid cfg = true) (hw : fb.wf = true) (hb : fb.below cfg.fbLen = true) :
    ∃ fb' cur' ws, cur'.valid cfg = true ∧ fb'.wf = true ∧ fb'.below cfg.fbLen = true ∧
      ws.length ≤ 7 * text.length ∧ ws.all txnWf = true ∧
      ∀ plan, renderText cfg ⟨fb, cur, plan⟩ text = .ok ⟨fb', cur', plan ++ ws⟩ := by
  induction text generalizing fb cur with
  | nil => exact ⟨fb, cur, [], hc, hw, hb, by simp, rfl, fun plan => by simp [renderText]⟩
  | cons ch text ih =>
    obtain ⟨fb₁, -, hw₁, hb₁, -, h₁⟩ := renderChar_ok hv hc hw hb ch
    obtain ⟨fb', cur', ws, hc', hw', hb', hl, hwf, h⟩ := ih (cellEnd_valid hv hc) hw₁ hb₁
    refine ⟨fb', cur', cellPlan cfg cur ch ++ ws, hc', hw', hb', ?_, ?_, fun plan => ?_⟩
    · have := length_cellPlan cfg cur ch
      simp only [List.length_append, List.length_cons]
      omega
    · simp [List.all_append, wf_cellPlan, hwf]
    · simp [renderText, h₁, h]

/-- A text after a text: the second starts where the first ends. -/
theorem renderText_append (cfg : Config) (r : Render) (x y : List Byte) :
    renderText cfg r (x ++ y) =
      match renderText cfg r x with
      | .error f => .error f
      | .ok r' => renderText cfg r' y := by
  induction x generalizing r with
  | nil => rfl
  | cons ch x ih =>
    simp only [List.cons_append, renderText]
    cases renderChar cfg r ch with
    | error f => rfl
    | ok r' => exact ih r'

end Sys2Proof.Machine
end

