-- ==== Sys2Proof/Laws/Invariant.lean ====
section
/-! SUPPORT. The structural invariant (10_state.md R16, R20; 40_lifecycle.md R73): its parts, and what the shared
operations make of it. -/

namespace Sys2Proof.Machine

/-- The structural invariant, part by part. -/
theorem wf_iff {s : State} : s.wf = true ↔
    s.cfg.valid = true ∧ s.phase.wf s.cfg = true ∧ s.sequencer.wf s.cfg s.phase = true ∧
      s.handle = (s.phase.isOpen || s.sequencer.inProgress) := by
  simp only [State.wf, Bool.and_eq_true, beq_iff_eq, and_assoc]

theorem isOpen_eq_false {p : Phase} (h : (!p.isOpen) = true) : p = .closed := by
  cases p with
  | closed => rfl
  | opened d => cases h

/-- An operation whose checks pass keeps the shadow well-formed, commits what may follow, and sends a
well-formed plan (R16, R20, R59). -/
theorem opRun_wf {cfg : Config} (hv : cfg.valid = true) {d d₁ d' : Driver} {i : Instr} {plan : List Txn}
    (h : OpRun cfg d i d₁ d' plan) (hd : d.wf cfg = true) :
    d₁.wf cfg = true ∧ d₁.mayFollow cfg d' = true ∧ plan.all txnWf = true := by
  simp only [Driver.wf, Bool.and_eq_true] at hd
  obtain ⟨⟨h₁, h₂⟩, h₃⟩ := hd
  cases h with
  | clear =>
    refine ⟨by simp [Driver.wf, *], ?_, wf_flushPlan hv (by simp [zeros]) _⟩
    have := ofBytes_below (zeros cfg.fbLen)
    simp only [zeros, List.length_replicate] at this
    simp [Driver.mayFollow, Driver.wf, *, ofBytes_wf, zeros]
  | draw b hb =>
    refine ⟨by simp [Driver.wf, *], ?_, wf_flushPlan hv hb _⟩
    have := ofBytes_below b
    rw [hb] at this
    simp [Driver.mayFollow, Driver.wf, *, ofBytes_wf]
  | setCursor p c hc =>
    exact ⟨by simp [Driver.wf, *], by simp [Driver.mayFollow, Driver.wf, *], wf_cursorTriple _ _⟩
  | write text r hr =>
    obtain ⟨fb', cur', ws, a₁, a₂, a₃, -, a₅, a₆⟩ := renderText_ok hv text h₁ h₂ h₃
    rw [a₆ []] at hr
    cases hr
    exact ⟨by simp [Driver.wf, markWritten_eq, *], by simp [Driver.mayFollow, Driver.wf, markWritten_eq, *],
      by simpa using a₅⟩
  | invert e =>
    exact ⟨by simp [Driver.wf, *], by simp [Driver.mayFollow, Driver.wf, Driver.setInverted, *],
      by cases e <;> simp⟩
  | dim e =>
    exact ⟨by simp [Driver.wf, *], by simp [Driver.mayFollow, Driver.wf, Driver.setDimmed, *], by simp⟩
  | startscroll _ dir sp ep hi hr =>
    exact ⟨by simp [Driver.wf, *], by simp [Driver.mayFollow, Driver.wf, Driver.setScrolling, *],
      wf_scrollPlan _ _ _ _ _⟩
  | stopscroll =>
    exact ⟨by simp [Driver.wf, *], by simp [Driver.mayFollow, Driver.wf, Driver.setScrolling, *], by simp⟩

/-- A commit leaves a well-formed state. -/
theorem wf_finish {c : Commit} {s : State} (hv : s.cfg.valid = true) (hc : c.wf s.cfg s.phase = true)
    (hh : s.handle = true) : (finish c s).wf = true := by
  obtain ⟨h₁, -, h₃, -⟩ := valid_iff.1 hv
  rw [wf_iff]
  cases c with
  | build b a =>
    refine ⟨hv, ?_, rfl, hh⟩
    have hc : (⟨0, 0⟩ : Cursor).valid s.cfg = true := cursor_valid_iff.2 ⟨h₁, h₃⟩
    simp [finish, Phase.wf, Driver.wf, Driver.fresh, hc, Memory.wf, Memory.below]
  | demolish => exact ⟨hv, rfl, rfl, rfl⟩
  | update d' =>
    simp only [Commit.wf] at hc
    split at hc
    · cases hc
    · simp only [Driver.mayFollow, Bool.and_eq_true] at hc
      exact ⟨hv, hc.1.1.1.1, rfl, hh⟩

/-- So does an abort. -/
theorem wf_abort {c : Commit} {s : State} (hv : s.cfg.valid = true) (hp : s.phase.wf s.cfg = true)
    (hc : c.wf s.cfg s.phase = true) (hh : s.handle = true) : (abort c s).wf = true := by
  rw [wf_iff]
  cases c with
  | build b a =>
    have hc : s.phase = .closed := isOpen_eq_false hc
    exact ⟨hv, hp, rfl, by simp [abort, hc, Phase.isOpen, Sequencer.inProgress]⟩
  | demolish => exact ⟨hv, rfl, rfl, rfl⟩
  | update d' =>
    simp only [Commit.wf] at hc
    split at hc
    · cases hc
    · rename_i d hd
      rw [hd] at hp
      refine ⟨by simpa using hv, ?_, ?_, ?_⟩
      · simpa [abort, hd, Phase.wf, Driver.wf] using hp
      · simp [abort, hd, Sequencer.wf]
      · simp [abort, hd, hh, Phase.isOpen]

/-- Sending any transactions of a well-formed plan leaves a well-formed state. -/
theorem wf_send {e : Emission} {s : State} {ws : List Txn} (hv : s.cfg.valid = true)
    (hp : s.phase.wf s.cfg = true) (hc : e.commit.wf s.cfg s.phase = true) (hpl : e.plan.all txnWf = true)
    (hh : s.handle = true) : (send e ws s).wf = true := by
  rcases send_cases e ws s with ⟨_, _, _, h⟩ | ⟨_, _, _, _, _, h⟩ | ⟨k, rest, _, _, _, hk, h⟩ | ⟨_, _, _, _, h⟩
  · rw [h]; exact wf_finish hv hc hh
  · rw [h]; exact wf_abort hv hp hc hh
  · rw [h, wf_iff]
    refine ⟨hv, hp, ?_, by simp [Sequencer.inProgress, hh]⟩
    simp only [Sequencer.wf, Emission.wf, Bool.and_eq_true, decide_eq_true_eq]
    exact ⟨⟨hk, hpl⟩, hc⟩
  · rw [h]; exact wf_finish hv hc hh

/-- So does the open of a `construct`. -/
theorem wf_openTransport {s : State} {b a : Byte} (hv : s.cfg.valid = true) (hp : s.phase = .closed) :
    (openTransport b a (initPlan s.cfg) s).wf = true := by
  rcases openTransport_cases b a (initPlan s.cfg) s with ⟨_, h⟩ | ⟨r, _, h⟩ | ⟨r, _, h⟩
  · rw [h, wf_iff]
    simp [hv, hp, Phase.wf, Sequencer.wf, Phase.isOpen, Sequencer.inProgress]
  · rw [h, wf_iff]
    simp [hv, hp, Phase.wf, Sequencer.wf, Phase.isOpen, Sequencer.inProgress]
  · rw [h]
    exact wf_send hv (by simp [hp, Phase.wf]) (by simp [hp, Commit.wf, Phase.isOpen]) (wf_initPlan hv) rfl

end Sys2Proof.Machine
end

