-- ==== Sys2Proof/Laws/PerInstr.lean ====
section
/-! SUPPORT. One statement about every instruction's encoding, lemma by lemma: the bytes of a well-formed instruction
have the shape its port carries (30_encoding.md R50, R52, R59). -/

namespace Sys2Proof.Laws.PortShape

open Sys2Proof Sys2Proof.Machine

/-- On the request port: an operation code of R52 and at least the three fixed bytes of R50. On the Transport: one
of the two control bytes and a payload that is not empty (R59). -/
def Statement (i : Instr) : Prop :=
  WellFormed i = true →
    match i.format.port with
    | .request => 3 ≤ (encode i).length ∧ ((encode i).headD 0xFF#8).toNat ≤ 0x0C
    | .transport => txnWf (txnOf i) = true ∧ encode i = (txnOf i).control :: (txnOf i).data

theorem construct (busId deviceAddress : Byte) : Statement (.construct busId deviceAddress) := fun _ => ⟨Nat.le_refl 3, by simp [encode]⟩
theorem clear : Statement (.clear) := fun _ => ⟨Nat.le_refl 3, by simp [encode]⟩
theorem draw (bitmap : List Byte) : Statement (.draw bitmap) := fun _ => ⟨by simp [encode], by simp [encode]⟩
theorem setCursor (page column : Byte) : Statement (.setCursor page column) := fun _ => ⟨Nat.le_refl 3, by simp [encode]⟩
theorem write (text : List Byte) : Statement (.write text) := fun _ => ⟨by simp [encode], by simp [encode]⟩
theorem invert (enable : Bool) : Statement (.invert enable) := fun _ => ⟨Nat.le_refl 3, by simp [encode]⟩
theorem dim (enable : Bool) : Statement (.dim enable) := fun _ => ⟨Nat.le_refl 3, by simp [encode]⟩
theorem startscrollright (startPage endPage : Byte) : Statement (.startscrollright startPage endPage) := fun _ => ⟨Nat.le_refl 3, by simp [encode]⟩
theorem startscrollleft (startPage endPage : Byte) : Statement (.startscrollleft startPage endPage) := fun _ => ⟨Nat.le_refl 3, by simp [encode]⟩
theorem startscrolldiagleft (startPage endPage : Byte) : Statement (.startscrolldiagleft startPage endPage) := fun _ => ⟨Nat.le_refl 3, by simp [encode]⟩
theorem startscrolldiagright (startPage endPage : Byte) : Statement (.startscrolldiagright startPage endPage) := fun _ => ⟨Nat.le_refl 3, by simp [encode]⟩
theorem stopscroll : Statement (.stopscroll) := fun _ => ⟨Nat.le_refl 3, by simp [encode]⟩
theorem teardown : Statement (.teardown) := fun _ => ⟨Nat.le_refl 3, by simp [encode]⟩
theorem setContrast (v : Byte) : Statement (.setContrast v) := fun _ => ⟨txnWf_command _ _, rfl⟩
theorem displayOff : Statement (.displayOff) := fun _ => ⟨txnWf_command _ _, rfl⟩
theorem displayOn : Statement (.displayOn) := fun _ => ⟨txnWf_command _ _, rfl⟩
theorem normalDisplay : Statement (.normalDisplay) := fun _ => ⟨txnWf_command _ _, rfl⟩
theorem inverseDisplay : Statement (.inverseDisplay) := fun _ => ⟨txnWf_command _ _, rfl⟩
theorem entireResume : Statement (.entireResume) := fun _ => ⟨txnWf_command _ _, rfl⟩
theorem entireOn : Statement (.entireOn) := fun _ => ⟨txnWf_command _ _, rfl⟩
theorem scrollHRight (p : HScroll) : Statement (.scrollHRight p) := fun _ => ⟨txnWf_command _ _, rfl⟩
theorem scrollHLeft (p : HScroll) : Statement (.scrollHLeft p) := fun _ => ⟨txnWf_command _ _, rfl⟩
theorem scrollVHRight (p : VHScroll) : Statement (.scrollVHRight p) := fun _ => ⟨txnWf_command _ _, rfl⟩
theorem scrollVHLeft (p : VHScroll) : Statement (.scrollVHLeft p) := fun _ => ⟨txnWf_command _ _, rfl⟩
theorem scrollDeactivate : Statement (.scrollDeactivate) := fun _ => ⟨txnWf_command _ _, rfl⟩
theorem scrollActivate : Statement (.scrollActivate) := fun _ => ⟨txnWf_command _ _, rfl⟩
theorem setPageStart (page : BitVec 3) : Statement (.setPageStart page) := fun _ => ⟨txnWf_command _ _, rfl⟩
theorem setColLow (nibble : BitVec 4) : Statement (.setColLow nibble) := fun _ => ⟨txnWf_command _ _, rfl⟩
theorem setColHigh (nibble : BitVec 3) : Statement (.setColHigh nibble) := fun _ => ⟨txnWf_command _ _, rfl⟩
theorem setVscrollArea (top rows : Byte) : Statement (.setVscrollArea top rows) := fun _ => ⟨txnWf_command _ _, rfl⟩
theorem setClockDiv (v : Byte) : Statement (.setClockDiv v) := fun _ => ⟨txnWf_command _ _, rfl⟩
theorem setMultiplex (v : Byte) : Statement (.setMultiplex v) := fun _ => ⟨txnWf_command _ _, rfl⟩
theorem setDisplayOffset (v : Byte) : Statement (.setDisplayOffset v) := fun _ => ⟨txnWf_command _ _, rfl⟩
theorem setStartLine (line : BitVec 6) : Statement (.setStartLine line) := fun _ => ⟨txnWf_command _ _, rfl⟩
theorem chargePump (v : Byte) : Statement (.chargePump v) := fun _ => ⟨txnWf_command _ _, rfl⟩
theorem setAddressingMode (mode : Byte) : Statement (.setAddressingMode mode) := fun _ => ⟨txnWf_command _ _, rfl⟩
theorem segRemap (b : Bool) : Statement (.segRemap b) := fun _ => ⟨txnWf_command _ _, rfl⟩
theorem comScanDir (b : Bool) : Statement (.comScanDir b) := fun _ => ⟨txnWf_command _ _, rfl⟩
theorem setComPins (v : Byte) : Statement (.setComPins v) := fun _ => ⟨txnWf_command _ _, rfl⟩
theorem setPrecharge (v : Byte) : Statement (.setPrecharge v) := fun _ => ⟨txnWf_command _ _, rfl⟩
theorem setVcomh (v : Byte) : Statement (.setVcomh v) := fun _ => ⟨txnWf_command _ _, rfl⟩
theorem txnCommand (payload : List Byte) : Statement (.txnCommand payload) := by
  intro h
  simp only [WellFormed, Bool.and_eq_true, bne_iff_ne] at h
  exact ⟨by simp [txnWf, txnOf, encode, h.1], rfl⟩
theorem txnData (data : List Byte) : Statement (.txnData data) := by
  intro h
  simp only [WellFormed, bne_iff_ne] at h
  exact ⟨by simp [txnWf, txnOf, encode, h], rfl⟩

end Sys2Proof.Laws.PortShape
end

