-- ==== Sys2Proof/Tests/Slice0.lean ====
section
/-! SUPPORT. The model's own tests. Expected values are the spec's: the words of its encoding tables (R52, R59, R120 to
R139, R141), the vectors V-… of 95_test_vectors.md (the same numbers at a small geometry where said), and
calculations by hand from the rules. After them, for every statement with hypotheses, a concrete case
that meets them. -/

namespace Sys2Proof.Tests

open Sys2Proof Sys2Proof.Machine Sys2Proof.Claims

/-! ## Helpers -/

/-- The test font of 95_test_vectors.md (G13). -/
def testFont : List (Byte × List Byte) :=
  [(0x48, [0x7F, 0x08, 0x08, 0x08, 0x7F]), (0x69, [0x00, 0x44, 0x7D, 0x40, 0x00])]

/-- The configuration of the vectors: the defaults with the test font. -/
def vectorCfg : Config := { defaultConfig with font := testFont }

/-- A small geometry: two pages of eight columns. -/
def smallCfg : Config :=
  { vectorCfg with pages := 2, columns := 8, initTable := some [[0x20, 0x02], [0xA6], [0x2E], [0xAF]] }

/-- "Start: fresh" of the vectors, the trace and the inputs left out; `d` changes the driver. -/
def openState (cfg : Config) (d : Driver → Driver) : State :=
  { State.reset with cfg := cfg, phase := .opened (d (Driver.fresh 0x00 0x3C)), handle := true }

def fresh : State := openState vectorCfg id
def small : State := openState smallCfg id

/-- A state with a request on the port and the Transport's next answers. -/
def given (s : State) (bytes : List Byte) (answers : List WriteAnswer) : State :=
  { s with requests := [bytes], writeAnswers := answers }

/-- The next state of a result (reset, if there is none). -/
def after (r : Result) : State :=
  match r with
  | .next t => t
  | .fault _ | .refused _ => State.reset

/-- Whether a result is a next state with this response that has appended these events. -/
def gives (s : State) (r : Result) (code : Byte) (evs : List Event) (p : State → Bool) : Bool :=
  match r with
  | .next t => t.response.map Response.code == some code && t.trace == s.trace ++ evs && p t
  | .fault _ | .refused _ => false

/-- Whether a result is this refusal. -/
def refuses (r : Result) (why : Refusal) : Bool :=
  match r with
  | .refused w => w == why
  | .next _ | .fault _ => false

/-- A property of the driver of an open phase. -/
def driverIs (p : Driver → Bool) (t : State) : Bool := t.driver?.any p

/-- `W00[..]` and `W40[..]` of the vectors, and their `FAIL` form. -/
def w00 (data : List Byte) : Event := .twrite 0x00 data .ok
def w40 (data : List Byte) : Event := .twrite 0x40 data .ok
def w00fail (data : List Byte) : Event := .twrite 0x00 data .fail
def w40fail (data : List Byte) : Event := .twrite 0x40 data .fail

/-- Answers `ok` to `n` calls. -/
def ok (n : Nat) : List WriteAnswer := List.replicate n .ok

/-! ## Well-formedness: an ill-formed term for each check -/

theorem test_illFormed_hscroll_dummies :
    WellFormed (.scrollHRight ⟨1, 0, 0, 7, 0, 0xFF⟩) = false ∧
    WellFormed (.scrollHRight ⟨0, 0, 0, 7, 1, 0xFF⟩) = false ∧
    WellFormed (.scrollHLeft ⟨0, 0, 0, 7, 0, 0xFE⟩) = false := by decide

theorem test_illFormed_hscroll_pages :
    WellFormed (.scrollHRight ⟨0, 8, 0, 7, 0, 0xFF⟩) = false ∧
    WellFormed (.scrollHLeft ⟨0, 0, 0, 8, 0, 0xFF⟩) = false := by decide

theorem test_illFormed_vhscroll :
    WellFormed (.scrollVHRight ⟨1, 0, 0, 7, 1⟩) = false ∧
    WellFormed (.scrollVHRight ⟨0, 8, 0, 7, 1⟩) = false ∧
    WellFormed (.scrollVHLeft ⟨0, 0, 0, 8, 1⟩) = false := by decide

theorem test_illFormed_fields :
    WellFormed (.setVscrollArea 64 0) = false ∧ WellFormed (.setVscrollArea 0 128) = false ∧
    WellFormed (.setMultiplex 64) = false ∧ WellFormed (.setDisplayOffset 64) = false ∧
    WellFormed (.setAddressingMode 3) = false := by decide

theorem test_illFormed_transactions :
    WellFormed (.txnCommand []) = false ∧ WellFormed (.txnData []) = false ∧
    WellFormed (.txnCommand [0xA7]) = false := by decide

theorem test_wellFormed_commands :
    WellFormed (.scrollHRight ⟨0, 0, 0, 7, 0, 0xFF⟩) = true ∧ WellFormed (.scrollVHLeft ⟨0, 0, 0, 7, 1⟩) = true ∧
    WellFormed (.setVscrollArea 0 64) = true ∧ WellFormed (.txnCommand [0xE3]) = true ∧
    WellFormed (.txnData [0x00]) = true := by decide

/-! ## Decoding: a word of the spec for every constructor -/

/-- R52, the encodings of the vectors. -/
theorem test_decode_requests :
    decode .request [0x00, 0x01, 0x3D] = .ok (.construct 0x01 0x3D) ∧
    decode .request [0x01, 0x00, 0x00] = .ok .clear ∧
    decode .request [0x02, 0x00, 0x00, 0xFF, 0x01] = .ok (.draw [0xFF, 0x01]) ∧
    decode .request [0x03, 0x02, 0x0C] = .ok (.setCursor 2 12) ∧
    decode .request [0x04, 0x00, 0x00, 0x48, 0x69] = .ok (.write [0x48, 0x69]) ∧
    decode .request [0x05, 0x00, 0x00] = .ok (.invert false) ∧
    decode .request [0x06, 0x01, 0x00] = .ok (.dim true) ∧
    decode .request [0x07, 0x00, 0x07] = .ok (.startscrollright 0 7) ∧
    decode .request [0x08, 0x02, 0x05] = .ok (.startscrollleft 2 5) ∧
    decode .request [0x09, 0x01, 0x03] = .ok (.startscrolldiagleft 1 3) ∧
    decode .request [0x0A, 0x00, 0x01] = .ok (.startscrolldiagright 0 1) ∧
    decode .request [0x0B, 0x00, 0x00] = .ok .stopscroll ∧
    decode .request [0x0C, 0x00, 0x00] = .ok .teardown := by decide

/-- R120 to R132, R137: V-CM1 to V-CM11. -/
theorem test_decode_display_and_scroll :
    decode .transport [0x00, 0x81, 0xCF] = .ok (.setContrast 0xCF) ∧
    decode .transport [0x00, 0xAE] = .ok .displayOff ∧ decode .transport [0x00, 0xAF] = .ok .displayOn ∧
    decode .transport [0x00, 0xA6] = .ok .normalDisplay ∧ decode .transport [0x00, 0xA7] = .ok .inverseDisplay ∧
    decode .transport [0x00, 0xA4] = .ok .entireResume ∧ decode .transport [0x00, 0xA5] = .ok .entireOn ∧
    decode .transport [0x00, 0x26, 0x00, 0x01, 0x02, 0x07, 0x00, 0xFF] =
      .ok (.scrollHRight ⟨0x00, 1, 2, 7, 0x00, 0xFF⟩) ∧
    decode .transport [0x00, 0x27, 0x00, 0x03, 0x00, 0x04, 0x00, 0xFF] =
      .ok (.scrollHLeft ⟨0x00, 3, 0, 4, 0x00, 0xFF⟩) ∧
    decode .transport [0x00, 0x29, 0x00, 0x02, 0x05, 0x06, 0x01] = .ok (.scrollVHRight ⟨0x00, 2, 5, 6, 1⟩) ∧
    decode .transport [0x00, 0x2A, 0x00, 0x01, 0x07, 0x02, 0x3F] = .ok (.scrollVHLeft ⟨0x00, 1, 7, 2, 0x3F⟩) ∧
    decode .transport [0x00, 0x2E] = .ok .scrollDeactivate ∧ decode .transport [0x00, 0x2F] = .ok .scrollActivate ∧
    decode .transport [0x00, 0xA3, 0x01, 0x40] = .ok (.setVscrollArea 1 64) := by decide

/-- R133 to R135: V-CM12 to V-CM16; the last values of each field, and the first byte past it. -/
theorem test_decode_addressing :
    decode .transport [0x00, 0xB5] = .ok (.setPageStart 5) ∧ decode .transport [0x00, 0xB7] = .ok (.setPageStart 7) ∧
    decode .transport [0x00, 0x00] = .ok (.setColLow 0) ∧ decode .transport [0x00, 0x0F] = .ok (.setColLow 15) ∧
    decode .transport [0x00, 0x10] = .ok (.setColHigh 0) ∧ decode .transport [0x00, 0x17] = .ok (.setColHigh 7) ∧
    decode .transport [0x00, 0x18] = .ok (.txnCommand [0x18]) ∧
    decode .transport [0x00, 0xB8] = .ok (.txnCommand [0xB8]) := by decide

/-- R139. -/
theorem test_decode_init_only :
    decode .transport [0x00, 0xD5, 0x80] = .ok (.setClockDiv 0x80) ∧
    decode .transport [0x00, 0xA8, 0x3F] = .ok (.setMultiplex 0x3F) ∧
    decode .transport [0x00, 0xD3, 0x01] = .ok (.setDisplayOffset 1) ∧
    decode .transport [0x00, 0x40] = .ok (.setStartLine 0) ∧ decode .transport [0x00, 0x7F] = .ok (.setStartLine 63) ∧
    decode .transport [0x00, 0x8D, 0x14] = .ok (.chargePump 0x14) ∧
    decode .transport [0x00, 0x20, 0x02] = .ok (.setAddressingMode 2) ∧
    decode .transport [0x00, 0xA0] = .ok (.segRemap false) ∧ decode .transport [0x00, 0xA1] = .ok (.segRemap true) ∧
    decode .transport [0x00, 0xC0] = .ok (.comScanDir false) ∧
    decode .transport [0x00, 0xC8] = .ok (.comScanDir true) ∧
    decode .transport [0x00, 0xDA, 0x12] = .ok (.setComPins 0x12) ∧
    decode .transport [0x00, 0xD9, 0xF1] = .ok (.setPrecharge 0xF1) ∧
    decode .transport [0x00, 0xDB, 0x40] = .ok (.setVcomh 0x40) := by decide

/-- R59: data, and a command the tables do not name. -/
theorem test_decode_transactions :
    decode .transport [0x40, 0x7F, 0x00] = .ok (.txnData [0x7F, 0x00]) ∧
    decode .transport [0x00, 0xE3] = .ok (.txnCommand [0xE3]) ∧
    decode .transport [0x00, 0x81] = .ok (.txnCommand [0x81]) := by decide

/-- R50, R56 and V-LC10, R59, R64: what is no instruction. -/
theorem test_decode_rejects :
    decode .request [0x0D, 0x00, 0x00] = .error (.reservedOp 0x0D) ∧
    decode .request [0xFF, 0x00, 0x00] = .error (.reservedOp 0xFF) ∧
    decode .request [0x01, 0x00] = .error .shortRequest ∧
    decode .transport [] = .error .emptyTransaction ∧ decode .transport [0x40] = .error .emptyTransaction ∧
    decode .transport [0x80, 0x01] = .error (.badControl 0x80) := by decide

/-- No first byte belongs to two rows of the command table. -/
theorem test_command_rows_disjoint :
    ∀ op : Byte, (commandTable.filter (·.accepts op)).length ≤ 1 := by decide +kernel

/-- The table's words, bit 0 first: 05 01 00; 81 CF; A3 00 40; 40 FF; 0D, past the request
codes; E3, in no row. -/
theorem test_decode_table_words :
    decodeTableWord 24 0x000105 = some (.invert true) ∧ decodeTableWord 16 0xCF81 = some (.setContrast 0xCF) ∧
    decodeTableWord 24 0x4000A3 = some (.setVscrollArea 0x00 0x40) ∧
    decodeTableWord 16 0xFF40 = some (.txnData [0xFF]) ∧ decodeTableWord 8 0x0D = some (.setColLow 13) ∧
    decodeTableWord 8 0xE3 = none := by decide

/-! ## The configuration -/

theorem test_default_config :
    defaultConfig.valid = true ∧ defaultConfig.fbLen = 1024 ∧ defaultConfig.cellW = 6 ∧
    defaultConfig.initSeq.length = 17 ∧ vectorCfg.valid = true ∧ smallCfg.valid = true := by decide

/-- R141, row 11: the default table follows `CONTRAST_NORMAL`; a table that is given does not. -/
theorem test_default_init_contrast :
    ({ defaultConfig with contrastNormal := 0x42 } : Config).initSeq[10]? = some [0x81, 0x42] ∧
    defaultConfig.initSeq[10]? = some [0x81, 0xCF] ∧
    ({ smallCfg with contrastNormal := 0x42 } : Config).initSeq = smallCfg.initSeq := by decide

/-- R140 holds of the default table, and R116 needs its scroll commands in order. -/
theorem test_default_init_premises :
    initEstablishes defaultConfig = true ∧ initScrollQuiet defaultConfig = true ∧
    initScrollQuiet smallCfg = true := by decide

/-- R31, with the glyph of S2: column 0 = 0x7F at page 2 lights rows 16 to 22 and not row 23. -/
theorem test_pixel :
    pixel vectorCfg [(256, 0x7F)] 16 0 = true ∧ pixel vectorCfg [(256, 0x7F)] 22 0 = true ∧
    pixel vectorCfg [(256, 0x7F)] 23 0 = false := by decide

/-! ## Operations -/

/-- V-LC1. -/
theorem test_construct :
    gives State.reset (step { given State.reset [0x00, 0x00, 0x3C] (ok 17) with openAnswers := [.ack] }) 0x00
      ([.topen 0x00 0x3C .ack, w00 [0xAE], w00 [0xD5, 0x80], w00 [0xA8, 0x3F], w00 [0xD3, 0x00], w00 [0x40],
        w00 [0x8D, 0x14]] ++
       [w00 [0x20, 0x02], w00 [0xA1], w00 [0xC8], w00 [0xDA, 0x12], w00 [0x81, 0xCF], w00 [0xD9, 0xF1]] ++
       [w00 [0xDB, 0x40], w00 [0xA4], w00 [0xA6], w00 [0x2E], w00 [0xAF]])
      (fun t => driverIs (· == Driver.fresh 0x00 0x3C) t && t.handle) = true := by decide

/-- V-LC3. -/
theorem test_construct_fails :
    gives State.reset
      (step { given State.reset [0x00, 0x00, 0x3C] (ok 3 ++ [.fail]) with openAnswers := [.ack] }) 0x02
      [.topen 0x00 0x3C .ack, w00 [0xAE], w00 [0xD5, 0x80], w00 [0xA8, 0x3F], w00fail [0xD3, 0x00], .trelease]
      (fun t => t.phase == .closed && !t.handle) = true := by decide

/-- V-FB1 at the small geometry, from a framebuffer that is not zero. -/
theorem test_clear :
    gives small (step (given (openState smallCfg fun d => { d with fb := [(3, 0x55)], cur := ⟨1, 2⟩ })
      [0x01, 0x55, 0xAA, 0x01, 0x02] (ok 11))) 0x00
      [w00 [0xB0], w00 [0x00], w00 [0x10], w40 [0, 0, 0, 0, 0, 0, 0, 0],
       w00 [0xB1], w00 [0x00], w00 [0x10], w40 [0, 0, 0, 0, 0, 0, 0, 0], w00 [0xB1], w00 [0x02], w00 [0x10]]
      (driverIs fun d => d.fb == [] && d.cur == ⟨1, 2⟩ && !d.gUnknown && !d.gDrawn) = true := by decide

/-- V-FB9: the ghost flag. -/
theorem test_clear_while_scrolling :
    gives small (step (given (openState smallCfg fun d => { d with scrolling := .right }) [0x01, 0x00, 0x00]
      [.fail])) 0x02 [w00fail [0xB0]]
      (driverIs fun d => d.gDrawn && d.gUnknown && d.scrolling == .right) = true := by decide

/-- V-FB3 at the small geometry: page slices in order, closing triple at the cursor. -/
theorem test_draw :
    gives small (step (given small
      [0x02, 0x00, 0x00, 0x10, 0x11, 0x12, 0x13, 0x14, 0x15, 0x16, 0x17, 0x20, 0x21, 0x22, 0x23, 0x24, 0x25, 0x26,
       0x27] (ok 11))) 0x00
      [w00 [0xB0], w00 [0x00], w00 [0x10], w40 [0x10, 0x11, 0x12, 0x13, 0x14, 0x15, 0x16, 0x17],
       w00 [0xB1], w00 [0x00], w00 [0x10], w40 [0x20, 0x21, 0x22, 0x23, 0x24, 0x25, 0x26, 0x27],
       w00 [0xB0], w00 [0x00], w00 [0x10]]
      (driverIs fun d => d.fb.read 0 == 0x10 && d.fb.read 9 == 0x21 && d.fb.read 15 == 0x27) = true := by decide

/-- V-FB4 and V-EX2 at the small geometry: 15 bytes, the Transport set to fail. -/
theorem test_draw_wrong_length :
    gives small (step (given small [0x02, 0, 0, 1, 2, 3, 4, 5, 6, 7, 8, 9, 10, 11, 12, 13, 14, 15] [.fail])) 0x03 []
      (driverIs fun d => d.fb == [] && !d.gUnknown) = true := by decide

/-- V-CT3. -/
theorem test_setCursor :
    gives fresh (step (given fresh [0x03, 0x07, 0x5A] (ok 3))) 0x00 [w00 [0xB7], w00 [0x0A], w00 [0x15]]
      (driverIs fun d => d.cur == ⟨7, 90⟩) = true := by decide

/-- V-CT8. -/
theorem test_setCursor_fails :
    gives fresh (step (given fresh [0x03, 0x05, 0x4D] [.ok, .fail])) 0x02 [w00 [0xB5], w00fail [0x0D]]
      (driverIs fun d => d.cur == ⟨0, 0⟩ && d.gUnknown) = true := by decide

/-- V-CT9. -/
theorem test_write :
    gives fresh (step (given (openState vectorCfg fun d => { d with cur := ⟨2, 0⟩ })
      [0x04, 0x00, 0x00, 0x48, 0x69] (ok 2))) 0x00
      [w40 [0x7F, 0x08, 0x08, 0x08, 0x7F, 0x00], w40 [0x00, 0x44, 0x7D, 0x40, 0x00, 0x00]]
      (driverIs fun d => d.cur == ⟨2, 12⟩ && d.fb == [(256, 0x7F), (257, 0x08), (258, 0x08), (259, 0x08), (260, 0x7F),
        (263, 0x44), (264, 0x7D), (265, 0x40)]) = true := by decide

/-- S3: wraps after the second cell, from the last page to page 0. -/
theorem test_write_wraps :
    gives fresh (step (given (openState vectorCfg fun d => { d with cur := ⟨7, 116⟩ })
      [0x04, 0x00, 0x00, 0x48, 0x69, 0x48] (ok 6))) 0x00
      [w40 [0x7F, 0x08, 0x08, 0x08, 0x7F, 0x00], w40 [0x00, 0x44, 0x7D, 0x40, 0x00, 0x00],
       w00 [0xB0], w00 [0x00], w00 [0x10], w40 [0x7F, 0x08, 0x08, 0x08, 0x7F, 0x00]]
      (driverIs fun d => d.cur == ⟨0, 6⟩ && d.fb.read 0 == 0x7F && d.fb.read 1012 == 0x7F && d.fb.read 1019 == 0x44
        && d.fb.read 6 == 0x00) = true := by decide

/-- V-DM4. -/
theorem test_invert :
    gives fresh (step (given fresh [0x05, 0x02, 0x00] [.ok])) 0x00 [w00 [0xA7]]
      (driverIs fun d => d.inverted && !d.dimmed) = true := by decide

/-- V-DM2, from inverted. -/
theorem test_invert_false :
    gives fresh (step (given (openState vectorCfg fun d => { d with inverted := true }) [0x05, 0x00, 0x00] [.ok]))
      0x00 [w00 [0xA6]] (driverIs fun d => !d.inverted) = true := by decide

/-- V-DM6. -/
theorem test_dim :
    gives fresh (step (given fresh [0x06, 0x01, 0x00] [.ok])) 0x00 [w00 [0x81, 0x00]]
      (driverIs fun d => d.dimmed && !d.inverted) = true := by decide

/-- V-DM7. -/
theorem test_dim_false :
    gives fresh (step (given (openState vectorCfg fun d => { d with dimmed := true }) [0x06, 0x00, 0x00] [.ok]))
      0x00 [w00 [0x81, 0xCF]] (driverIs fun d => !d.dimmed) = true := by decide

/-- V-SC1. -/
theorem test_startscrollright :
    gives fresh (step (given fresh [0x07, 0x00, 0x07] (ok 2))) 0x00
      [w00 [0x26, 0x00, 0x00, 0x00, 0x07, 0x00, 0xFF], w00 [0x2F]] (driverIs (·.scrolling == .right)) = true := by decide

/-- V-SC7. -/
theorem test_startscrollright_out_of_range :
    gives fresh (step (given fresh [0x07, 0x00, 0x08] [.fail])) 0x04 []
      (driverIs fun d => d.scrolling == .none && !d.gUnknown) = true := by decide

/-- V-SC2. -/
theorem test_startscrollleft :
    gives fresh (step (given fresh [0x08, 0x02, 0x05] (ok 2))) 0x00
      [w00 [0x27, 0x00, 0x02, 0x00, 0x05, 0x00, 0xFF], w00 [0x2F]] (driverIs (·.scrolling == .left)) = true := by decide

/-- V-SC12: the stop goes out, the setup fails. -/
theorem test_startscrollleft_fails :
    gives fresh (step (given (openState vectorCfg fun d => { d with scrolling := .right }) [0x08, 0x00, 0x07]
      [.ok, .fail])) 0x02 [w00 [0x2E], w00fail [0x27, 0x00, 0x00, 0x00, 0x07, 0x00, 0xFF]]
      (driverIs fun d => d.scrolling == .right && d.gUnknown) = true := by decide

/-- V-SC4. -/
theorem test_startscrolldiagleft :
    gives fresh (step (given (openState vectorCfg fun d => { d with scrolling := .right }) [0x09, 0x01, 0x03] (ok 4)))
      0x00 [w00 [0x2E], w00 [0xA3, 0x00, 0x40], w00 [0x2A, 0x00, 0x01, 0x00, 0x03, 0x01], w00 [0x2F]]
      (driverIs (·.scrolling == .diagLeft)) = true := by decide

/-- V-CM18 and V-CM19: the parameters come from the configuration. -/
theorem test_startscrolldiagleft_parameters :
    gives fresh (step (given (openState { vectorCfg with pages := 4, scrollInterval := 0x07, scrollVOffset := 0x3F } id)
      [0x09, 0x01, 0x02] (ok 3))) 0x00
      [w00 [0xA3, 0x00, 0x20], w00 [0x2A, 0x00, 0x01, 0x07, 0x02, 0x3F], w00 [0x2F]]
      (driverIs (·.scrolling == .diagLeft)) = true := by decide

/-- V-SC3. -/
theorem test_startscrolldiagright :
    gives fresh (step (given fresh [0x0A, 0x00, 0x00] (ok 3))) 0x00
      [w00 [0xA3, 0x00, 0x40], w00 [0x29, 0x00, 0x00, 0x00, 0x00, 0x01], w00 [0x2F]]
      (driverIs (·.scrolling == .diagRight)) = true := by decide

/-- V-SC10. -/
theorem test_stopscroll :
    gives fresh (step (given (openState vectorCfg fun d => { d with scrolling := .right, gDrawn := true })
      [0x0B, 0x00, 0x00] [.ok])) 0x00 [w00 [0x2E]] (driverIs fun d => d.scrolling == .none && d.gDrawn) = true := by
  decide

/-- V-SC13. -/
theorem test_stopscroll_fails :
    gives fresh (step (given (openState vectorCfg fun d => { d with scrolling := .right }) [0x0B, 0x00, 0x00] [.fail]))
      0x02 [w00fail [0x2E]] (driverIs fun d => d.scrolling == .right && d.gUnknown) = true := by decide

/-- V-LC4 at the small geometry. -/
theorem test_teardown :
    gives small (step (given (openState smallCfg fun d => { d with cur := ⟨1, 6⟩, scrolling := .left })
      [0x0C, 0x00, 0x00] (ok 12))) 0x00
      [w00 [0x2E], w00 [0xB0], w00 [0x00], w00 [0x10], w40 [0, 0, 0, 0, 0, 0, 0, 0],
       w00 [0xB1], w00 [0x00], w00 [0x10], w40 [0, 0, 0, 0, 0, 0, 0, 0], w00 [0xB1], w00 [0x06], w00 [0x10], .trelease]
      (fun t => t.phase == .closed && !t.handle) = true := by decide

/-- V-LC5. -/
theorem test_teardown_fails :
    gives small (step (given small [0x0C, 0x00, 0x00] [.ok, .ok, .fail])) 0x02
      [w00 [0x2E], w00 [0xB0], w00fail [0x00], .trelease] (fun t => t.phase == .closed && !t.handle) = true := by decide

/-- V-LC6, V-LC7, V-EX1: refused, whatever the operands. -/
theorem test_wrong_phase :
    refuses (step (given State.reset [0x01, 0x00, 0x00] (ok 40))) .wrongPhase = true ∧
    refuses (step (given State.reset [0x03, 0x09, 0xC8] (ok 3))) .wrongPhase = true ∧
    refuses (step (given fresh [0x00, 0x00, 0x3C] (ok 17))) .wrongPhase = true := by decide

/-- V-EX8: a Transport that never answers leaves the operation at `seq = 0`. -/
theorem test_hang :
    (after (step (given fresh [0x05, 0x01, 0x00] []))).sequencer =
      .emitting ⟨[⟨0x00, [0xA7]⟩], 0, .update { Driver.fresh 0x00 0x3C with inverted := true }⟩ ∧
    (after (step (given fresh [0x05, 0x01, 0x00] []))).response = none ∧
    (after (step (given fresh [0x05, 0x01, 0x00] []))).req = some ⟨0x05, 0x01, 0x00, []⟩ := by decide

/-- R21 (b), R73: a `construct` whose `TOpen` is not answered holds the handle; a late `noack` releases it. -/
theorem test_construct_hangs :
    let t := after (step (given State.reset [0x00, 0x00, 0x3C] []))
    t.handle = true ∧ t.sequencer = .opening 0x00 0x3C ∧ t.trace = [] ∧ t.phase = .closed ∧
    gives t (step { t with openAnswers := [.noack] }) 0x01 [.topen 0x00 0x3C .noack, .trelease]
      (fun u => u.phase == .closed && !u.handle && u.sequencer == .idle && u.req == none) = true := by decide

/-! ## Device commands and transactions -/

/-- A state in the middle of a plan of three transactions, whose next call is answered. -/
def planState (control : Byte) (payload : List Byte) (seq : Nat) (answers : List WriteAnswer) : State :=
  { small with
    sequencer := .emitting ⟨[⟨control, payload⟩, ⟨control, payload⟩, ⟨control, payload⟩], seq,
      .update { Driver.fresh 0x00 0x3C with inverted := true }⟩
    writeAnswers := answers }

/-- Every device command sends its payload of R120 to R139 as one transaction to 0x00 and moves `seq` on by one. -/
theorem test_device_commands_sent :
    ([(Instr.setContrast 0xCF, [0x81, 0xCF]), (.displayOff, [0xAE]), (.displayOn, [0xAF]), (.normalDisplay, [0xA6]),
      (.inverseDisplay, [0xA7]), (.entireResume, [0xA4]), (.entireOn, [0xA5])] ++
     [(Instr.scrollHRight ⟨0, 0, 0, 7, 0, 0xFF⟩, [0x26, 0x00, 0x00, 0x00, 0x07, 0x00, 0xFF]),
      (.scrollHLeft ⟨0, 3, 0, 3, 0, 0xFF⟩, [0x27, 0x00, 0x03, 0x00, 0x03, 0x00, 0xFF]),
      (.scrollVHRight ⟨0, 2, 0, 6, 1⟩, [0x29, 0x00, 0x02, 0x00, 0x06, 0x01]),
      (.scrollVHLeft ⟨0, 0, 0, 7, 1⟩, [0x2A, 0x00, 0x00, 0x00, 0x07, 0x01]),
      (.scrollDeactivate, [0x2E]), (.scrollActivate, [0x2F]), (.setVscrollArea 0 64, [0xA3, 0x00, 0x40])] ++
     [(Instr.setPageStart 5, [0xB5]), (.setColLow 13, [0x0D]), (.setColHigh 4, [0x14]), (.setClockDiv 0x80, [0xD5, 0x80]),
      (.setMultiplex 0x3F, [0xA8, 0x3F]), (.setDisplayOffset 0, [0xD3, 0x00]), (.setStartLine 0, [0x40])] ++
     [(Instr.chargePump 0x14, [0x8D, 0x14]), (.setAddressingMode 2, [0x20, 0x02]), (.segRemap true, [0xA1]),
      (.comScanDir true, [0xC8]), (.setComPins 0x12, [0xDA, 0x12]), (.setPrecharge 0xF1, [0xD9, 0xF1]),
      (.setVcomh 0x40, [0xDB, 0x40]), (.txnCommand [0xE3], [0xE3])]).all (fun x =>
        let t := after (exec x.1 (planState 0x00 x.2 1 [.ok]))
        t.trace == [w00 x.2] && t.writeAnswers == [] && t.response == none &&
          t.sequencer == (planState 0x00 x.2 2 []).sequencer) = true := by decide

/-- The last transaction of a plan commits; a failed one aborts. -/
theorem test_last_transaction :
    gives small (exec (.txnData [0x7F]) (planState 0x40 [0x7F] 2 [.ok])) 0x00 [w40 [0x7F]]
      (driverIs (·.inverted)) = true ∧
    gives small (exec (.txnData [0x7F]) (planState 0x40 [0x7F] 0 [.fail])) 0x02 [w40fail [0x7F]]
      (driverIs fun d => !d.inverted && d.gUnknown) = true := by decide

/-- A table word, placed, is what the next step runs. -/
theorem test_withFetchWord :
    (after (step (State.reset.withFetchWord 16 0xCF81))).sequencer =
      .emitting ⟨[⟨0x00, [0x81, 0xCF]⟩], 0, .build 0x00 0x00⟩ ∧
    (after (step (State.reset.withFetchWord 24 0x3C0000))).sequencer = .opening 0x00 0x3C := by decide

/-! ## Witnesses: for every statement with hypotheses, concrete values that meet them -/

/-- Whether a result is a next state. -/
def isNext (r : Result) : Bool :=
  match r with
  | .next _ => true
  | .fault _ | .refused _ => false

/-- A result that is a next state is the one `after` gives. -/
theorem next_after (r : Result) (h : isNext r = true) : r = .next (after r) := by
  cases r <;> simp_all [isNext, after]

/-- The driver of `fresh` and `small`, and one that is scrolling with its cursor elsewhere. -/
def d0 : Driver := Driver.fresh 0x00 0x3C
def d1 : Driver := { d0 with cur := ⟨1, 2⟩, scrolling := .right, gDrawn := true, fb := [(3, 0x55)] }

/-- `small`, the closed block, and the scrolling driver, with the Transport's next answers. -/
def smallA (answers : List WriteAnswer) : State := { small with writeAnswers := answers }
def scrollA (answers : List WriteAnswer) : State := { small with phase := .opened d1, writeAnswers := answers }
def closedA (opens : List OpenAnswer) (answers : List WriteAnswer) : State :=
  { State.reset with cfg := smallCfg, openAnswers := opens, writeAnswers := answers }

theorem witness_ready (answers : List WriteAnswer) :
    Ready (smallA answers) d0 ∧ Ready (scrollA answers) d1 ∧ d0.cur.valid smallCfg = true ∧
    d1.cur.valid smallCfg = true ∧ d0.wf smallCfg = true ∧ d1.wf smallCfg = true :=
  have h : smallCfg.valid = true := by decide
  ⟨⟨h, rfl, rfl⟩, ⟨h, rfl, rfl⟩, by decide, by decide, by decide, by decide⟩

/-! ### Reset, fetch and refusal -/

theorem witness_StepRunsNextRequest :
    (given small [0x04, 0x00, 0x00, 0x48] [.ok]).sequencer = .idle ∧
    (given small [0x04, 0x00, 0x00, 0x48] [.ok]).requests = (0x04 :: 0x00 :: 0x00 :: [0x48]) :: [] ∧
    decode .request (0x04 :: 0x00 :: 0x00 :: [0x48]) = .ok (.write [0x48]) := ⟨rfl, rfl, rfl⟩

theorem witness_StepRunsPlannedTransaction :
    ∃ e, (planState 0x40 [0x7F] 1 [.ok]).sequencer = .emitting e ∧ e.plan[e.seq]? = some ⟨0x40, [0x7F]⟩ ∧
      decode .transport [0x40, 0x7F] = .ok (.txnData [0x7F]) := ⟨_, rfl, rfl, by decide⟩

theorem witness_StepWaitsForInput :
    (State.reset.sequencer = .idle ∧ State.reset.requests = []) ∧
    (∃ s : State, s.sequencer = .opening 0x00 0x3C ∧ s.handle = true ∧ s.openAnswers = []) ∧
    (∃ e, (planState 0x40 [0x7F] 2 []).sequencer = .emitting e ∧
      e.wf (planState 0x40 [0x7F] 2 []).cfg (planState 0x40 [0x7F] 2 []).phase = true ∧
      (planState 0x40 [0x7F] 2 []).writeAnswers = []) :=
  ⟨⟨rfl, rfl⟩, ⟨{ State.reset with handle := true, sequencer := .opening 0x00 0x3C }, rfl, rfl, rfl⟩,
    ⟨_, rfl, by decide, rfl⟩⟩

theorem witness_ReservedOperationsRefused :
    ((given small [0x0D, 0x00, 0x00] []).sequencer = .idle ∧
      (given small [0x0D, 0x00, 0x00] []).requests = (0x0D :: 0x00 :: 0x00 :: []) :: [] ∧
      0x0D ≤ (0x0D : Byte).toNat) ∧
    ((given small [0xFF, 0x01, 0x02] []).requests = (0xFF :: 0x01 :: 0x02 :: []) :: [] ∧
      0x0D ≤ (0xFF : Byte).toNat) := ⟨⟨rfl, rfl, by decide⟩, rfl, by decide⟩

theorem witness_WrongPhaseRefused :
    (State.reset.cfg.valid = true ∧ State.reset.sequencer = .idle ∧ State.reset.phase = .closed ∧
      Instr.format .teardown = .req ∧ ∀ b a, Instr.teardown ≠ .construct b a) ∧
    (small.cfg.valid = true ∧ small.sequencer = .idle ∧ small.phase = .opened d0 ∧
      Instr.format (.construct 0x00 0x3C) = .req) :=
  ⟨⟨by decide, rfl, rfl, rfl, fun _ _ => Instr.noConfusion⟩, by decide, rfl, rfl, rfl⟩

theorem witness_OverlappingRequestRefused :
    (planState 0x40 [0x7F] 1 []).cfg.valid = true ∧ (planState 0x40 [0x7F] 1 []).sequencer ≠ .idle ∧
    Instr.format .clear = .req := ⟨by decide, Sequencer.noConfusion, rfl⟩

/-- Each constraint of R6 broken at its boundary. -/
theorem witness_BadConfigurationRefused :
    ([{ smallCfg with pages := 0 }, { smallCfg with pages := 9 }, { smallCfg with columns := 0 },
      { smallCfg with columns := 129 }, { smallCfg with columns := 5 }, { smallCfg with glyphW := 0 },
      { smallCfg with font := [(0x48, [0x7F])] }, { smallCfg with fallbackGlyph := [] },
      { smallCfg with initTable := some [[0xAF], []] }] : List Config).all (fun cfg =>
        !(decide (1 ≤ cfg.pages ∧ cfg.pages ≤ 8 ∧ 1 ≤ cfg.columns ∧ cfg.columns ≤ 128 ∧ 1 ≤ cfg.glyphW ∧
            cfg.cellW ≤ cfg.columns ∧ (∀ g ∈ cfg.font, g.2.length = cfg.glyphW) ∧
            cfg.fallbackGlyph.length = cfg.glyphW ∧ (∀ c ∈ cfg.initSeq, c ≠ []))) &&
          refuses (exec .clear (openState cfg id)) .badConfiguration) = true := by decide

theorem witness_TransactionWithoutPlanRefused :
    Instr.format (.txnData [0x7F]) ≠ .req ∧ WellFormed (.txnData [0x7F]) = true ∧
    (∀ e, small.sequencer ≠ .emitting e) ∧ Instr.format .displayOn ≠ .req ∧ WellFormed .displayOn = true :=
  ⟨by decide, by decide, fun _ => Sequencer.noConfusion, by decide, by decide⟩

/-! ### Encodings -/

/-- Every field at its last value. -/
theorem witness_DecodeOfEncode :
    WellFormed (.setVscrollArea 63 127) = true ∧ WellFormed (.setMultiplex 63) = true ∧
    WellFormed (.setDisplayOffset 63) = true ∧ WellFormed (.setAddressingMode 2) = true ∧
    WellFormed (.scrollHLeft ⟨0, 7, 0xFF, 7, 0, 0xFF⟩) = true ∧
    WellFormed (.scrollVHRight ⟨0, 7, 0xFF, 7, 0xFF⟩) = true ∧ WellFormed (.setPageStart 7) = true ∧
    WellFormed (.txnCommand [0x81]) = true := by decide

theorem witness_TransactionDecodingLosesNothing :
    decode .transport [0x00, 0xB7] = .ok (.setPageStart 7) ∧ decode .transport [0x40, 0x01] = .ok (.txnData [0x01]) ∧
    decode .transport [0x00, 0x18] = .ok (.txnCommand [0x18]) := by decide

/-! ### Lifecycle -/

/-- A `construct` whose `TOpen` hung, with the answers that have come since. -/
def openingA (opens : List OpenAnswer) (answers : List WriteAnswer) : State :=
  { closedA opens answers with handle := true, sequencer := .opening 0x00 0x3C }

theorem witness_ConstructCompletes :
    ReadyClosed (closedA [.noack] []) ∧
    (ReadyClosed (closedA [.ack] (ok 4)) ∧ (closedA [.ack] (ok 4)).writeAnswers = oks smallCfg.initSeq.length []) ∧
    (smallCfg.initSeq[0]? = some [0x20, 0x02] ∧ (closedA [.ack] [.fail]).writeAnswers = oks 0 (.fail :: [])) ∧
    (smallCfg.initSeq[3]? = some [0xAF] ∧
      (closedA [.ack] [.ok, .ok, .ok, .fail]).writeAnswers = oks 3 (.fail :: [])) :=
  ⟨⟨by decide, rfl, rfl⟩, ⟨⟨by decide, rfl, rfl⟩, by decide⟩, by decide, by decide⟩

/-- The same answers, come late: every clause of `ConstructEnds` in the step that finds them. -/
theorem witness_ConstructCompletes_late :
    (openingA [.noack] []).sequencer = .opening 0x00 0x3C ∧ (openingA [.noack] []).phase = .closed ∧
    (openingA [.noack] []).openAnswers = .noack :: [] ∧ (openingA [.ack] (ok 4)).openAnswers = .ack :: [] ∧
    (initWrites smallCfg).length = 4 ∧ (openingA [.ack] (ok 4)).writeAnswers = oks 4 [] ∧
    (initWrites smallCfg)[0]? = some (W 0x00 [0x20, 0x02]) ∧
    (openingA [.ack] [.fail]).writeAnswers = oks 0 (.fail :: []) ∧
    (initWrites smallCfg)[3]? = some (W 0x00 [0xAF]) ∧
    (openingA [.ack] (oks 3 [.fail])).writeAnswers = oks 3 (.fail :: []) := by decide

/-- The plans that `teardown` and `clear` send from `d1` have 12 and 11 transactions; their last ones. -/
theorem witness_TeardownCompletes :
    (W 0x00 [0x2E] :: flush smallCfg (List.replicate smallCfg.fbLen 0x00) 1 2).length = 12 ∧
    (scrollA (ok 12)).writeAnswers = oks 12 [] ∧
    (W 0x00 [0x2E] :: flush smallCfg (List.replicate smallCfg.fbLen 0x00) 1 2)[11]? = some (W 0x00 [0x10]) ∧
    (scrollA (oks 11 [.fail])).writeAnswers = oks 11 (.fail :: []) ∧
    (scrollA [.fail]).writeAnswers = oks 0 (.fail :: []) := by decide

theorem witness_PhaseTransitions :
    exec (.construct 0x00 0x3C) (closedA [.ack] (ok 4)) =
      .next (after (exec (.construct 0x00 0x3C) (closedA [.ack] (ok 4)))) ∧
    exec .teardown (scrollA (ok 12)) = .next (after (exec .teardown (scrollA (ok 12)))) ∧
    exec (.invert true) (smallA [.ok]) = .next (after (exec (.invert true) (smallA [.ok]))) :=
  ⟨next_after _ (by decide), next_after _ (by decide), next_after _ (by decide)⟩

/-- A `construct` and a `teardown` that hung, with and without the answers that end them: well-formed states. -/
def lateStates : List State :=
  [openingA [.ack] (ok 4), openingA [.ack] (oks 1 [.fail]), openingA [] [],
    { after (exec (.construct 0x00 0x3C) (closedA [.ack] (ok 3))) with writeAnswers := [.ok] },
    { after (exec .teardown (scrollA (ok 11))) with writeAnswers := [.ok] },
    { after (exec .teardown (scrollA (ok 11))) with writeAnswers := [.fail] }, after (exec .teardown (scrollA []))]

theorem witness_PhaseTransitions_step :
    lateStates.all (fun s => s.wf && isNext (step s)) = true ∧
    lateStates.map runsConstruct = [true, true, true, true, false, false, false] ∧
    lateStates.map runsTeardown = [false, false, false, false, true, true, true] ∧
    lateStates.map (fun s => (after (step s)).phase.isOpen) = [true, false, false, true, false, false, true] ∧
    (given small [0x0C, 0x00, 0x00] (ok 12)).wf = true ∧ runsTeardown (given small [0x0C, 0x00, 0x00] (ok 12)) = true ∧
    (planState 0x40 [0x7F] 1 [.ok]).wf = true ∧ runsConstruct (planState 0x40 [0x7F] 1 [.ok]) = false ∧
    runsTeardown (planState 0x40 [0x7F] 1 [.ok]) = false := by decide

/-! ### Whole-buffer operations -/

theorem witness_ClearCompletes :
    (flush smallCfg (List.replicate smallCfg.fbLen 0x00) 1 2).length = 11 ∧
    (scrollA (ok 11)).writeAnswers = oks 11 [] ∧
    (flush smallCfg (List.replicate smallCfg.fbLen 0x00) 1 2)[10]? = some (W 0x00 [0x10]) ∧
    (scrollA (oks 10 [.fail])).writeAnswers = oks 10 (.fail :: []) := by decide

/-- A bitmap one byte short, one byte long, and exact. -/
theorem witness_DrawCompletes :
    (List.replicate 15 (0x01 : Byte)).length ≠ smallCfg.fbLen ∧
    (List.replicate 17 (0x01 : Byte)).length ≠ smallCfg.fbLen ∧
    (List.replicate 16 (0x01 : Byte)).length = smallCfg.fbLen ∧
    (flush smallCfg (List.replicate 16 (0x01 : Byte)) 1 2).length = 11 ∧
    (flush smallCfg (List.replicate 16 (0x01 : Byte)) 1 2)[7]? = some (W 0x40 (List.replicate 8 0x01)) ∧
    (scrollA (oks 7 [.fail])).writeAnswers = oks 7 (.fail :: []) := by decide

theorem witness_FramebufferLayout :
    vectorCfg.valid = true ∧ 7 < vectorCfg.pages ∧ 127 < vectorCfg.columns ∧ idx vectorCfg 7 127 = 1023 ∧
    1023 < vectorCfg.fbLen ∧ (List.replicate 16 (0x01 : Byte)).length = smallCfg.fbLen ∧ smallCfg.valid = true := by
  decide

theorem witness_DrawnBufferReadsBack :
    (exec (.draw (List.replicate 16 0x01)) (smallA (ok 11)) =
        .next (after (exec (.draw (List.replicate 16 0x01)) (smallA (ok 11)))) ∧
      (after (exec (.draw (List.replicate 16 0x01)) (smallA (ok 11)))).sequencer = .idle ∧
      (after (exec (.draw (List.replicate 16 0x01)) (smallA (ok 11)))).response = some .ok) ∧
    (exec .clear (scrollA (ok 11)) = .next (after (exec .clear (scrollA (ok 11)))) ∧
      (after (exec .clear (scrollA (ok 11)))).sequencer = .idle ∧
      (after (exec .clear (scrollA (ok 11)))).response = some .ok) :=
  ⟨⟨next_after _ (by decide), by decide, by decide⟩, next_after _ (by decide), by decide, by decide⟩

theorem witness_PlanLengthsBounded :
    isNext (exec .teardown (scrollA (ok 12))) = true ∧ isNext (exec .clear (scrollA (ok 11))) = true ∧
    isNext (exec (.write [0x48, 0x69]) (smallA (ok 14))) = true ∧
    isNext (exec (.startscrolldiagleft 0 1) (scrollA (ok 4))) = true := by decide

/-! ### Cursor and text -/

/-- The last cell of the panel, the first page past it, and the first column past it. -/
theorem witness_SetCursorCompletes :
    ((1 : Byte).toNat < smallCfg.pages ∧ (7 : Byte).toNat < smallCfg.columns) ∧
    ¬ ((2 : Byte).toNat < smallCfg.pages ∧ (0 : Byte).toNat < smallCfg.columns) ∧
    ¬ ((0 : Byte).toNat < smallCfg.pages ∧ (8 : Byte).toNat < smallCfg.columns) ∧
    (smallA (ok 3)).writeAnswers = oks (triple 1 7).length [] ∧
    (triple 1 7)[2]? = some (W 0x00 [0x10]) ∧ (smallA (oks 2 [.fail])).writeAnswers = oks 2 (.fail :: []) := by decide

/-- A character inside the font and one outside it. -/
theorem witness_CellOfCharacter :
    vectorCfg.valid = true ∧ ((0x48 : Byte), ([0x7F, 0x08, 0x08, 0x08, 0x7F] : List Byte)) ∈ vectorCfg.font ∧
    ∀ g, ((0x41 : Byte), g) ∉ vectorCfg.font := ⟨by decide, by decide, fun g h => by simp [vectorCfg, testFont] at h⟩

/-- No wrap (columns 0 and 1 of 8), a wrap after (column 2), a wrap before (columns 3 and 7): the cell is 6 wide. -/
theorem witness_WriteOfOneCharacter :
    ([(0, 1), (1, 1), (2, 4), (3, 4), (7, 4)] : List (Nat × Nat)).all (fun x =>
      let d := { d0 with cur := ⟨1, x.1⟩ }
      let s := { smallA (ok x.2) with phase := .opened d }
      let t := after (exec (.write [0x48]) s)
      d.wf smallCfg && isNext (exec (.write [0x48]) s) && t.response == some .ok && t.writeAnswers == [] &&
        t.trace.length == x.2) = true := by decide

theorem witness_WriteOfConcatenation :
    (smallA (oks (7 * ([0x48] ++ [0x69, 0x48] : List Byte).length) [])).writeAnswers = oks 21 [] ∧
    exec (.write [0x48]) (smallA (oks 21 [])) = .next (after (exec (.write [0x48]) (smallA (oks 21 [])))) :=
  ⟨by decide, next_after _ (by decide)⟩

theorem witness_WriteAlwaysCompletes :
    (smallA (oks (7 * ([0x00, 0xFF] : List Byte).length) [])).writeAnswers = oks 14 [] ∧
    (smallA []).writeAnswers = oks (7 * ([] : List Byte).length) [] := by decide

/-! ### Display mode and scroll -/

theorem witness_InvertCompletes :
    Ready (smallA [.ok]) d0 ∧ (smallA [.ok]).writeAnswers = .ok :: [] ∧
    Ready (smallA [.fail]) d0 ∧ (smallA [.fail]).writeAnswers = .fail :: [] :=
  ⟨(witness_ready _).1, rfl, (witness_ready _).1, rfl⟩

theorem witness_DimCompletes :
    Ready (scrollA [.ok]) d1 ∧ (scrollA [.ok]).writeAnswers = .ok :: [] ∧
    Ready (scrollA [.fail]) d1 ∧ (scrollA [.fail]).writeAnswers = .fail :: [] :=
  ⟨(witness_ready _).2.1, rfl, (witness_ready _).2.1, rfl⟩

/-- The whole panel, one page, an end page past the panel, a start page past the end page; the longest plan, and
its last transaction. -/
theorem witness_StartscrollCompletes :
    ((0 : Byte).toNat ≤ (1 : Byte).toNat ∧ (1 : Byte).toNat < smallCfg.pages) ∧
    ((1 : Byte).toNat ≤ (1 : Byte).toNat ∧ (1 : Byte).toNat < smallCfg.pages) ∧
    ¬ ((0 : Byte).toNat ≤ (2 : Byte).toNat ∧ (2 : Byte).toNat < smallCfg.pages) ∧
    ¬ ((1 : Byte).toNat ≤ (0 : Byte).toNat ∧ (0 : Byte).toNat < smallCfg.pages) ∧
    (scrollPlanOf smallCfg d1 .diagLeft 0 1).length = 4 ∧ (scrollPlanOf smallCfg d0 .right 0 1).length = 2 ∧
    (scrollA (ok 4)).writeAnswers = oks 4 [] ∧
    (scrollPlanOf smallCfg d1 .diagLeft 0 1)[3]? = some (W 0x00 [0x2F]) ∧
    (scrollA (oks 3 [.fail])).writeAnswers = oks 3 (.fail :: []) := by decide

theorem witness_StopscrollCompletes :
    Ready (scrollA [.ok]) d1 ∧ (scrollA [.ok]).writeAnswers = .ok :: [] ∧
    Ready (smallA [.fail]) d0 ∧ (smallA [.fail]).writeAnswers = .fail :: [] :=
  ⟨(witness_ready _).2.1, rfl, (witness_ready _).1, rfl⟩

/-! ### Failure, hang and frames -/

theorem witness_HungCallLeavesOperationInProgress :
    planned smallCfg .clear = true ∧ 0 < (planOf smallCfg d1 .clear).length ∧ (scrollA []).writeAnswers = oks 0 [] ∧
    10 < (planOf smallCfg d1 .clear).length ∧ (scrollA (ok 10)).writeAnswers = oks 10 [] ∧
    planned smallCfg (.startscrollleft 1 1) = true ∧ planned smallCfg (.setCursor 1 7) = true := by decide

/-- The `TOpen` and both ends of `INIT_SEQ`, of a `teardown`, and of a text that wraps after its first
character and before its third. -/
theorem witness_HungCall_lifecycle_and_write :
    (ReadyClosed (closedA [] []) ∧ (closedA [] []).openAnswers = []) ∧
    (ReadyClosed (closedA [.ack] (ok 3)) ∧ (closedA [.ack] (ok 3)).openAnswers = .ack :: [] ∧
      (initWrites smallCfg).length = 4 ∧ (closedA [.ack] (ok 3)).writeAnswers = oks 3 [] ∧
      (closedA [.ack] []).writeAnswers = oks 0 []) ∧
    ((teardownWrites smallCfg d1).length = 12 ∧ (scrollA (ok 11)).writeAnswers = oks 11 [] ∧
      (scrollA []).writeAnswers = oks 0 []) ∧
    ((textWrites smallCfg 1 2 [0x48, 0x69, 0x48]).length = 9 ∧ (scrollA (ok 8)).writeAnswers = oks 8 [] ∧
      textWrites smallCfg 1 2 [] = []) :=
  ⟨⟨⟨by decide, rfl, rfl⟩, rfl⟩, ⟨⟨by decide, rfl, rfl⟩, by decide⟩, by decide, by decide⟩

/-- A `write` of two cells that fails at its first and at its last write, sending nothing after it. -/
theorem witness_UnfinishedWrite_failed :
    (textWrites smallCfg 1 2 [0x48, 0x69])[0]? = some (W 0x40 [0x7F, 0x08, 0x08, 0x08, 0x7F, 0x00]) ∧
    (scrollA [.fail]).writeAnswers = oks 0 (.fail :: []) ∧
    (textWrites smallCfg 1 2 [0x48, 0x69])[4]? = some (W 0x40 [0x00, 0x44, 0x7D, 0x40, 0x00, 0x00]) ∧
    (scrollA (oks 4 [.fail])).writeAnswers = oks 4 (.fail :: []) := by decide

/-- A failed `write` and one without an answer. -/
theorem witness_UnfinishedWriteCommitsNothing :
    (exec (.write [0x48]) (scrollA [.fail]) = .next (after (exec (.write [0x48]) (scrollA [.fail]))) ∧
      (after (exec (.write [0x48]) (scrollA [.fail]))).response = some .transportError) ∧
    (exec (.write [0x48]) (scrollA []) = .next (after (exec (.write [0x48]) (scrollA []))) ∧
      (after (exec (.write [0x48]) (scrollA []))).response = none) :=
  ⟨⟨next_after _ (by decide), by decide⟩, next_after _ (by decide), by decide⟩

theorem witness_OpenOperationFrame :
    exec (.setCursor 1 7) (smallA (ok 3)) = .next (after (exec (.setCursor 1 7) (smallA (ok 3)))) ∧
    Instr.format (.setCursor 1 7) = .req ∧ isLifecycle (.setCursor 1 7) = false ∧
    (smallA (ok 3)).phase = .opened d0 ∧ writesFb (.setCursor 1 7) = false ∧ writesCur (.invert true) = false ∧
    writesInverted (.dim true) = false ∧ writesDimmed (.invert true) = false ∧ writesScrolling .clear = false :=
  ⟨next_after _ (by decide), rfl, rfl, rfl, rfl, rfl, rfl, rfl, rfl⟩

/-- A failed `construct`, and a `teardown` without answers. -/
theorem witness_LifecycleFrame :
    (exec (.construct 0x00 0x3C) (closedA [.noack] []) =
        .next (after (exec (.construct 0x00 0x3C) (closedA [.noack] []))) ∧
      isLifecycle (.construct 0x00 0x3C) = true ∧
      (after (exec (.construct 0x00 0x3C) (closedA [.noack] []))).response ≠ some .ok) ∧
    (exec .teardown (scrollA []) = .next (after (exec .teardown (scrollA []))) ∧ isLifecycle .teardown = true ∧
      (after (exec .teardown (scrollA []))).sequencer ≠ .idle) :=
  ⟨⟨next_after _ (by decide), rfl, by decide⟩, next_after _ (by decide), rfl, by decide⟩

theorem witness_ErrorMatrix :
    exec (.draw [0x01]) (smallA []) = .next (after (exec (.draw [0x01]) (smallA []))) ∧
    Instr.format (.draw [0x01]) = .req ∧ (after (exec (.draw [0x01]) (smallA []))).sequencer = .idle :=
  ⟨next_after _ (by decide), rfl, by decide⟩

/-! ### Device commands and transactions -/

/-- The state that `DisplayCommandsSent`, `ScrollCommandsSent`, `AddressingCommandsSent`, `InitCommandsSent` and
`TransactionsSent` start from, at the first and the last but one transaction of a plan of three. -/
theorem witness_InPlan :
    (∃ e, InPlan (planState 0x40 [0x7F] 0 [.ok]) e [] ∧ e.seq = 0) ∧
    (∃ e, InPlan (planState 0x40 [0x7F] 1 [.ok]) e [] ∧ e.seq + 2 = e.plan.length) ∧ ([0x7F] : List Byte) ≠ [] :=
  ⟨⟨_, ⟨rfl, by decide, rfl⟩, rfl⟩, ⟨_, ⟨rfl, by decide, rfl⟩, rfl⟩, by decide⟩

/-- A last transaction for each commit. -/
def lastState (p : Phase) (c : Commit) (answers : List WriteAnswer) : State :=
  { small with phase := p, sequencer := .emitting ⟨[⟨0x00, [0xAF]⟩], 0, c⟩, writeAnswers := answers }

theorem witness_LastTransactionEndsOperation :
    Instr.format .displayOn ≠ .req ∧ encode .displayOn = 0x00 :: [0xAF] ∧ ([0xAF] : List Byte) ≠ [] ∧
    ∀ c ∈ [Commit.update d1, .build 0x00 0x3C, .demolish],
      ∃ e, (lastState (.opened d0) c [.ok]).sequencer = .emitting e ∧ e.commit = c ∧ e.seq + 1 = e.plan.length ∧
        (lastState (.opened d0) c [.fail]).writeAnswers = .fail :: [] ∧
        (lastState (.opened d0) c [.fail]).phase = .opened d0 ∧
        (lastState (.opened d0) c []).writeAnswers = [] ∧ e.seq < e.plan.length :=
  ⟨by decide, rfl, by decide, fun _ _ => ⟨_, rfl, rfl, rfl, rfl, rfl, rfl, Nat.zero_lt_one⟩⟩

/-! ### Invariants and whole-machine rules -/

/-- A well-formed state with a step: `clear` while the shadow says a scroll is active, in a trace that says so. -/
def runState (answers : List WriteAnswer) : State :=
  { given small [0x01, 0x00, 0x00] answers with
    phase := .opened d1
    trace := [.topen 0x00 0x3C .ack, .twrite 0x00 [0x2F] .ok] }

/-- For StepKeepsWellFormed, WellFormedNeverFaults, StepKeepsTraceBracketed, StepKeepsScrollOrder and
StepOnlyExtendsTrace; for GhostFlagsSticky with both phases open and a ghost flag set. -/
theorem witness_StepInvariants :
    (runState [.fail]).wf = true ∧ (runState [.fail]).bracketed = true ∧ (runState [.fail]).scrollOrdered = true ∧
    step (runState [.fail]) = .next (after (step (runState [.fail]))) ∧
    (runState [.fail]).phase = .opened d1 ∧ d1.gDrawn = true ∧
    (after (step (runState [.fail]))).phase = .opened { d1 with gUnknown := true } :=
  ⟨by decide, by decide, by decide, next_after _ (by decide), rfl, rfl, by decide⟩

/-- The invariants in the middle of a plan. -/
theorem witness_StepInvariants_midPlan :
    (planState 0x40 [0x7F] 1 [.ok]).wf = true ∧
    step (planState 0x40 [0x7F] 1 [.ok]) = .next (after (step (planState 0x40 [0x7F] 1 [.ok]))) :=
  ⟨by decide, next_after _ (by decide)⟩

theorem witness_ObservationShowsShadow :
    State.reset.phase = .closed ∧ small.phase = .opened d0 ∧ small.sequencer = .idle ∧
    15 < small.cfg.pages * small.cfg.columns := ⟨rfl, rfl, rfl, by decide⟩

/-- A `setCursor` that hangs after its first write and gets the other two answers later. -/
theorem witness_ResumedOperationEndsAlike :
    small.wf = true ∧ Instr.format (.setCursor 1 7) = .req ∧
    exec (.setCursor 1 7) (smallA ([.ok] ++ [.ok, .ok])) =
      .next (after (exec (.setCursor 1 7) (smallA ([.ok] ++ [.ok, .ok])))) ∧
    (after (exec (.setCursor 1 7) (smallA ([.ok] ++ [.ok, .ok])))).sequencer = .idle ∧
    exec (.setCursor 1 7) (smallA [.ok]) = .next (after (exec (.setCursor 1 7) (smallA [.ok]))) ∧
    (after (exec (.setCursor 1 7) (smallA [.ok]))).sequencer ≠ .idle :=
  ⟨by decide, rfl, next_after _ (by decide), by decide, next_after _ (by decide), by decide⟩

/-- A `construct` whose `TOpen` is answered late, and one that gets the `TOpen` and two writes of four at once. -/
theorem witness_ResumedOperationEndsAlike_construct :
    (closedA [] []).wf = true ∧ Instr.format (.construct 0x00 0x3C) = .req ∧
    exec (.construct 0x00 0x3C) (closedA ([] ++ [.ack]) ([] ++ ok 4)) =
      .next (after (exec (.construct 0x00 0x3C) (closedA [.ack] (ok 4)))) ∧
    (after (exec (.construct 0x00 0x3C) (closedA [.ack] (ok 4)))).sequencer = .idle ∧
    (∀ x ∈ [closedA [] [], closedA [.ack] (ok 2)], isNext (exec (.construct 0x00 0x3C) x) = true ∧
      (after (exec (.construct 0x00 0x3C) x)).sequencer ≠ .idle) ∧
    closedA ([.ack] ++ []) (ok 2 ++ ok 2) = closedA [.ack] (ok 4) :=
  ⟨by decide, rfl, next_after _ (by decide), by decide, by decide, by decide⟩

/-- A panel with other contents and its pointer elsewhere. -/
def stale : Panel := ⟨1, 5, [(2, 0x77)]⟩

theorem witness_FlushMakesMirror :
    (runState (ok 11)).wf = true ∧
    exec .clear (runState (ok 11)) = .next (after (exec .clear (runState (ok 11)))) ∧
    (after (exec .clear (runState (ok 11)))).sequencer = .idle ∧
    (after (exec .clear (runState (ok 11)))).response = some .ok ∧
    (after (exec .clear (runState (ok 11)))).phase = .opened { d1 with fb := [] } ∧
    (stale.replay smallCfg (runState (ok 11)).trace).ram.wf = true ∧
    (stale.replay smallCfg (runState (ok 11)).trace).ram.below smallCfg.fbLen = true ∧
    (stale.replay smallCfg (runState (ok 11)).trace).mirrors d1 = false :=
  ⟨by decide, next_after _ (by decide), by decide, by decide, by decide, by decide, by decide, by decide⟩

theorem witness_OperationsKeepMirror :
    small.wf = true ∧
    exec (.write [0x48, 0x69]) (smallA (ok 14)) = .next (after (exec (.write [0x48, 0x69]) (smallA (ok 14)))) ∧
    (after (exec (.write [0x48, 0x69]) (smallA (ok 14)))).sequencer = .idle ∧ (smallA (ok 14)).phase = .opened d0 ∧
    (∃ d', (after (exec (.write [0x48, 0x69]) (smallA (ok 14)))).phase = .opened d' ∧ d'.gUnknown = false ∧
      d'.cur = ⟨1, 6⟩) ∧
    (Panel.replay smallCfg ⟨0, 0, []⟩ (smallA (ok 14)).trace).mirrors d0 = true :=
  ⟨by decide, next_after _ (by decide), by decide, rfl, ⟨_, rfl, by decide, by decide⟩, by decide⟩

end Sys2Proof.Tests
end

/-! # Proofs of the scope statements: what no operation and no step changes, and when a configuration is refused

The frame of the shared operations (`Extends`) is proved once per operation of the sequencer; the frame of `exec` and
of `step` is assembled from it. -/

namespace Sys2Proof.Machine

/-! ## What an operation may do to the configuration, the trace and the inputs -/

/-- `t` may follow `s` within an operation: the configuration and the requests stay, `trace` is only extended, and the
Transport's answers are only consumed from the front (00_scope.md R7; 10_state.md R10). -/
structure Extends (s t : State) : Prop where
  cfg : t.cfg = s.cfg
  requests : t.requests = s.requests
  trace : s.trace <+: t.trace
  openAnswers : t.openAnswers <:+ s.openAnswers
  writeAnswers : t.writeAnswers <:+ s.writeAnswers

theorem Extends.refl (s : State) : Extends s s :=
  ⟨rfl, rfl, List.prefix_rfl, List.suffix_rfl, List.suffix_rfl⟩

theorem Extends.trans {s t u : State} (h : Extends s t) (h' : Extends t u) : Extends s u where
  cfg := h'.cfg.trans h.cfg
  requests := h'.requests.trans h.requests
  trace := h.trace.trans h'.trace
  openAnswers := h'.openAnswers.trans h.openAnswers
  writeAnswers := h'.writeAnswers.trans h.writeAnswers

theorem starting_extends (s : State) (d : Driver) : Extends s (s.starting d) :=
  ⟨rfl, rfl, List.prefix_rfl, List.suffix_rfl, List.suffix_rfl⟩

theorem respond_extends (s : State) (r : Response) : Extends s (s.respond r) :=
  ⟨rfl, rfl, List.prefix_rfl, List.suffix_rfl, List.suffix_rfl⟩

theorem sent_extends {s : State} {evs : List Event} {left : List WriteAnswer} (h : left <:+ s.writeAnswers) :
    Extends s (s.sent evs left) :=
  ⟨rfl, rfl, List.prefix_append _ _, List.suffix_rfl, h⟩

theorem finish_extends (c : Commit) (s : State) : Extends s (finish c s) where
  cfg := finish_cfg c s
  requests := finish_requests c s
  trace := by cases c <;> simp [finish]
  openAnswers := by simp
  writeAnswers := by simp

theorem abort_extends (c : Commit) (s : State) : Extends s (abort c s) where
  cfg := abort_cfg c s
  requests := abort_requests c s
  trace := by
    cases c with
    | build _ _ => simp [abort]
    | demolish => simp [abort]
    | update _ => cases h : s.phase <;> simp [abort, h]
  openAnswers := by simp
  writeAnswers := by simp

theorem send_extends (e : Emission) (ws : List Txn) (s : State) : Extends s (send e ws s) := by
  have hsent : Extends s (s.sent (emit ws s.writeAnswers).events (emit ws s.writeAnswers).left) :=
    sent_extends (emit_left_suffix ws s.writeAnswers)
  unfold send
  simp only
  split
  · exact hsent.trans (abort_extends _ _)
  · split
    · exact hsent.trans (finish_extends _ _)
    · exact hsent.trans ⟨rfl, rfl, List.prefix_rfl, List.suffix_rfl, List.suffix_rfl⟩

theorem startPlan_extends (plan : List Txn) (c : Commit) (s : State) : Extends s (startPlan plan c s) :=
  send_extends _ _ _

theorem openTransport_extends (b a : Byte) (plan : List Txn) (s : State) :
    Extends s (openTransport b a plan s) := by
  rcases openTransport_cases b a plan s with ⟨-, h⟩ | ⟨rest, hr, h⟩ | ⟨rest, hr, h⟩ <;> rw [h]
  · exact ⟨rfl, rfl, List.prefix_rfl, List.suffix_rfl, List.suffix_rfl⟩
  · exact ⟨rfl, rfl, List.prefix_append _ _, hr ▸ List.suffix_cons _ _, List.suffix_rfl⟩
  · refine Extends.trans ?_ (startPlan_extends _ _ _)
    exact ⟨rfl, rfl, List.prefix_append _ _, hr ▸ List.suffix_cons _ _, List.suffix_rfl⟩

/-- Every instruction, on either port: a transaction of the plan in progress, `construct`, `teardown`, or another
operation of phase `Open`. -/
theorem exec_extends {i : Instr} {s t : State} (h : exec i s = .next t) : Extends s t := by
  by_cases hf : i.format = .req
  · by_cases hc : ∃ b a, i = .construct b a
    · obtain ⟨b, a, rfl⟩ := hc
      obtain ⟨-, -, -, rfl⟩ := exec_construct_next h
      refine Extends.trans ?_ (openTransport_extends _ _ _ _)
      exact ⟨rfl, rfl, List.prefix_rfl, List.suffix_rfl, List.suffix_rfl⟩
    · by_cases ht : i = .teardown
      · subst ht
        obtain ⟨d, -, -, -, rfl⟩ := exec_teardown_next h
        exact (starting_extends s d).trans (startPlan_extends _ _ _)
      · obtain ⟨d, -, -, -, ⟨d₁, d', plan, -, rfl⟩ | ⟨r, -, rfl⟩⟩ :=
          exec_open_next h hf (fun b a hi => hc ⟨b, a, hi⟩) ht
        · exact (starting_extends s d₁).trans (startPlan_extends _ _ _)
        · exact (starting_extends s d).trans (respond_extends _ _)
  · obtain ⟨e, -, rfl, -⟩ := exec_transport_next hf h
    exact send_extends _ _ _

/-- A step is the wait, the open, sent transactions, or `exec` of a request taken off the front of the request port
into the latches. -/
theorem step_extends {s t : State} (h : step s = .next t) :
    ∃ rest r, rest <:+ s.requests ∧ Extends { s with requests := rest, req := r } t := by
  rcases step_next h with ⟨-, -, rfl⟩ | ⟨b, a, -, rfl⟩ | ⟨e, -, -, rfl⟩ | ⟨e, w, i, -, -, -, rfl⟩ |
    ⟨bs, rest, i, -, hr, -, -, h⟩
  · exact ⟨t.requests, t.req, List.suffix_rfl, .refl t⟩
  · exact ⟨s.requests, s.req, List.suffix_rfl, openTransport_extends _ _ _ s⟩
  · exact ⟨s.requests, s.req, List.suffix_rfl, send_extends _ _ s⟩
  · exact ⟨s.requests, s.req, List.suffix_rfl, send_extends _ _ s⟩
  · exact ⟨rest, latch bs, hr ▸ List.suffix_cons _ _, exec_extends h⟩

/-- Settles O48: apart from the request it may take off the port, a step does what an operation may. -/
theorem stepOnlyExtendsTrace : Obligations.StepOnlyExtendsTrace := by
  intro s t h
  obtain ⟨rest, r, hrest, hx⟩ := step_extends h
  obtain ⟨evs, htrace⟩ := hx.trace
  exact ⟨hx.cfg, ⟨evs, htrace.symm⟩, hx.requests ▸ hrest, hx.openAnswers, hx.writeAnswers⟩

/-! ## The phase while a plan is sent -/

/-- A sent plan changes the phase only where it ends the operation. -/
theorem startPlan_phase_of_inProgress {plan : List Txn} {c : Commit} {s : State}
    (h : (startPlan plan c s).sequencer ≠ .idle) : (startPlan plan c s).phase = s.phase := by
  rcases startPlan_cases plan c s with ⟨rest, -, ht⟩ | ⟨k, w, rest, -, -, ht⟩ | ⟨k, -, -, ht⟩ <;> rw [ht] at h ⊢
  · exact absurd (finish_sequencer _ _) h
  · exact absurd (abort_sequencer _ _) h
  · rfl

/-- The plan of a `construct` changes the phase only where it is answered `OK` (R70). -/
theorem startPlan_build_phase_of_response_ne_ok {plan : List Txn} {b a : Byte} {s : State}
    (h : (startPlan plan (.build b a) s).response ≠ some .ok) :
    (startPlan plan (.build b a) s).phase = s.phase := by
  rcases startPlan_cases plan (.build b a) s with ⟨rest, -, ht⟩ | ⟨k, w, rest, -, -, ht⟩ | ⟨k, -, -, ht⟩ <;>
    rw [ht] at h ⊢
  · exact absurd (finish_response _ _) h
  · rfl
  · rfl

/-- So does its `TOpen` with all that follows it (R39, R70). -/
theorem openTransport_phase_of_response_ne_ok {b a : Byte} {plan : List Txn} {s : State}
    (h : (openTransport b a plan s).response ≠ some .ok) : (openTransport b a plan s).phase = s.phase := by
  rcases openTransport_cases b a plan s with ⟨-, ht⟩ | ⟨rest, -, ht⟩ | ⟨rest, -, ht⟩ <;> rw [ht] at h ⊢
  exact startPlan_build_phase_of_response_ne_ok h

/-! ## The lifecycle operations -/

/-- `teardown` makes no `TOpen`, and the phase stays as long as it is in progress (R71). -/
theorem exec_teardown_frame {s t : State} (h : exec .teardown s = .next t) :
    t.openAnswers = s.openAnswers ∧ (t.sequencer ≠ .idle → t.phase = s.phase) := by
  obtain ⟨d, -, -, hp, rfl⟩ := exec_teardown_next h
  exact ⟨send_openAnswers _ _ _, fun hs => (startPlan_phase_of_inProgress hs).trans hp.symm⟩

/-- A `construct` that is not answered `OK` leaves the phase `Closed` (R70). -/
theorem exec_construct_closed_of_response_ne_ok {s t : State} {b a : Byte} (h : exec (.construct b a) s = .next t)
    (hr : t.response ≠ some .ok) : t.phase = .closed := by
  obtain ⟨-, -, hp, rfl⟩ := exec_construct_next h
  exact (openTransport_phase_of_response_ne_ok hr).trans hp

/-- Settles O36: the frame every operation has, and what each of the two leaves of the phase. -/
theorem lifecycleFrame : Obligations.LifecycleFrame := by
  intro s t i h hi
  have hx := exec_extends h
  obtain ⟨evs, htrace⟩ := hx.trace
  refine ⟨hx.cfg, hx.requests, ⟨evs, htrace.symm⟩, ?_, ?_⟩
  · rintro rfl
    exact exec_teardown_frame h
  · intro hne hr
    cases i with
    | construct b a => exact exec_construct_closed_of_response_ne_ok h hr
    | teardown => exact absurd rfl hne
    | _ => cases hi

/-! ## The refusal of a configuration -/

theorem acceptOpen_badConfiguration {s : State} (h : s.cfg.valid = false) (k : Driver → State → Result) :
    acceptOpen s k = .refused .badConfiguration := by
  simp [acceptOpen, h]

theorem acceptClosed_badConfiguration {s : State} (h : s.cfg.valid = false) (k : State → Result) :
    acceptClosed s k = .refused .badConfiguration := by
  simp [acceptClosed, h]

/-- Every operation but `construct` goes through the acceptance of phase `Open` (R56). -/
theorem exec_eq_acceptOpen {i : Instr} (hf : i.format = .req) (hc : ∀ b a, i ≠ .construct b a) (s : State) :
    ∃ k, exec i s = acceptOpen s k := by
  cases i with
  | construct b a => exact absurd rfl (hc b a)
  | clear | draw _ | setCursor _ _ | write _ | invert _ | dim _ | startscrollright _ _ | startscrollleft _ _
  | startscrolldiagleft _ _ | startscrolldiagright _ _ | stopscroll | teardown =>
    simp only [exec, execClear, execDraw, execSetCursor, execWrite, execInvert, execDim, execStartscrollright,
      execStartscrollleft, execStartscrolldiagleft, execStartscrolldiagright, startScroll, execStopscroll,
      execTeardown]
    exact ⟨_, rfl⟩
  | _ => cases hf

/-- `construct` goes through the acceptance of phase `Closed` (R56, R70). -/
theorem exec_construct_eq_acceptClosed (b a : Byte) (s : State) :
    ∃ k, exec (.construct b a) s = acceptClosed s k := by
  simp only [exec, execConstruct]
  exact ⟨_, rfl⟩

/-- No operation is accepted under a configuration that is not valid (R6, log 17). -/
theorem exec_badConfiguration {i : Instr} {s : State} (hf : i.format = .req) (hv : s.cfg.valid = false) :
    exec i s = .refused .badConfiguration := by
  by_cases hc : ∃ b a, i = .construct b a
  · obtain ⟨b, a, rfl⟩ := hc
    obtain ⟨k, hk⟩ := exec_construct_eq_acceptClosed b a s
    rw [hk, acceptClosed_badConfiguration hv]
  · obtain ⟨k, hk⟩ := exec_eq_acceptOpen hf (fun b a hi => hc ⟨b, a, hi⟩) s
    rw [hk, acceptOpen_badConfiguration hv]

/-- Settles O9: a valid configuration meets every constraint of R6, so one that breaks a constraint is not valid. -/
theorem badConfigurationRefused : Obligations.BadConfigurationRefused := by
  intro s i hf hbroken
  refine exec_badConfiguration hf (Bool.eq_false_iff.2 fun hv => hbroken ?_)
  obtain ⟨hp₁, hp₈, hc₁, hc₁₂₈, hg, hw, -, hfont, hfallback, hinit⟩ := valid_iff.1 hv
  exact ⟨hp₁, hp₈, hc₁, hc₁₂₈, hg, hw, hfont, hfallback, hinit⟩

end Sys2Proof.Machine

/-! # Proofs of the state statements: the structural invariant, the ghost flags, the frames and the observation port

What `send` leaves of a state in phase `Open`, and what an operation's plan step and commit may change of a driver, are
said once; the invariant, the ghost flags and the frame are read off them. -/

namespace Sys2Proof.Machine

open Sys2Proof.Claims

/-! ## The structural invariant -/

/-- A well-formed state with an emission in progress: what `send` asks for. -/
theorem wf_emitting {s : State} {e : Emission} (hw : s.wf = true) (hs : s.sequencer = .emitting e) :
    e.plan.all txnWf = true ∧ e.commit.wf s.cfg s.phase = true ∧ s.handle = true := by
  obtain ⟨-, -, hseq, hhandle⟩ := wf_iff.1 hw
  rw [hs] at hseq hhandle
  simp only [Sequencer.wf, Emission.wf, Bool.and_eq_true] at hseq
  obtain ⟨⟨-, hplan⟩, hcommit⟩ := hseq
  exact ⟨hplan, hcommit, by simpa [Sequencer.inProgress] using hhandle⟩

/-- A pending `TOpen` stands in phase `Closed` (R70). -/
theorem wf_opening {s : State} {b a : Byte} (hw : s.wf = true) (hs : s.sequencer = .opening b a) :
    s.phase = .closed := by
  obtain ⟨-, -, hseq, -⟩ := wf_iff.1 hw
  rw [hs] at hseq
  exact isOpen_eq_false hseq

/-- In phase `Open` the driver is well-formed and the handle is held (R16, R20, R73). -/
theorem wf_opened {s : State} {d : Driver} (hw : s.wf = true) (hp : s.phase = .opened d) :
    d.wf s.cfg = true ∧ s.handle = true := by
  obtain ⟨-, hphase, -, hhandle⟩ := wf_iff.1 hw
  rw [hp] at hphase hhandle
  exact ⟨hphase, by simpa [Phase.isOpen] using hhandle⟩

/-- Taking a request off the port touches nothing the invariant speaks of. -/
theorem wf_taken {s : State} (rest : List (List Byte)) (r : Option Request) :
    ({ s with requests := rest, req := r } : State).wf = s.wf := rfl

/-- A next state of an operation that is not `construct` or `teardown`: its plan started, or its error. -/
theorem wf_exec_open {i : Instr} {s t : State} (hw : s.wf = true) (h : exec i s = .next t) (hf : i.format = .req)
    (hc : ∀ b a, i ≠ .construct b a) (ht : i ≠ .teardown) : t.wf = true := by
  obtain ⟨d, hv, -, hp, houtcome⟩ := exec_open_next h hf hc ht
  obtain ⟨hd, hhandle⟩ := wf_opened hw hp
  rcases houtcome with ⟨d₁, d', plan, hrun, rfl⟩ | ⟨r, -, rfl⟩
  · obtain ⟨hd₁, hd', hplan⟩ := opRun_wf hv hrun hd
    exact wf_send hv hd₁ hd' hplan hhandle
  · exact wf_iff.2 ⟨hv, hd, rfl, hhandle⟩

/-- Every operation keeps the invariant, the two lifecycle operations included. -/
theorem wf_exec {i : Instr} {s t : State} (hw : s.wf = true) (h : exec i s = .next t) (hf : i.format = .req) :
    t.wf = true := by
  by_cases hc : ∃ b a, i = .construct b a
  · obtain ⟨b, a, rfl⟩ := hc
    obtain ⟨hv, -, hp, rfl⟩ := exec_construct_next h
    exact wf_openTransport (s := { s with response := none }) hv hp
  · by_cases ht : i = .teardown
    · subst ht
      obtain ⟨d, hv, -, hp, rfl⟩ := exec_teardown_next h
      obtain ⟨hd, hhandle⟩ := wf_opened hw hp
      have hplan : (teardownPlan s.cfg d.cur).all txnWf = true := by
        simp [teardownPlan, wf_flushPlan hv (show (zeros s.cfg.fbLen).length = s.cfg.fbLen by simp [zeros])]
      exact wf_send hv hd rfl hplan hhandle
    · exact wf_exec_open hw h hf (fun b a hi => hc ⟨b, a, hi⟩) ht

/-- Settles O44: each of the five things a step can do keeps the invariant. -/
theorem stepKeepsWellFormed : Obligations.StepKeepsWellFormed := by
  intro s t hw h
  obtain ⟨hv, hphase, -, -⟩ := wf_iff.1 hw
  rcases step_next h with ⟨-, -, rfl⟩ | ⟨b, a, hs, rfl⟩ | ⟨e, hs, -, rfl⟩ | ⟨e, w, i, hs, -, -, rfl⟩ |
    ⟨bs, rest, i, -, -, hf, -, h⟩
  · exact hw
  · exact wf_openTransport hv (wf_opening hw hs)
  · obtain ⟨hplan, hcommit, hhandle⟩ := wf_emitting hw hs
    exact wf_send hv hphase hcommit hplan hhandle
  · obtain ⟨hplan, hcommit, hhandle⟩ := wf_emitting hw hs
    exact wf_send hv hphase hcommit hplan hhandle
  · exact wf_exec ((wf_taken rest (latch bs)).trans hw) h hf

/-! ## What `send` leaves of a state in phase `Open` -/

/-- A plan of an operation of phase `Open` ends with `OK` and the new driver, ends with `TransportError` and the old one
marked, or stays in progress with the old one (R57, R58, R153). -/
theorem send_update_cases {e : Emission} {s : State} {d d' : Driver} (hc : e.commit = .update d')
    (hp : s.phase = .opened d) (ws : List Txn) :
    ((send e ws s).response = some .ok ∧ (send e ws s).phase = .opened d') ∨
    ((send e ws s).response = some .transportError ∧
      (send e ws s).phase = .opened { d with gUnknown := true }) ∨
    ((send e ws s).sequencer ≠ .idle ∧ (send e ws s).phase = .opened d) := by
  rcases send_cases e ws s with ⟨_, _, _, h⟩ | ⟨_, _, _, _, _, h⟩ | ⟨_, _, _, _, _, _, h⟩ | ⟨_, _, _, _, h⟩ <;> rw [h]
  · exact .inl ⟨finish_response _ _, by simp [hc, finish]⟩
  · exact .inr (.inl ⟨abort_response _ _, by simp [hc, hp, abort]⟩)
  · exact .inr (.inr ⟨nofun, hp⟩)
  · exact .inl ⟨finish_response _ _, by simp [hc, finish]⟩

theorem startPlan_update_cases {plan : List Txn} {s : State} {d d' : Driver} (hp : s.phase = .opened d) :
    ((startPlan plan (.update d') s).response = some .ok ∧ (startPlan plan (.update d') s).phase = .opened d') ∨
    ((startPlan plan (.update d') s).response = some .transportError ∧
      (startPlan plan (.update d') s).phase = .opened { d with gUnknown := true }) ∨
    ((startPlan plan (.update d') s).sequencer ≠ .idle ∧ (startPlan plan (.update d') s).phase = .opened d) :=
  send_update_cases rfl hp plan

/-! ## The ghost flags -/

/-- What no operation between a `construct` and the next takes back: a ghost flag that is set, and the identifiers
(R10, R21). -/
structure Driver.GhostsKept (d d' : Driver) : Prop where
  gUnknown : d.gUnknown = true → d'.gUnknown = true
  gDrawn : d.gDrawn = true → d'.gDrawn = true
  busId : d'.busId = d.busId
  devAddr : d'.devAddr = d.devAddr

theorem Driver.GhostsKept.refl (d : Driver) : d.GhostsKept d := ⟨id, id, rfl, rfl⟩

theorem Driver.GhostsKept.trans {d d₁ d₂ : Driver} (h : d.GhostsKept d₁) (h' : d₁.GhostsKept d₂) :
    d.GhostsKept d₂ where
  gUnknown := h'.gUnknown ∘ h.gUnknown
  gDrawn := h'.gDrawn ∘ h.gDrawn
  busId := h'.busId.trans h.busId
  devAddr := h'.devAddr.trans h.devAddr

theorem ghostsKept_gUnknown (d : Driver) : d.GhostsKept { d with gUnknown := true } := ⟨fun _ => rfl, id, rfl, rfl⟩

theorem ghostsKept_gDrawn (d : Driver) (b : Bool) : d.GhostsKept { d with gDrawn := d.gDrawn || b } :=
  ⟨id, fun h => by simp [h], rfl, rfl⟩

theorem mayFollow_iff {cfg : Config} {d d' : Driver} : d.mayFollow cfg d' = true ↔
    d'.wf cfg = true ∧ d'.busId = d.busId ∧ d'.devAddr = d.devAddr ∧ d'.gUnknown = d.gUnknown ∧
      d'.gDrawn = d.gDrawn := by
  simp only [Driver.mayFollow, Bool.and_eq_true, beq_iff_eq, and_assoc]

theorem ghostsKept_of_mayFollow {cfg : Config} {d d' : Driver} (h : d.mayFollow cfg d' = true) : d.GhostsKept d' := by
  obtain ⟨-, hb, ha, hu, hd⟩ := mayFollow_iff.1 h
  exact ⟨fun h => hu.trans h, fun h => hd.trans h, hb, ha⟩

/-- Only a draw's plan step touches the ghost state, and it sets its flag (R176). -/
theorem opRun_ghostsKept {cfg : Config} {d d₁ d' : Driver} {i : Instr} {plan : List Txn}
    (h : OpRun cfg d i d₁ d' plan) : d.GhostsKept d₁ := by
  cases h with
  | clear | draw _ _ => exact ghostsKept_gDrawn d d.scrollActive
  | write text _ _ =>
    rw [markWritten_eq]
    exact ghostsKept_gDrawn d _
  | setCursor _ _ _ | invert _ | dim _ | startscroll _ _ _ _ _ _ | stopscroll => exact .refl d

/-- A driver that stands after transactions of a well-formed plan keeps what the one before had. -/
theorem send_ghostsKept {e : Emission} {ws : List Txn} {s : State} {d d' : Driver}
    (hc : e.commit.wf s.cfg s.phase = true) (hp : s.phase = .opened d)
    (hp' : (send e ws s).phase = .opened d') : d.GhostsKept d' := by
  cases hcommit : e.commit with
  | build b a => rw [hcommit, hp] at hc; cases hc
  | demolish =>
    rcases send_cases e ws s with ⟨_, _, _, h⟩ | ⟨_, _, _, _, _, h⟩ | ⟨_, _, _, _, _, _, h⟩ | ⟨_, _, _, _, h⟩ <;>
      rw [h] at hp'
    · rw [hcommit] at hp'; cases hp'
    · rw [hcommit] at hp'; cases hp'
    · cases hp.symm.trans hp'; exact .refl d
    · rw [hcommit] at hp'; cases hp'
  | update d₂ =>
    rw [hcommit, hp] at hc
    rcases send_update_cases hcommit hp ws with ⟨-, h⟩ | ⟨-, h⟩ | ⟨-, h⟩ <;> cases h.symm.trans hp'
    · exact ghostsKept_of_mayFollow hc
    · exact ghostsKept_gUnknown d
    · exact .refl d

/-- So does one that stands after an operation. -/
theorem exec_ghostsKept {i : Instr} {s t : State} {d d' : Driver} (hw : s.wf = true) (h : exec i s = .next t)
    (hf : i.format = .req) (hp : s.phase = .opened d) (hp' : t.phase = .opened d') : d.GhostsKept d' := by
  by_cases hc : ∃ b a, i = .construct b a
  · obtain ⟨b, a, rfl⟩ := hc
    obtain ⟨-, -, hclosed, -⟩ := exec_construct_next h
    cases hp.symm.trans hclosed
  · by_cases ht : i = .teardown
    · subst ht
      obtain ⟨d₀, -, -, hp₀, rfl⟩ := exec_teardown_next h
      cases hp.symm.trans hp₀
      exact send_ghostsKept (s := s.starting d) rfl rfl hp'
    · obtain ⟨d₀, hv, -, hp₀, ⟨d₁, d₂, plan, hrun, rfl⟩ | ⟨r, -, rfl⟩⟩ :=
        exec_open_next h hf (fun b a hi => hc ⟨b, a, hi⟩) ht
      · cases hp.symm.trans hp₀
        obtain ⟨hd, -⟩ := wf_opened hw hp
        obtain ⟨-, hd₂, -⟩ := opRun_wf hv hrun hd
        exact (opRun_ghostsKept hrun).trans
          (send_ghostsKept (e := ⟨plan, 0, .update d₂⟩) (s := s.starting d₁) hd₂ rfl hp')
      · cases hp.symm.trans hp₀
        cases hp'
        exact .refl d

/-- Settles O49: a step of phase `Open` waits, sends transactions of a plan, or runs an operation. -/
theorem ghostFlagsSticky : Obligations.GhostFlagsSticky := by
  intro s t d d' hw h hp hp'
  have kept : d.GhostsKept d' := by
    rcases step_next h with ⟨-, -, rfl⟩ | ⟨b, a, hs, -⟩ | ⟨e, hs, -, rfl⟩ | ⟨e, w, i, hs, -, -, rfl⟩ |
      ⟨bs, rest, i, -, -, hf, -, h⟩
    · cases hp.symm.trans hp'
      exact .refl d
    · cases hp.symm.trans (wf_opening hw hs)
    · obtain ⟨-, hcommit, -⟩ := wf_emitting hw hs
      exact send_ghostsKept hcommit hp hp'
    · obtain ⟨-, hcommit, -⟩ := wf_emitting hw hs
      exact send_ghostsKept hcommit hp hp'
    · exact exec_ghostsKept ((wf_taken rest (latch bs)).trans hw) h hf hp hp'
  exact ⟨kept.gUnknown, kept.gDrawn, kept.busId, kept.devAddr⟩

/-! ## What an operation of phase `Open` may write -/

theorem abort_update_handle (d' : Driver) (s : State) : (abort (.update d') s).handle = s.handle := by
  cases h : s.phase <;> simp [abort, h]

theorem abort_update_trace (d' : Driver) (s : State) : (abort (.update d') s).trace = s.trace := by
  cases h : s.phase <;> simp [abort, h]

/-- No plan but those of `construct` and `teardown` releases the handle (R39, R73). -/
theorem send_update_handle {e : Emission} {d' : Driver} (hc : e.commit = .update d') (ws : List Txn) (s : State) :
    (send e ws s).handle = s.handle := by
  rcases send_cases e ws s with ⟨_, _, _, h⟩ | ⟨_, _, _, _, _, h⟩ | ⟨_, _, _, _, _, _, h⟩ | ⟨_, _, _, _, h⟩ <;> rw [h]
  · simp [hc, finish]
  · simp [hc, abort_update_handle]
  · rfl
  · simp [hc, finish]

/-- Every event is a `TWrite`, whatever its answer (R38). -/
def WritesOnly (evs : List Event) : Prop := ∀ ev ∈ evs, ∃ control data ans, ev = .twrite control data ans

theorem writesOnly_okEvents (ws : List Txn) : WritesOnly (okEvents ws) := by
  intro ev hev
  obtain ⟨w, -, rfl⟩ := List.mem_map.1 hev
  exact ⟨_, _, _, rfl⟩

theorem writesOnly_append_twrite {evs : List Event} (h : WritesOnly evs) (control : Byte) (data : List Byte)
    (ans : WriteAnswer) : WritesOnly (evs ++ [.twrite control data ans]) := by
  intro ev hev
  rcases List.mem_append.1 hev with hev | hev
  · exact h ev hev
  · exact ⟨_, _, _, List.mem_singleton.1 hev⟩

/-- No plan but those of `construct` and `teardown` adds anything but writes to the trace (R35). -/
theorem send_update_trace {e : Emission} {d' : Driver} (hc : e.commit = .update d') (ws : List Txn) (s : State) :
    ∃ evs, (send e ws s).trace = s.trace ++ evs ∧ WritesOnly evs := by
  rcases send_cases e ws s with ⟨_, _, _, h⟩ | ⟨k, w, _, _, _, h⟩ | ⟨_, _, _, _, _, _, h⟩ | ⟨k, _, _, _, h⟩ <;> rw [h]
  · exact ⟨okEvents ws, by simp [hc, finish], writesOnly_okEvents ws⟩
  · exact ⟨_, by simp [hc, abort_update_trace],
      writesOnly_append_twrite (writesOnly_okEvents (ws.take k)) w.control w.data .fail⟩
  · exact ⟨_, rfl, writesOnly_okEvents _⟩
  · exact ⟨okEvents (ws.take k), by simp [hc, finish], writesOnly_okEvents _⟩

/-- `d'` differs from `d` only in what the operation `i` may write (R14 to R16, R83, R102) and in `g_unknown`. -/
structure Unwritten (i : Instr) (d d' : Driver) : Prop where
  busId : d'.busId = d.busId
  devAddr : d'.devAddr = d.devAddr
  fb : writesFb i = false → d'.fb = d.fb
  gDrawn : writesFb i = false → d'.gDrawn = d.gDrawn
  cur : writesCur i = false → d'.cur = d.cur
  inverted : writesInverted i = false → d'.inverted = d.inverted
  dimmed : writesDimmed i = false → d'.dimmed = d.dimmed
  scrolling : writesScrolling i = false → d'.scrolling = d.scrolling

theorem Unwritten.refl (i : Instr) (d : Driver) : Unwritten i d d :=
  ⟨rfl, rfl, fun _ => rfl, fun _ => rfl, fun _ => rfl, fun _ => rfl, fun _ => rfl, fun _ => rfl⟩

theorem Unwritten.gUnknown {i : Instr} {d d' : Driver} (h : Unwritten i d d') :
    Unwritten i d { d' with gUnknown := true } :=
  ⟨h.busId, h.devAddr, h.fb, h.gDrawn, h.cur, h.inverted, h.dimmed, h.scrolling⟩

theorem scrollOperands_writes {i : Instr} {x : Scroll × Byte × Byte} (h : scrollOperands i = some x) :
    writesScrolling i = true := by
  cases i with
  | startscrollright _ _ | startscrollleft _ _ | startscrolldiagleft _ _ | startscrolldiagright _ _ => rfl
  | _ => cases h

/-- The plan step of an operation writes no more than the operation may. -/
theorem opRun_planStep_unwritten {cfg : Config} {d d₁ d' : Driver} {i : Instr} {plan : List Txn}
    (h : OpRun cfg d i d₁ d' plan) : Unwritten i d d₁ := by
  cases h with
  | clear | draw _ _ => exact { Unwritten.refl _ d with fb := nofun, gDrawn := nofun }
  | write text _ _ =>
    rw [markWritten_eq]
    exact { Unwritten.refl _ d with fb := nofun, gDrawn := nofun }
  | setCursor _ _ _ | invert _ | dim _ | startscroll _ _ _ _ _ _ | stopscroll => exact .refl _ d

/-- Nor does its commit. -/
theorem opRun_commit_unwritten {cfg : Config} {d d₁ d' : Driver} {i : Instr} {plan : List Txn}
    (h : OpRun cfg d i d₁ d' plan) : Unwritten i d d' := by
  cases h with
  | clear | draw _ _ => exact { Unwritten.refl _ d with fb := nofun, gDrawn := nofun }
  | write text _ _ =>
    rw [markWritten_eq]
    exact { Unwritten.refl _ d with fb := nofun, gDrawn := nofun, cur := nofun }
  | setCursor _ _ _ => exact { Unwritten.refl _ d with cur := nofun }
  | invert _ => exact { Unwritten.refl _ d with inverted := nofun }
  | dim _ => exact { Unwritten.refl _ d with dimmed := nofun }
  | stopscroll => exact { Unwritten.refl _ d with scrolling := nofun }
  | startscroll _ _ _ _ hi _ =>
    refine { Unwritten.refl _ d with scrolling := fun hw => ?_ }
    rw [scrollOperands_writes hi] at hw
    cases hw

/-- Whatever the Transport answers, the driver stays within what the operation may write. -/
theorem startPlan_unwritten {cfg : Config} {d d₁ d' : Driver} {i : Instr} {plan : List Txn}
    (h : OpRun cfg d i d₁ d' plan) (s : State) :
    ∃ d₂, (startPlan plan (.update d') (s.starting d₁)).phase = .opened d₂ ∧ Unwritten i d d₂ := by
  rcases startPlan_update_cases (plan := plan) (d' := d') (starting_phase s d₁) with ⟨-, hp⟩ | ⟨-, hp⟩ | ⟨-, hp⟩
  · exact ⟨d', hp, opRun_commit_unwritten h⟩
  · exact ⟨_, hp, (opRun_planStep_unwritten h).gUnknown⟩
  · exact ⟨d₁, hp, opRun_planStep_unwritten h⟩

theorem isLifecycle_eq_false {i : Instr} (h : isLifecycle i = false) :
    (∀ b a, i ≠ .construct b a) ∧ i ≠ .teardown := by
  constructor
  · rintro b a rfl
    cases h
  · rintro rfl
    cases h

/-- The frame of an operation of phase `Open` other than `teardown`, in its two parts: the state around the driver, and
the driver. -/
theorem exec_open_frame {i : Instr} {s t : State} {d : Driver} (h : exec i s = .next t) (hf : i.format = .req)
    (hl : isLifecycle i = false) (hp : s.phase = .opened d) :
    t.handle = s.handle ∧ t.openAnswers = s.openAnswers ∧ (∃ evs, t.trace = s.trace ++ evs ∧ WritesOnly evs) ∧
      ∃ d', t.phase = .opened d' ∧ Unwritten i d d' := by
  obtain ⟨hc, ht⟩ := isLifecycle_eq_false hl
  obtain ⟨d₀, -, -, hp₀, ⟨d₁, d', plan, hrun, rfl⟩ | ⟨r, -, rfl⟩⟩ := exec_open_next h hf hc ht <;>
    cases hp.symm.trans hp₀
  · exact ⟨send_update_handle rfl _ _, send_openAnswers _ _ _, send_update_trace rfl _ _, startPlan_unwritten hrun s⟩
  · exact ⟨rfl, rfl, ⟨[], (List.append_nil _).symm, nofun⟩, d, rfl, .refl i d⟩

/-- Settles O35: the configuration and the requests by the frame every operation has, the rest by the frame of an
operation of phase `Open`. -/
theorem openOperationFrame : Obligations.OpenOperationFrame := by
  intro s t d i h hf hl hp
  have hx := exec_extends h
  obtain ⟨hhandle, hopen, htrace, d', hp', hd⟩ := exec_open_frame h hf hl hp
  exact ⟨hx.cfg, hhandle, hx.requests, hopen, htrace, d', hp', hd.busId, hd.devAddr,
    fun hw => ⟨fun a => by rw [hd.fb hw], hd.fb hw, hd.gDrawn hw⟩, hd.cur, hd.inverted, hd.dimmed, hd.scrolling⟩

/-! ## The observation port -/

/-- Between operations in phase `Open` the port shows the shadow (R24, R34). -/
theorem observe_opened {s : State} {d : Driver} (hs : s.sequencer = .idle) (hp : s.phase = .opened d) :
    observe s = some ⟨d.fb.bytes s.cfg.fbLen, d.cur, d.inverted, d.dimmed, d.scrolling⟩ := by
  simp [observe, hs, hp]

theorem observe_closed {s : State} (hp : s.phase = .closed) : observe s = none := by
  cases hs : s.sequencer <;> simp [observe, hs, hp]

/-- The bytes of a framebuffer, one by one. -/
theorem getElem?_bytes (m : Memory) {n i : Nat} (h : i < n) : (m.bytes n)[i]? = some (m.read i) := by
  simp [Memory.bytes, h]

/-- Settles O50: the observation written out, and the bytes of `fb` one by one. -/
theorem observationShowsShadow : Obligations.ObservationShowsShadow := by
  intro s
  refine ⟨observe_closed, fun d hp hs => ?_⟩
  exact ⟨_, observe_opened hs hp, rfl, rfl, rfl, rfl, by simp [Memory.bytes, Config.fbLen],
    fun i hi => getElem?_bytes d.fb hi⟩

/-- An operation of phase `Open` that ended with `OK` has committed the driver of its plan. -/
theorem exec_open_committed {i : Instr} {s t : State} (h : exec i s = .next t) (hf : i.format = .req)
    (hl : isLifecycle i = false) (hs : t.sequencer = .idle) (hr : t.response = some .ok) :
    ∃ d d₁ d' plan, OpRun s.cfg d i d₁ d' plan ∧ t.phase = .opened d' := by
  obtain ⟨hc, ht⟩ := isLifecycle_eq_false hl
  obtain ⟨d, -, -, -, ⟨d₁, d', plan, hrun, rfl⟩ | ⟨r, herr, rfl⟩⟩ := exec_open_next h hf hc ht
  · rcases startPlan_update_cases (plan := plan) (d' := d') (starting_phase s d₁) with ⟨-, hp⟩ | ⟨hr', -⟩ | ⟨hs', -⟩
    · exact ⟨d, d₁, d', plan, hrun, hp⟩
    · cases hr.symm.trans hr'
    · exact absurd hs hs'
  · cases hr
    cases herr

/-- A framebuffer made of `FB_LEN` bytes is read as those bytes on the observation port. -/
theorem observe_fb_ofBytes {t : State} {d : Driver} {vs : List Byte} (hs : t.sequencer = .idle)
    (hp : t.phase = .opened d) (hfb : d.fb = Memory.ofBytes vs) (hl : vs.length = t.cfg.fbLen) :
    (observe t).map (·.fb) = some vs := by
  rw [observe_opened hs hp, hfb, ← hl]
  exact congrArg some (bytes_ofBytes vs)

/-- Settles O22: a successful `draw` or `clear` has committed the framebuffer of its bytes. -/
theorem drawnBufferReadsBack : Obligations.DrawnBufferReadsBack := by
  intro s t bitmap hs hr
  constructor <;> intro h <;> obtain ⟨d, d₁, d', plan, hrun, hp⟩ := exec_open_committed h rfl rfl hs hr
  · cases hrun with
    | draw _ hl => exact observe_fb_ofBytes hs hp rfl (hl.trans (congrArg Config.fbLen (exec_extends h).cfg.symm))
    | startscroll _ _ _ _ hi _ => cases hi
  · cases hrun with
    | clear =>
      exact observe_fb_ofBytes hs hp rfl (List.length_replicate.trans (congrArg Config.fbLen (exec_extends h).cfg.symm))
    | startscroll _ _ _ _ hi _ => cases hi

/-! ## The plans as the rules write them (30_encoding.md R136; 41_framebuffer.md R80; 44_scroll.md R110, R111) -/

/-- An operand field of `w` bits, widened, is the number it was made of. -/
theorem setWidth_ofNat_eq {w n : Nat} (hw : w ≤ 8) (h : n < 2 ^ w) :
    (BitVec.ofNat w n).setWidth 8 = BitVec.ofNat 8 n := by
  have : 2 ^ w ≤ 2 ^ 8 := Nat.pow_le_pow_right (by omega) hw
  apply BitVec.eq_of_toNat_eq
  simp [Nat.mod_eq_of_lt h]

/-- A field of `w` bits drops the bits above it, as the mask does. -/
theorem setWidth_ofNat_four (c : Nat) : (BitVec.ofNat 4 c).setWidth 8 = BitVec.ofNat 8 (c &&& 0x0F) := by
  have hmask : c &&& 0x0F = c % 16 := Nat.and_two_pow_sub_one_eq_mod c 4
  apply BitVec.eq_of_toNat_eq
  simp [hmask]

theorem cursorTriple_eq {p c : Nat} (hp : p < 8) (hc : c < 128) : cursorTriple p c = triple p c := by
  have hshift : c >>> 4 = c / 16 := Nat.shiftRight_eq_div_pow c 4
  have hpage := setWidth_ofNat_eq (by decide : 3 ≤ 8) (show p < 2 ^ 3 by omega)
  have hhigh := setWidth_ofNat_eq (by decide : 3 ≤ 8) (show c / 16 < 2 ^ 3 by omega)
  simp only [cursorTriple, txnOf_setPageStart, txnOf_setColLow, txnOf_setColHigh, triple, W, setWidth_ofNat_four, hpage,
    hhigh, hshift]
  rfl

/-- The triple of a position of the panel. -/
theorem cursorTriple_eq_of_valid {cfg : Config} (hv : cfg.valid = true) {p c : Nat} (hp : p < cfg.pages)
    (hc : c < cfg.columns) : cursorTriple p c = triple p c := by
  obtain ⟨-, hpages, -, hcolumns, -⟩ := valid_iff.1 hv
  exact cursorTriple_eq (by omega) (by omega)

theorem flushPlan_eq {cfg : Config} (hv : cfg.valid = true) {cur : Cursor} (hc : cur.valid cfg = true)
    (fbx : List Byte) : flushPlan cfg fbx cur = flush cfg fbx cur.page cur.column := by
  obtain ⟨hp, hcol⟩ := cursor_valid_iff.1 hc
  unfold flushPlan flush
  rw [cursorTriple_eq_of_valid hv hp hcol]
  congr 1
  refine List.flatMap_congr fun p hp => ?_
  rw [flushPage, cursorTriple_eq_of_valid hv (List.mem_range.1 hp) (by omega : 0 < cfg.columns)]
  rfl

theorem teardownPlan_eq {cfg : Config} (hv : cfg.valid = true) {d : Driver} (hc : d.cur.valid cfg = true) :
    teardownPlan cfg d.cur = teardownWrites cfg d := by
  rw [teardownPlan, flushPlan_eq hv hc]
  rfl

theorem scrollSetup_eq (cfg : Config) (dir : Scroll) (sp ep : Byte) :
    scrollSetup cfg dir sp ep = setup cfg dir sp ep := by
  cases dir <;> rfl

theorem scrollPlan_eq (cfg : Config) (d : Driver) (dir : Scroll) (sp ep : Byte) :
    scrollPlan cfg d.scrollActive dir sp ep = scrollPlanOf cfg d dir sp ep := by
  unfold scrollPlan scrollPlanOf
  rw [scrollSetup_eq]
  simp [Driver.scrollActive, W]

/-! ## The plan of a text (42_cursor_text.md R91) -/

/-- A character's transactions and then the text's from where it ends. -/
theorem textWrites_cons {cfg : Config} (hv : cfg.valid = true) {cur : Cursor} (hc : cur.valid cfg = true) (ch : Byte)
    (text : List Byte) :
    textWrites cfg cur.page cur.column (ch :: text) =
      cellPlan cfg cur ch ++ textWrites cfg (cellEnd cfg cur).page (cellEnd cfg cur).column text := by
  obtain ⟨hpages, -, hcolumns, -⟩ := valid_iff.1 hv
  obtain ⟨hp, -⟩ := cellStart_ok hv hc
  have hbefore := cursorTriple_eq_of_valid hv hp hcolumns
  have hafter := cursorTriple_eq_of_valid hv (Nat.mod_lt ((cellStart cfg cur).page + 1) hpages) hcolumns
  rw [textWrites, cellPlan, hbefore, hafter]
  unfold cellEnd cellStart
  by_cases h₁ : cur.column + cfg.cellW > cfg.columns
  · simp only [h₁, if_true]
    split <;> rfl
  · simp only [h₁, if_false]
    split <;> rfl

/-- A rendered text has sent what R91 writes. -/
theorem renderText_plan {cfg : Config} (hv : cfg.valid = true) {text : List Byte} {fb : Memory} {cur : Cursor}
    {plan : List Txn} {r : Render} (hc : cur.valid cfg = true) (h : renderText cfg ⟨fb, cur, plan⟩ text = .ok r) :
    r.plan = plan ++ textWrites cfg cur.page cur.column text := by
  induction text generalizing fb cur plan with
  | nil => cases h; exact (List.append_nil plan).symm
  | cons ch text ih =>
    rw [renderText, renderChar_eq] at h
    cases hstore : storeBytes cfg.fbLen fb (cellIdx cfg cur) (cell cfg ch) with
    | error f => rw [hstore] at h; cases h
    | ok fb' =>
      rw [hstore] at h
      rw [ih (cellEnd_valid hv hc) h, textWrites_cons hv hc, List.append_assoc]

theorem driver_wf_iff {cfg : Config} {d : Driver} :
    d.wf cfg = true ↔ d.cur.valid cfg = true ∧ d.fb.wf = true ∧ d.fb.below cfg.fbLen = true := by
  simp only [Driver.wf, Bool.and_eq_true, and_assoc]

theorem scrollActive_eq (d : Driver) : d.scrollActive = decide (d.scrolling ≠ .none) := by
  cases h : d.scrolling <;> simp [Driver.scrollActive, h]

theorem markDrawn_eq_drawn (d : Driver) : d.markDrawn = drawn d := by
  rw [Driver.markDrawn, scrollActive_eq, drawn]

theorem markWritten_eq_written (d : Driver) (text : List Byte) : d.markWritten text = written d text := by
  simp [Driver.markWritten, written, markDrawn_eq_drawn]

/-- Every text is written from a well-formed driver, with at most 7 transactions a character, and an empty one moves
nothing (R61, R91). -/
theorem opRun_write {cfg : Config} (hv : cfg.valid = true) {d : Driver} (hd : d.wf cfg = true) (text : List Byte) :
    ∃ fb' cur', OpRun cfg d (.write text) (written d text) { written d text with fb := fb', cur := cur' }
        (textWrites cfg d.cur.page d.cur.column text) ∧
      (textWrites cfg d.cur.page d.cur.column text).length ≤ 7 * text.length ∧
      (text = [] → fb' = d.fb ∧ cur' = d.cur) := by
  obtain ⟨hcur, hfb, hbelow⟩ := driver_wf_iff.1 hd
  obtain ⟨fb', cur', ws, -, -, -, hlen, -, hrender⟩ := renderText_ok hv text hcur hfb hbelow
  have hrun := OpRun.write (cfg := cfg) (d := d) text _ (hrender [])
  have hplan : [] ++ ws = [] ++ textWrites cfg d.cur.page d.cur.column text := renderText_plan hv hcur (hrender [])
  rw [hplan, markWritten_eq_written] at hrun
  rw [List.append_cancel_left hplan] at hlen
  refine ⟨fb', cur', hrun, hlen, ?_⟩
  rintro rfl
  have h := hrender []
  simp only [renderText, Except.ok.injEq, Render.mk.injEq] at h
  obtain ⟨hfb', hcur', -⟩ := h
  exact ⟨hfb'.symm, hcur'.symm⟩

/-! ## The operations with a plan that does not depend on a text -/

/-- Zeros are what an empty list of cells holds (R23). -/
theorem ofBytesAt_zeros (a n : Nat) : Memory.ofBytesAt a (zeros n) = [] := by
  induction n generalizing a with
  | zero => rfl
  | succ n ih =>
    rw [zeros, List.replicate_succ, Memory.ofBytesAt, if_pos (show 0x00#8 = Memory.blank from rfl)]
    exact ih (a + 1)

/-- A legal `startscroll*` runs as R110 writes it. -/
theorem opRun_startscroll {cfg : Config} (d : Driver) {i : Instr} {dir : Scroll} {sp ep : Byte}
    (hi : scrollOperands i = some (dir, sp, ep)) (h : scrollRangeOk cfg sp ep = true) :
    OpRun cfg d i d (d.setScrolling dir) (scrollPlanOf cfg d dir sp ep) :=
  scrollPlan_eq cfg d dir sp ep ▸ .startscroll i dir sp ep hi h

/-- An operation with operands that pass their checks runs with the plan, the plan step and the commit that its rule
writes. -/
theorem opRun_planned {cfg : Config} (hv : cfg.valid = true) {d : Driver} (hc : d.cur.valid cfg = true) {i : Instr}
    (h : planned cfg i = true) : OpRun cfg d i (plannedDriver d i) (committed d i) (planOf cfg d i) := by
  cases i with
  | clear =>
    have hrun := OpRun.clear (cfg := cfg) (d := d)
    rwa [Memory.ofBytes, ofBytesAt_zeros, markDrawn_eq_drawn, flushPlan_eq hv hc] at hrun
  | draw bitmap =>
    have hrun := OpRun.draw (cfg := cfg) (d := d) bitmap (beq_iff_eq.1 h)
    rwa [markDrawn_eq_drawn, flushPlan_eq hv hc] at hrun
  | setCursor page column =>
    have hcur : (cursorOf page column).valid cfg = true := h
    have hrun := OpRun.setCursor (d := d) page column hcur
    obtain ⟨hp, hcol⟩ := cursor_valid_iff.1 hcur
    have htriple : cursorTriple page.toNat column.toNat = triple page.toNat column.toNat :=
      cursorTriple_eq_of_valid hv hp hcol
    rwa [htriple] at hrun
  | invert enable =>
    have hrun := OpRun.invert (cfg := cfg) (d := d) enable
    cases enable <;> exact hrun
  | dim enable => exact .dim enable
  | startscrollright _ _ | startscrollleft _ _ | startscrolldiagleft _ _ | startscrolldiagright _ _ =>
    exact opRun_startscroll d rfl h
  | stopscroll => exact .stopscroll
  | _ => cases h

/-! ## A plan that completes and a plan that hangs -/

/-- A plan answered `ok` throughout (R57). -/
theorem startPlan_completed {plan : List Txn} {s : State} {rest : List WriteAnswer} (d₁ d' : Driver)
    (ha : s.writeAnswers = oks plan.length rest) :
    startPlan plan (.update d') (s.starting d₁) = completed s plan rest d' :=
  send_done (s := s.starting d₁) ha (by simp)

/-- A plan whose transaction `k` is not answered (R40, R58). -/
theorem startPlan_hung {plan : List Txn} {c : Commit} {s : State} {k : Nat} (hk : k < plan.length)
    (ha : s.writeAnswers = oks k []) (hr : s.response = none) :
    startPlan plan c s = hung s s.phase plan k c := by
  rw [startPlan, send_hang hk (by simpa [oks] using ha) (by simpa using hk)]
  simp [hung, State.sent, hr, okEvents, acknowledged]

/-- An operation of phase `Open` that hangs at transaction `k` of its plan. -/
theorem exec_hung {i : Instr} {s : State} {d d₁ d' : Driver} {plan : List Txn} {k : Nat} (hs : Ready s d)
    (hrun : OpRun s.cfg d i d₁ d' plan) (hk : k < plan.length) (ha : s.writeAnswers = oks k []) :
    exec i s = .next (hung s (.opened d₁) plan k (.update d')) := by
  obtain ⟨hv, hidle, hp⟩ := hs
  rw [exec_of_opRun hv hidle hp hrun, startPlan_hung (s := s.starting d₁) hk ha rfl]
  rfl

theorem exec_teardown_hung {s : State} {d : Driver} {k : Nat} (hs : Ready s d) (hc : d.cur.valid s.cfg = true)
    (hk : k < (teardownWrites s.cfg d).length) (ha : s.writeAnswers = oks k []) :
    exec .teardown s = .next (hung s (.opened d) (teardownWrites s.cfg d) k .demolish) := by
  obtain ⟨hv, hidle, hp⟩ := hs
  rw [exec_teardown_ready hv hidle hp, teardownPlan_eq hv hc,
    startPlan_hung (s := s.starting d) hk ha rfl]
  rfl

/-- An accepted `construct` is its `TOpen` and what follows. -/
theorem exec_construct_ready {s : State} (hs : ReadyClosed s) (b a : Byte) :
    exec (.construct b a) s = .next (openTransport b a (initPlan s.cfg) { s with response := none }) := by
  obtain ⟨hv, hidle, hp⟩ := hs
  show execConstruct b a s = _
  rw [execConstruct, acceptClosed_ready hv hidle hp]

theorem exec_construct_opening {s : State} (hs : ReadyClosed s) (b a : Byte) (ha : s.openAnswers = []) :
    exec (.construct b a) s = .next { s with response := none, handle := true, sequencer := .opening b a } := by
  rw [exec_construct_ready hs]
  simp [openTransport, ha]

theorem exec_construct_hung {s : State} {ro : List OpenAnswer} {k : Nat} (hs : ReadyClosed s) (b a : Byte)
    (ho : s.openAnswers = .ack :: ro) (hk : k < (initWrites s.cfg).length) (ha : s.writeAnswers = oks k []) :
    exec (.construct b a) s = .next (hung (acked s b a ro) .closed (initWrites s.cfg) k (.build b a)) := by
  have hopen : openTransport b a (initPlan s.cfg) { s with response := none } =
      startPlan (initWrites s.cfg) (.build b a) { acked s b a ro with response := none } := by
    simp only [openTransport, ho]
    rfl
  rw [exec_construct_ready hs, hopen,
    startPlan_hung (s := { acked s b a ro with response := none }) hk ha rfl]
  obtain ⟨-, -, hp⟩ := hs
  simp [hung, acked, hp]

/-- Settles O33: the `TOpen` and a write of a `construct`, then a write of each operation of phase `Open`. -/
theorem hungCallLeavesOperationInProgress : Obligations.HungCallLeavesOperationInProgress := by
  refine ⟨fun s b a hs => ⟨exec_construct_opening hs b a, fun ro k => exec_construct_hung hs b a⟩,
    fun s d k => exec_teardown_hung, ?_, ?_⟩
  · intro s d text k ⟨hv, hidle, hp⟩ hd hk ha
    obtain ⟨fb', cur', hrun, -, -⟩ := opRun_write hv hd text
    exact ⟨fb', cur', exec_hung ⟨hv, hidle, hp⟩ hrun hk ha⟩
  · intro s d i k ⟨hv, hidle, hp⟩ hc hi hk ha
    exact exec_hung ⟨hv, hidle, hp⟩ (opRun_planned hv hc hi) hk ha

/-! ## A text that is written to its end -/

/-- Answers `ok` to spare. -/
theorem oks_split {n k : Nat} (h : k ≤ n) (rest : List WriteAnswer) : oks n rest = oks k (oks (n - k) rest) := by
  simp [oks, ← List.append_assoc, List.replicate_append_replicate, Nat.add_sub_cancel' h]

/-- Settles O28: a text's plan has at most 7 transactions a character, all of them answered `ok`. -/
theorem writeAlwaysCompletes : Obligations.WriteAlwaysCompletes := by
  intro s d text rest ⟨hv, hidle, hp⟩ hd ha
  obtain ⟨fb', cur', hrun, hlen, hempty⟩ := opRun_write hv hd text
  obtain ⟨-, hfollow, -⟩ := opRun_wf hv hrun hd
  obtain ⟨hd', -⟩ := mayFollow_iff.1 hfollow
  have hdone := startPlan_completed (s := s) (written d text) { written d text with fb := fb', cur := cur' }
    (ha.trans (oks_split hlen rest))
  refine ⟨_, _, (exec_of_opRun hv hidle hp hrun).trans (congrArg _ hdone), rfl, rfl, rfl, hd', ?_⟩
  rintro rfl
  obtain ⟨rfl, rfl⟩ := hempty rfl
  exact ⟨rfl, List.append_nil _, ha.symm⟩

/-! ## Reset, and which instruction a step runs -/

/-- Settles O1: the fields as reset sets them, and an idle block without a request waits. -/
theorem resetLeavesClosedAndSilent : Obligations.ResetLeavesClosedAndSilent :=
  ⟨rfl, rfl, rfl, rfl, observe_closed rfl, rfl⟩

/-- Settles O2: the default configuration meets the constraints of R6 and leaves scrolling deactivated. -/
theorem resetMeetsInvariants : Obligations.ResetMeetsInvariants := by
  refine ⟨?_, rfl, ?_⟩ <;> decide

/-- Settles O3: a request of three bytes or more fills the four latches (R50). -/
theorem stepRunsNextRequest : Obligations.StepRunsNextRequest := by
  intro s op a b payload rest i hs hr hi
  have hfetch : fetch s = .bytes .request (op :: a :: b :: payload)
      { s with requests := rest, req := some ⟨op, a, b, payload⟩ } := by
    simp [fetch, hs, hr, latch, parseRequest]
  simp only [step, hfetch, hi]

/-- Settles O4: the plan's transaction is fetched as its own bytes, from the state as it is. -/
theorem stepRunsPlannedTransaction : Obligations.StepRunsPlannedTransaction := by
  intro s e w i hs hw hi
  have hfetch : fetch s = .bytes .transport (w.control :: w.data) s := by
    simp [fetch, hs, hw, txnBytes]
  simp only [step, hfetch, hi]

/-- Settles O15, the bound on the response codes by the five responses. -/
theorem codesAsNumbered : Obligations.CodesAsNumbered := by
  refine ⟨rfl, rfl, rfl, rfl, rfl, fun r => ?_, rfl, rfl, rfl, rfl, rfl⟩
  cases r <;> decide

end Sys2Proof.Machine

/-! # Proofs of the memory statements: the Transport's trace, resumed operations, the layout of the framebuffer, and the
panel it mirrors

What a plan's events make of the bracketing and of the panel is said once for the shared operations; the statements are
read off the list of what an operation (`exec_request_next`) and a step (`step_next`) can do. -/

namespace Sys2Proof.Machine

open Sys2Proof.Claims

/-! ## What an operation can do, the lifecycle operations included -/

/-- Every accepted operation: a `construct` from phase `Closed`, a `teardown` from phase `Open`, or another operation of
phase `Open`, whose plan is started or whose argument check fails (R56, R57). -/
theorem exec_request_next {i : Instr} {s t : State} (h : exec i s = .next t) (hf : i.format = .req) :
    (∃ b a, i = .construct b a ∧ s.sequencer = .idle ∧ s.phase = .closed ∧
      t = openTransport b a (initPlan s.cfg) { s with response := none }) ∨
    (∃ d, i = .teardown ∧ s.sequencer = .idle ∧ s.phase = .opened d ∧
      t = startPlan (teardownPlan s.cfg d.cur) .demolish (s.starting d)) ∨
    (∃ d, isLifecycle i = false ∧ s.sequencer = .idle ∧ s.phase = .opened d ∧
      ((∃ d₁ d' plan, OpRun s.cfg d i d₁ d' plan ∧ t = startPlan plan (.update d') (s.starting d₁)) ∨
       (∃ r, OpError s.cfg i r ∧ t = (s.starting d).respond r))) := by
  cases hl : isLifecycle i with
  | true =>
    cases i with
    | construct b a =>
      obtain ⟨-, hs, hp, ht⟩ := exec_construct_next h
      exact .inl ⟨b, a, rfl, hs, hp, ht⟩
    | teardown =>
      obtain ⟨d, -, hs, hp, ht⟩ := exec_teardown_next h
      exact .inr (.inl ⟨d, rfl, hs, hp, ht⟩)
    | _ => cases hl
  | false =>
    obtain ⟨hc, ht⟩ := isLifecycle_eq_false hl
    obtain ⟨d, -, hs, hp, houtcome⟩ := exec_open_next h hf hc ht
    exact .inr (.inr ⟨d, rfl, hs, hp, houtcome⟩)

/-! ## The bracketing of the trace (40_lifecycle.md R73) -/

theorem bracketOf_append (trace evs : List Event) :
    bracketOf (trace ++ evs) = evs.foldl Bracket.event (bracketOf trace) := List.foldl_append

/-- Writes stay inside the bracket they are made in. -/
theorem foldl_bracket_of_writesOnly {evs : List Event} (h : WritesOnly evs) :
    evs.foldl Bracket.event .acked = .acked := by
  induction evs with
  | nil => rfl
  | cons ev evs ih =>
    obtain ⟨control, data, ans, rfl⟩ := h ev List.mem_cons_self
    exact ih fun ev' hev' => h ev' (List.mem_cons_of_mem _ hev')

theorem bracketed_opening {s : State} {b a : Byte} (hs : s.sequencer = .opening b a) :
    s.bracketed = true ↔ bracketOf s.trace = .released := by
  simp [State.bracketed, hs]

/-- Where no `TOpen` is pending, the handle says where the trace stands. -/
theorem bracketed_of_not_opening {s : State} (hs : ∀ b a, s.sequencer ≠ .opening b a) :
    s.bracketed = true ↔ bracketOf s.trace = if s.handle then .acked else .released := by
  cases h : s.sequencer with
  | opening b a => exact absurd h (hs b a)
  | idle | emitting _ => simp [State.bracketed, h]

/-- The trace stands inside a bracket and the handle is held. -/
structure Held (s : State) : Prop where
  trace : bracketOf s.trace = .acked
  handle : s.handle = true

theorem Held.bracketed {s : State} (h : Held s) (hs : ∀ b a, s.sequencer ≠ .opening b a) : s.bracketed = true := by
  rw [bracketed_of_not_opening hs, h.handle]
  exact h.trace

theorem Held.sent {s : State} {evs : List Event} (h : Held s) (hevs : WritesOnly evs) (left : List WriteAnswer) :
    Held (s.sent evs left) where
  trace := by rw [sent_trace, bracketOf_append, h.trace, foldl_bracket_of_writesOnly hevs]
  handle := h.handle

/-- A release closes the bracket (R39). -/
theorem Held.bracketOf_release {s : State} (h : Held s) : bracketOf s.release.trace = .released := by
  rw [release_trace, bracketOf_append, h.trace]
  rfl

/-- An operation that ends as it gives the handle back leaves the trace outside every bracket. -/
theorem bracketed_of_released {s : State} (hs : s.sequencer = .idle) (hh : s.handle = false)
    (ht : bracketOf s.trace = .released) : s.bracketed = true := by
  rw [bracketed_of_not_opening (by simp [hs]), hh]
  exact ht

theorem Held.bracketed_finish {s : State} (h : Held s) (c : Commit) : (finish c s).bracketed = true := by
  cases c with
  | build b a => exact Held.bracketed ⟨h.trace, h.handle⟩ nofun
  | demolish => exact bracketed_of_released rfl rfl h.bracketOf_release
  | update d => exact Held.bracketed ⟨h.trace, h.handle⟩ nofun

theorem Held.bracketed_abort {s : State} (h : Held s) (c : Commit) : (abort c s).bracketed = true := by
  cases c with
  | build b a => exact bracketed_of_released rfl rfl h.bracketOf_release
  | demolish => exact bracketed_of_released rfl rfl h.bracketOf_release
  | update d =>
    refine Held.bracketed ⟨?_, ?_⟩ (by simp)
    · rw [abort_update_trace]; exact h.trace
    · rw [abort_update_handle]; exact h.handle

/-- Transactions of a plan are sent inside the bracket, and what ends the plan keeps or closes it. -/
theorem Held.bracketed_send {s : State} (h : Held s) (e : Emission) (ws : List Txn) :
    (send e ws s).bracketed = true := by
  rcases send_cases e ws s with ⟨rest, -, -, ht⟩ | ⟨k, w, rest, -, -, ht⟩ | ⟨k, rest, -, -, -, -, ht⟩ |
    ⟨k, -, -, -, ht⟩ <;> rw [ht]
  · exact (h.sent (writesOnly_okEvents _) _).bracketed_finish _
  · exact (h.sent (writesOnly_append_twrite (writesOnly_okEvents _) _ _ _) _).bracketed_abort _
  · obtain ⟨htrace, hhandle⟩ := h.sent (writesOnly_okEvents (ws.take k)) rest
    exact Held.bracketed ⟨htrace, hhandle⟩ nofun
  · exact (h.sent (writesOnly_okEvents _) _).bracketed_finish _

/-- A `TOpen` made outside every bracket: not answered, `noack` and at once released, or `ack` and its plan (R39). -/
theorem bracketed_openTransport {s : State} (h : bracketOf s.trace = .released) (b a : Byte) (plan : List Txn) :
    (openTransport b a plan s).bracketed = true := by
  rcases openTransport_cases b a plan s with ⟨-, ht⟩ | ⟨rest, -, ht⟩ | ⟨rest, -, ht⟩ <;> rw [ht]
  · exact (bracketed_opening rfl).2 h
  · refine bracketed_of_released rfl rfl ?_
    rw [bracketOf_append, h]
    rfl
  · refine Held.bracketed_send ⟨?_, rfl⟩ _ _
    rw [bracketOf_append, h]
    rfl

/-- Between operations the trace stands inside a bracket exactly in phase `Open`. -/
theorem bracketOf_idle {s : State} (hw : s.wf = true) (hb : s.bracketed = true) (hs : s.sequencer = .idle) :
    bracketOf s.trace = if s.phase.isOpen then .acked else .released := by
  obtain ⟨-, -, -, hhandle⟩ := wf_iff.1 hw
  rw [(bracketed_of_not_opening (by simp [hs])).1 hb, hhandle, hs]
  simp [Sequencer.inProgress]

theorem held_starting {s : State} {d : Driver} (hw : s.wf = true) (hb : s.bracketed = true)
    (hs : s.sequencer = .idle) (hp : s.phase = .opened d) (d₁ : Driver) : Held (s.starting d₁) := by
  have htrace := bracketOf_idle hw hb hs
  rw [hp] at htrace
  obtain ⟨-, hhandle⟩ := wf_opened hw hp
  exact ⟨htrace, hhandle⟩

theorem held_of_emitting {s : State} {e : Emission} (hw : s.wf = true) (hb : s.bracketed = true)
    (hs : s.sequencer = .emitting e) : Held s := by
  obtain ⟨-, -, hhandle⟩ := wf_emitting hw hs
  have htrace := (bracketed_of_not_opening (by simp [hs])).1 hb
  rw [hhandle] at htrace
  exact ⟨htrace, hhandle⟩

theorem bracketed_exec {i : Instr} {s t : State} (hw : s.wf = true) (hb : s.bracketed = true)
    (h : exec i s = .next t) (hf : i.format = .req) : t.bracketed = true := by
  rcases exec_request_next h hf with ⟨b, a, -, hs, hp, rfl⟩ | ⟨d, -, hs, hp, rfl⟩ |
    ⟨d, -, hs, hp, ⟨d₁, d', plan, -, rfl⟩ | ⟨r, -, rfl⟩⟩
  · have htrace := bracketOf_idle hw hb hs
    rw [hp] at htrace
    exact bracketed_openTransport (s := { s with response := none }) htrace _ _ _
  · exact (held_starting hw hb hs hp d).bracketed_send _ _
  · exact (held_starting hw hb hs hp d₁).bracketed_send _ _
  · obtain ⟨htrace, hhandle⟩ := held_starting hw hb hs hp d
    exact Held.bracketed ⟨htrace, hhandle⟩ nofun

/-- Settles O46: a plan is sent with the handle held, a `TOpen` is made without it. -/
theorem stepKeepsTraceBracketed : Obligations.StepKeepsTraceBracketed := by
  intro s t hw hb h
  rcases step_next h with ⟨-, -, rfl⟩ | ⟨b, a, hs, rfl⟩ | ⟨e, hs, -, rfl⟩ | ⟨e, w, i, hs, -, -, rfl⟩ |
    ⟨bs, rest, i, -, -, hf, -, h⟩
  · exact hb
  · exact bracketed_openTransport ((bracketed_opening hs).1 hb) _ _ _
  · exact (held_of_emitting hw hb hs).bracketed_send _ _
  · exact (held_of_emitting hw hb hs).bracketed_send _ _
  · exact bracketed_exec (s := { s with requests := rest, req := latch bs }) hw hb h hf

/-! ## What opens and closes the phase (40_lifecycle.md R72) -/

/-- An operation that is in progress stands in phase `Closed`, and one that has ended has opened the phase exactly with
the response `OK`: what R72 asks of a `construct`. -/
def OpensWithOk (t : State) : Prop :=
  (t.sequencer ≠ .idle → t.phase = .closed) ∧
    (t.sequencer = .idle → (t.phase.isOpen = true ↔ t.response = some .ok))

theorem opensWithOk_of_closed {t : State} (hp : t.phase = .closed) (hr : t.sequencer = .idle → t.response ≠ some .ok) :
    OpensWithOk t :=
  ⟨fun _ => hp, fun hs => by simp [hp, Phase.isOpen, hr hs]⟩

theorem opensWithOk_of_ok {t : State} (hs : t.sequencer = .idle) (hp : t.phase.isOpen = true)
    (hr : t.response = some .ok) : OpensWithOk t :=
  ⟨fun hne => absurd hs hne, fun _ => iff_of_true hp hr⟩

/-- Transactions of the plan of a `construct`. -/
theorem send_build_phase {e : Emission} {b a : Byte} (hc : e.commit = .build b a) {s : State} (hp : s.phase = .closed)
    (ws : List Txn) : OpensWithOk (send e ws s) := by
  rcases send_cases e ws s with ⟨_, -, -, h⟩ | ⟨_, _, _, -, -, h⟩ | ⟨_, _, -, -, -, -, h⟩ | ⟨_, -, -, -, h⟩ <;>
    rw [h, hc]
  · exact opensWithOk_of_ok rfl rfl rfl
  · exact opensWithOk_of_closed hp nofun
  · exact opensWithOk_of_closed hp nofun
  · exact opensWithOk_of_ok rfl rfl rfl

/-- The `TOpen` of a `construct` and what follows it. -/
theorem openTransport_phase {s : State} (hp : s.phase = .closed) (b a : Byte) (plan : List Txn) :
    OpensWithOk (openTransport b a plan s) := by
  rcases openTransport_cases b a plan s with ⟨-, h⟩ | ⟨_, -, h⟩ | ⟨_, -, h⟩ <;> rw [h]
  · exact opensWithOk_of_closed hp nofun
  · exact opensWithOk_of_closed hp nofun
  · refine send_build_phase (e := ⟨plan, 0, .build b a⟩) rfl ?_ plan
    exact hp

/-- Transactions of the plan of a `teardown`: the phase stays until the plan ends, and is then `Closed` (R71). -/
theorem send_demolish_phase {e : Emission} (hc : e.commit = .demolish) (ws : List Txn) (s : State) :
    ((send e ws s).sequencer ≠ .idle → (send e ws s).phase = s.phase) ∧
      ((send e ws s).sequencer = .idle → (send e ws s).phase = .closed) := by
  rcases send_cases e ws s with ⟨_, -, -, h⟩ | ⟨_, _, _, -, -, h⟩ | ⟨_, _, -, -, -, -, h⟩ | ⟨_, -, -, -, h⟩ <;> rw [h]
  · rw [hc]
    exact ⟨fun hs => absurd rfl hs, fun _ => rfl⟩
  · rw [hc]
    exact ⟨fun hs => absurd rfl hs, fun _ => rfl⟩
  · exact ⟨fun _ => rfl, nofun⟩
  · rw [hc]
    exact ⟨fun hs => absurd rfl hs, fun _ => rfl⟩

/-- Transactions of any other plan leave the phase `Open`. -/
theorem send_update_isOpen {e : Emission} {d' : Driver} (hc : e.commit = .update d') {s : State} {d : Driver}
    (hp : s.phase = .opened d) (ws : List Txn) : (send e ws s).phase.isOpen = true := by
  rcases send_update_cases hc hp ws with ⟨-, h⟩ | ⟨-, h⟩ | ⟨-, h⟩ <;> rw [h] <;> rfl

theorem exec_construct_phase {s t : State} {b a : Byte} (h : exec (.construct b a) s = .next t) :
    s.phase = .closed ∧ OpensWithOk t := by
  obtain ⟨-, -, hp, rfl⟩ := exec_construct_next h
  exact ⟨hp, openTransport_phase (s := { s with response := none }) hp _ _ _⟩

theorem exec_teardown_phase {s t : State} (h : exec .teardown s = .next t) :
    s.phase.isOpen = true ∧ (t.sequencer ≠ .idle → t.phase = s.phase) ∧ (t.sequencer = .idle → t.phase = .closed) := by
  obtain ⟨d, -, -, hp, rfl⟩ := exec_teardown_next h
  obtain ⟨hstay, hclose⟩ := send_demolish_phase (e := ⟨teardownPlan s.cfg d.cur, 0, .demolish⟩) rfl
    (teardownPlan s.cfg d.cur) (s.starting d)
  exact ⟨by rw [hp]; rfl, fun hs => (hstay hs).trans hp.symm, hclose⟩

theorem exec_open_phase {i : Instr} {s t : State} (h : exec i s = .next t) (hf : i.format = .req)
    (hl : isLifecycle i = false) : s.phase.isOpen = true ∧ t.phase.isOpen = true := by
  obtain ⟨hc, ht⟩ := isLifecycle_eq_false hl
  obtain ⟨d, -, -, hp, ⟨d₁, d', plan, -, rfl⟩ | ⟨r, -, rfl⟩⟩ := exec_open_next h hf hc ht
  · exact ⟨by rw [hp]; rfl, send_update_isOpen rfl (starting_phase s d₁) plan⟩
  · exact ⟨by rw [hp]; rfl, rfl⟩

/-! ### Which operation a step runs -/

/-- What R72 says of a step by the operation it runs. -/
def PhaseStep (s t : State) : Prop :=
  (runsConstruct s = true → s.phase = .closed ∧ OpensWithOk t) ∧
  (runsTeardown s = true → s.phase.isOpen = true ∧ (t.sequencer ≠ .idle → t.phase = s.phase) ∧
    (t.sequencer = .idle → t.phase = .closed)) ∧
  (runsConstruct s = false → runsTeardown s = false → t.phase.isOpen = s.phase.isOpen)

theorem phaseStep_opening {s : State} {b a : Byte} (hs : s.sequencer = .opening b a) (hp : s.phase = .closed)
    (plan : List Txn) : PhaseStep s (openTransport b a plan s) := by
  have hruns : runsConstruct s = true := by simp [runsConstruct, runs, hs]
  have hruns' : runsTeardown s = false := by simp [runsTeardown, runs, hs]
  refine ⟨fun _ => ⟨hp, openTransport_phase hp _ _ _⟩, fun h => ?_, fun h => ?_⟩
  · rw [hruns'] at h; cases h
  · rw [hruns] at h; cases h

/-- A step that sends a transaction of a plan in progress: the commit says whose plan it is. -/
theorem phaseStep_emitting {s : State} {e : Emission} (hw : s.wf = true) (hs : s.sequencer = .emitting e)
    (ws : List Txn) : PhaseStep s (send e ws s) := by
  obtain ⟨-, hcommit, -⟩ := wf_emitting hw hs
  cases hc : e.commit with
  | build b a =>
    rw [hc] at hcommit
    have hp : s.phase = .closed := isOpen_eq_false hcommit
    refine ⟨fun _ => ⟨hp, send_build_phase hc hp ws⟩, ?_, ?_⟩ <;> simp [runsConstruct, runsTeardown, runs, hs, hc]
  | demolish =>
    rw [hc] at hcommit
    refine ⟨?_, fun _ => ⟨hcommit, send_demolish_phase hc ws s⟩, ?_⟩ <;>
      simp [runsConstruct, runsTeardown, runs, hs, hc]
  | update d' =>
    cases hp : s.phase with
    | closed => rw [hc, hp] at hcommit; cases hcommit
    | opened d =>
      refine ⟨?_, ?_, fun _ _ => (send_update_isOpen hc hp ws).trans (by rw [hp]; rfl)⟩ <;>
        simp [runsConstruct, runsTeardown, runs, hs, hc]

/-- A step that begins an operation. -/
theorem phaseStep_request {s t : State} {bs : List Byte} {rest : List (List Byte)} {i : Instr}
    (hs : s.sequencer = .idle) (hr : s.requests = bs :: rest) (hi : decode .request bs = .ok i)
    (hf : i.format = .req) (h : exec i { s with requests := rest, req := latch bs } = .next t) : PhaseStep s t := by
  have hruns (op : Instr → Bool) (c : Commit → Bool) : runs s op c = op i := by simp [runs, hs, hr, hi]
  cases hl : isLifecycle i with
  | true =>
    cases i with
    | construct b a =>
      refine ⟨fun _ => exec_construct_phase (s := { s with requests := rest, req := latch bs }) h, ?_, ?_⟩ <;>
        simp [runsConstruct, runsTeardown, hruns]
    | teardown =>
      refine ⟨?_, fun _ => exec_teardown_phase (s := { s with requests := rest, req := latch bs }) h, ?_⟩ <;>
        simp [runsConstruct, runsTeardown, hruns]
    | _ => cases hl
  | false =>
    obtain ⟨hc, ht⟩ := isLifecycle_eq_false hl
    obtain ⟨hopen, hopen'⟩ := exec_open_phase h hf hl
    refine ⟨fun hrun => ?_, fun hrun => ?_, fun _ _ => hopen'.trans hopen.symm⟩
    · rw [runsConstruct, hruns] at hrun
      split at hrun
      · exact absurd rfl (hc _ _)
      · cases hrun
    · rw [runsTeardown, hruns] at hrun
      exact absurd (beq_iff_eq.1 hrun) ht

/-- Settles O18: the two lifecycle operations and the others as `exec` begins them, then the step that begins one or
goes on with it. -/
theorem phaseTransitions : Obligations.PhaseTransitions := by
  refine ⟨fun s t i h hf => ⟨?_, ?_, exec_open_phase h hf⟩, fun s t hw h => ?_⟩
  · rintro b a rfl
    obtain ⟨hp, -, hend⟩ := exec_construct_phase h
    exact ⟨hp, hend⟩
  · rintro rfl
    obtain ⟨hp, -, hend⟩ := exec_teardown_phase h
    exact ⟨hp, hend⟩
  · rcases step_next h with ⟨hs, hr, rfl⟩ | ⟨b, a, hs, rfl⟩ | ⟨e, hs, -, rfl⟩ | ⟨e, w, i, hs, -, -, rfl⟩ |
      ⟨bs, rest, i, hs, hr, hf, hi, h⟩
    · simp [runsConstruct, runsTeardown, runs, hs, hr]
    · exact phaseStep_opening hs (wf_opening hw hs) _
    · exact phaseStep_emitting hw hs _
    · exact phaseStep_emitting hw hs _
    · exact phaseStep_request hs hr hi hf h

/-! ## No fault (20_memory.md R33) -/

/-- An operation whose operands pass its checks or do not: it runs, or answers an error. -/
theorem opRun_or_opError {cfg : Config} (hv : cfg.valid = true) {d : Driver} (hd : d.wf cfg = true) {i : Instr}
    (hf : i.format = .req) (hl : isLifecycle i = false) :
    (∃ d₁ d' plan, OpRun cfg d i d₁ d' plan) ∨ ∃ r, OpError cfg i r := by
  cases i with
  | construct _ _ | teardown => cases hl
  | clear => exact .inl ⟨_, _, _, .clear⟩
  | draw bitmap =>
    by_cases h : bitmap.length = cfg.fbLen
    · exact .inl ⟨_, _, _, .draw bitmap h⟩
    · exact .inr ⟨_, .draw bitmap h⟩
  | setCursor page column =>
    cases h : (cursorOf page column).valid cfg with
    | true => exact .inl ⟨_, _, _, .setCursor page column h⟩
    | false => exact .inr ⟨_, .setCursor page column h⟩
  | write text =>
    obtain ⟨_, _, hrun, -⟩ := opRun_write hv hd text
    exact .inl ⟨_, _, _, hrun⟩
  | invert enable => exact .inl ⟨_, _, _, .invert enable⟩
  | dim enable => exact .inl ⟨_, _, _, .dim enable⟩
  | startscrollright sp ep | startscrollleft sp ep | startscrolldiagleft sp ep | startscrolldiagright sp ep =>
    cases h : scrollRangeOk cfg sp ep with
    | true => exact .inl ⟨_, _, _, .startscroll _ _ sp ep rfl h⟩
    | false => exact .inr ⟨_, .startscroll _ _ sp ep rfl h⟩
  | stopscroll => exact .inl ⟨_, _, _, .stopscroll⟩
  | _ => cases hf

/-- An operation that is not accepted is refused, which is no fault. -/
theorem acceptOpen_fault {s : State} {k : Driver → State → Result} {f : Fault} (h : acceptOpen s k = .fault f) :
    ∃ d, Ready s d := by
  unfold acceptOpen at h
  split at h
  · cases h
  · split at h
    · cases h
    · rename_i hv hi
      split at h
      · cases h
      · exact ⟨_, by simpa using hv, by simpa using hi, ‹_›⟩

theorem acceptClosed_fault {s : State} {k : State → Result} {f : Fault} (h : acceptClosed s k = .fault f) :
    ReadyClosed s := by
  unfold acceptClosed at h
  split at h
  · cases h
  · split at h
    · cases h
    · rename_i hv hi
      split at h
      · exact ⟨by simpa using hv, by simpa using hi, ‹_›⟩
      · cases h

theorem exec_construct_ne_fault (b a : Byte) (s : State) (f : Fault) : exec (.construct b a) s ≠ .fault f := by
  intro h
  obtain ⟨k, hk⟩ := exec_construct_eq_acceptClosed b a s
  cases h.symm.trans (exec_construct_ready (acceptClosed_fault (hk.symm.trans h)) b a)

theorem exec_transport_ne_fault {i : Instr} (hf : i.format ≠ .req) (s : State) (f : Fault) : exec i s ≠ .fault f := by
  by_cases hn : (txnOf i).data = []
  · cases i with
    | txnCommand payload =>
      obtain rfl : payload = [] := hn
      nofun
    | txnData data =>
      obtain rfl : data = [] := hn
      nofun
    | construct _ _ | clear | draw _ | setCursor _ _ | write _ | invert _ | dim _ | startscrollright _ _
    | startscrollleft _ _ | startscrolldiagleft _ _ | startscrolldiagright _ _ | stopscroll | teardown =>
      exact absurd rfl hf
    | _ => cases hn
  · rw [exec_transport hf hn, transact]
    split <;> nofun

/-- From a well-formed state an accepted operation has a next state. -/
theorem exec_ne_fault {i : Instr} {s : State} (hw : s.wf = true) (f : Fault) : exec i s ≠ .fault f := by
  by_cases hf : i.format = .req
  · by_cases hc : ∃ b a, i = .construct b a
    · obtain ⟨b, a, rfl⟩ := hc
      exact exec_construct_ne_fault b a s f
    · intro h
      obtain ⟨k, hk⟩ := exec_eq_acceptOpen hf (fun b a hi => hc ⟨b, a, hi⟩) s
      obtain ⟨d, hv, hs, hp⟩ := acceptOpen_fault (hk.symm.trans h)
      cases hl : isLifecycle i with
      | true =>
        cases i with
        | construct b a => exact hc ⟨b, a, rfl⟩
        | teardown => cases h.symm.trans (exec_teardown_ready hv hs hp)
        | _ => cases hl
      | false =>
        obtain ⟨hd, -⟩ := wf_opened hw hp
        rcases opRun_or_opError hv hd hf hl with ⟨_, _, _, hrun⟩ | ⟨_, herr⟩
        · cases h.symm.trans (exec_of_opRun hv hs hp hrun)
        · cases h.symm.trans (exec_of_opError hv hs hp herr)
  · exact exec_transport_ne_fault hf s f

/-- What a step fetches stands in a state as well-formed as the one before. -/
theorem fetch_bytes_wf {s s' : State} {port : Port} {bs : List Byte} (h : fetch s = .bytes port bs s') :
    s'.wf = s.wf := by
  unfold fetch at h
  split at h
  · cases h
  · split at h
    · cases h
    · cases h; rfl
  · split at h
    · cases h
    · cases h; exact wf_taken _ _

/-- Settles O45: a step faults only where the instruction it fetches does. -/
theorem wellFormedNeverFaults : Obligations.WellFormedNeverFaults := by
  intro s f hw h
  unfold step at h
  split at h
  · cases h
  · cases h
  · cases h
  · rename_i port bs s' hfetch
    split at h
    · cases h
    · exact exec_ne_fault ((fetch_bytes_wf hfetch).trans hw) f h

/-! ## A step without its input -/

/-- No transaction is sent without an answer (R40). -/
theorem send_no_answer {e : Emission} {ws : List Txn} {s : State} (hs : s.sequencer = .emitting e) (hn : ws ≠ [])
    (hl : e.seq < e.plan.length) (ha : s.writeAnswers = []) : send e ws s = s := by
  rw [send_hang (k := 0) (List.length_pos_iff.2 hn) ha hl]
  simp [State.sent, ← hs, ← ha]

/-- A `TOpen` without an answer stands as it is, the handle held (R40, R73). -/
theorem openTransport_no_answer {s : State} {b a : Byte} (hs : s.sequencer = .opening b a) (hh : s.handle = true)
    (ha : s.openAnswers = []) (plan : List Txn) : openTransport b a plan s = s := by
  cases s
  cases hs
  cases hh
  cases ha
  rfl

/-- A `fail` of the first transaction aborts, whatever was to follow it. -/
theorem send_first_fail {e : Emission} {w : Txn} {ws : List Txn} {s : State} {rest : List WriteAnswer}
    (ha : s.writeAnswers = .fail :: rest) :
    send e (w :: ws) s = abort e.commit (s.sent [.twrite w.control w.data .fail] rest) :=
  send_fail (k := 0) rfl ha

theorem emission_wf_iff {cfg : Config} {p : Phase} {e : Emission} : e.wf cfg p = true ↔
    e.seq < e.plan.length ∧ e.plan.all txnWf = true ∧ e.commit.wf cfg p = true := by
  simp only [Emission.wf, Bool.and_eq_true, decide_eq_true_eq, and_assoc]

theorem step_opening {s : State} {b a : Byte} (hs : s.sequencer = .opening b a) :
    step s = .next (openTransport b a (initPlan s.cfg) s) := by
  simp [step, fetch, hs]

/-- Settles O5, clause by clause: no request, no answer to the `TOpen`, no answer to the next `TWrite`. -/
theorem stepWaitsForInput : Obligations.StepWaitsForInput := by
  refine ⟨fun s hs hr => ?_, fun s b a hs hh ha => ?_, fun s e hs hw ha => ?_⟩
  · simp [step, fetch, hs, hr]
  · rw [step_opening hs, openTransport_no_answer hs hh ha]
  · obtain ⟨hl, -, -⟩ := emission_wf_iff.1 hw
    obtain ⟨w, -, hstep⟩ := step_emitting hs hw
    rw [hstep, send_no_answer hs (List.cons_ne_nil w []) hl ha]

/-! ## One transaction of a plan in progress (30_encoding.md R59) -/

/-- A transaction with a payload, answered `ok` with more of the plan to come. -/
theorem exec_transport_inPlan {i : Instr} {s : State} {e : Emission} {rest : List WriteAnswer} (h : InPlan s e rest)
    (hf : i.format ≠ .req) (hn : (txnOf i).data ≠ []) :
    exec i s = .next (advanced s e (txnOf i).control (txnOf i).data rest) := by
  obtain ⟨hs, hl, ha⟩ := h
  rw [exec_transport hf hn, transact_emitting _ hs, send_more (ws := [txnOf i]) ha hl]
  rfl

/-- Settles O42: the control byte by the kind of transaction, and no transaction without a payload. -/
theorem transactionsSent : Obligations.TransactionsSent :=
  fun _ _ _ data h =>
    ⟨fun hn => ⟨exec_transport_inPlan (i := .txnCommand data) h nofun hn,
      exec_transport_inPlan (i := .txnData data) h nofun hn⟩, rfl, rfl⟩

/-! ## The three ends of a `construct` (40_lifecycle.md R70) -/

/-- From the acknowledged `TOpen` on, a `construct` is its plan. -/
theorem openTransport_ack {s : State} {ro : List OpenAnswer} (b a : Byte) (ho : s.openAnswers = .ack :: ro) :
    openTransport b a (initPlan s.cfg) s = startPlan (initWrites s.cfg) (.build b a) (acked s b a ro) := by
  simp only [openTransport, ho]
  rfl

/-- A `TOpen`, once it is answered: the latches, the sequencer, the handle and the response are the end's own, whatever
stood in them before. -/
theorem constructEnds_openTransport (s : State) (b a : Byte) :
    ConstructEnds s b a (.next (openTransport b a (initPlan s.cfg) s)) := by
  refine fun ro => ⟨fun ho => ?_, fun ho => ⟨fun rest ha => ?_, fun k w rest hw ha => ?_⟩⟩
  · simp [openTransport, ho, State.release, State.respond, ended]
  · rw [openTransport_ack b a ho, startPlan, send_done (s := acked s b a ro) ha (by simp)]
    rfl
  · rw [openTransport_ack b a ho, startPlan, send_fail (s := acked s b a ro) hw ha]
    simp [abort, State.release, State.respond, State.sent, ended, acked, acknowledged, okEvents]

/-- Settles O16: an accepted `construct` makes its `TOpen`, and a step that finds the answer goes on alike. -/
theorem constructCompletes : Obligations.ConstructCompletes := by
  refine ⟨fun _ _ _ => rfl, ?_, ?_, ?_⟩
  · rintro s d b a ⟨hv, hs, hp⟩
    show execConstruct b a s = _
    simp [execConstruct, acceptClosed, hv, hs, hp]
  · intro s b a hs
    rw [exec_construct_ready hs]
    exact constructEnds_openTransport { s with response := none } b a
  · intro s b a hs _
    rw [step_opening hs]
    exact constructEnds_openTransport s b a

/-! ## The layout of the framebuffer (20_memory.md R30) -/

theorem idx_lt {cfg : Config} {p c : Nat} (hp : p < cfg.pages) (hc : c < cfg.columns) : idx cfg p c < cfg.fbLen :=
  idx_add_le (n := 1) hp hc

theorem idx_div {cfg : Config} {p c : Nat} (hc : c < cfg.columns) : idx cfg p c / cfg.columns = p := by
  rw [idx, Nat.mul_comm, Nat.mul_add_div (by omega), Nat.div_eq_of_lt hc, Nat.add_zero]

theorem idx_mod {cfg : Config} {p c : Nat} (hc : c < cfg.columns) : idx cfg p c % cfg.columns = c := by
  rw [idx, Nat.mul_comm, Nat.mul_add_mod, Nat.mod_eq_of_lt hc]

/-- The position of an index. -/
theorem idx_div_mod (cfg : Config) (i : Nat) : idx cfg (i / cfg.columns) (i % cfg.columns) = i := by
  rw [idx, Nat.mul_comm]
  exact Nat.div_add_mod i cfg.columns

/-- Settles O21: quotient and remainder by `COLUMNS` are the inverse of `idx`. -/
theorem framebufferLayout : Obligations.FramebufferLayout := by
  intro cfg hv
  obtain ⟨hpages, -, hcolumns, -⟩ := valid_iff.1 hv
  refine ⟨fun p c hp hc => ⟨rfl, idx_lt hp hc⟩, fun p c p' c' _ hc _ hc' h => ⟨?_, ?_⟩, fun i hi => ?_, ?_,
    fun bitmap p c hl hp hc => ?_⟩
  · rw [← idx_div (cfg := cfg) (p := p) hc, h, idx_div hc']
  · rw [← idx_mod (cfg := cfg) (p := p) hc, h, idx_mod hc']
  · exact ⟨i / cfg.columns, i % cfg.columns, Nat.div_lt_of_lt_mul (Nat.mul_comm cfg.pages _ ▸ hi),
      Nat.mod_lt i hcolumns, idx_div_mod cfg i⟩
  · have hlast : (cfg.pages - 1) * cfg.columns + cfg.columns = cfg.fbLen := by
      rw [← Nat.succ_mul, Nat.succ_eq_add_one, Nat.sub_add_cancel hpages, Config.fbLen]
    rw [idx]
    omega
  · have hi : idx cfg p c < bitmap.length := hl ▸ idx_lt hp hc
    rw [read_ofBytes, List.getD, List.getElem?_eq_getElem hi]
    rfl

/-! ## A plan sent in two parts -/

/-- Transactions answered `ok`, then the others of the list: their events follow one another. -/
theorem emit_append (ws vs : List Txn) (rest : List WriteAnswer) :
    emit (ws ++ vs) (oks ws.length rest) =
      ⟨okEvents ws ++ (emit vs rest).events, (emit vs rest).left, (emit vs rest).failed⟩ := by
  induction ws with
  | nil => rfl
  | cons w ws ih =>
    rw [oks] at ih
    simp [oks, List.replicate_succ, emit, ih]

theorem finish_setSequencer (c : Commit) (s : State) (q : Sequencer) :
    finish c { s with sequencer := q } = finish c s := by
  cases c <;> rfl

theorem abort_setSequencer (c : Commit) (s : State) (q : Sequencer) :
    abort c { s with sequencer := q } = abort c s := by
  cases c with
  | build _ _ | demolish => rfl
  | update d => cases h : s.phase <;> simp [abort, h, State.respond]

/-- What sending leaves does not depend on what stood in the sequencer. -/
theorem send_setSequencer (e : Emission) (ws : List Txn) (s : State) (q : Sequencer) :
    send e ws { s with sequencer := q } = send e ws s := by
  unfold send
  simp only
  split
  · exact abort_setSequencer e.commit (s.sent _ _) q
  · split
    · exact finish_setSequencer e.commit (s.sent _ _) q
    · rfl

/-- Sending a list whose first transactions are answered `ok` is sending the others from where those end. -/
theorem send_append (e : Emission) {ws : List Txn} (vs : List Txn) {s : State} {rest : List WriteAnswer}
    (ha : s.writeAnswers = oks ws.length rest) :
    send e (ws ++ vs) s = send { e with seq := e.seq + ws.length } vs
      { s.sent (okEvents ws) rest with sequencer := .emitting { e with seq := e.seq + ws.length } } := by
  refine Eq.trans ?_ (send_setSequencer _ _ _ _).symm
  simp [send, ha, emit_append, State.sent, Nat.add_assoc]

theorem run_succ {s s' : State} (h : step s = .next s') (n : Nat) :
    Host.Core.run core (n + 1) s = Host.Core.run core n s' := by
  have hstep : core.step s = .next s' := h
  simp only [Host.Core.run, hstep]

/-- A plan in progress whose answers stand ready is sent to its end by steps of one transaction each (log 6). -/
theorem run_emitting {s : State} {e : Emission} (hs : s.sequencer = .emitting e) (hw : e.wf s.cfg s.phase = true)
    (hend : (send e (e.plan.drop e.seq) s).sequencer = .idle) :
    ∃ n, Host.Core.run core n s = .next (send e (e.plan.drop e.seq) s) := by
  induction hk : e.plan.length - e.seq generalizing s e with
  | zero =>
    obtain ⟨hl, -, -⟩ := emission_wf_iff.1 hw
    omega
  | succ k ih =>
    obtain ⟨hl, hplan, hcommit⟩ := emission_wf_iff.1 hw
    obtain ⟨w, hw', hstep⟩ := step_emitting hs hw
    have hdrop : e.plan.drop e.seq = w :: e.plan.drop (e.seq + 1) := by
      rw [List.drop_eq_getElem_cons hl]
      obtain ⟨_, rfl⟩ := List.getElem?_eq_some_iff.1 hw'
      rfl
    rw [hdrop] at hend ⊢
    rcases ha : s.writeAnswers with _ | ⟨_ | _, rest⟩
    · rw [send_no_answer hs (List.cons_ne_nil _ _) hl ha, hs] at hend
      cases hend
    · by_cases hlast : e.plan.length ≤ e.seq + 1
      · refine ⟨1, (run_succ hstep 0).trans ?_⟩
        rw [List.drop_eq_nil_of_le hlast]
        rfl
      · have hsplit := send_append e (ws := [w]) (e.plan.drop (e.seq + 1)) ha
        rw [send_more (ws := [w]) ha (by simpa using hlast)] at hstep
        rw [List.singleton_append] at hsplit
        rw [hsplit] at hend ⊢
        obtain ⟨n, hn⟩ := ih (e := { e with seq := e.seq + 1 })
          (s := { s.sent (okEvents [w]) rest with sequencer := .emitting { e with seq := e.seq + 1 } }) rfl
          (emission_wf_iff.2 ⟨by simpa using hlast, hplan, hcommit⟩) hend (by simp only; omega)
        exact ⟨n + 1, (run_succ hstep n).trans hn⟩
    · refine ⟨1, (run_succ hstep 0).trans ?_⟩
      rw [send_first_fail ha, send_first_fail ha]
      rfl

/-! ## An operation that hung and then gets its answers -/

/-- The state with these answers on the two input queues. -/
def State.given (s : State) (opens : List OpenAnswer) (writes : List WriteAnswer) : State :=
  { s with openAnswers := opens, writeAnswers := writes }

/-- A plan that hung, given the rest of its answers, is sent to the end it would have had with all of them. -/
theorem startPlan_resumed {plan : List Txn} {c : Commit} {s : State} {opens : List OpenAnswer}
    {later : List WriteAnswer} (hw : (startPlan plan c s).wf = true) (hu : (startPlan plan c s).sequencer ≠ .idle)
    (ht : (startPlan plan c (s.given opens (s.writeAnswers ++ later))).sequencer = .idle) :
    ∃ n, Host.Core.run core n ((startPlan plan c s).given opens ((startPlan plan c s).writeAnswers ++ later)) =
      .next (startPlan plan c (s.given opens (s.writeAnswers ++ later))) := by
  rcases startPlan_cases plan c s with ⟨rest, -, h⟩ | ⟨k, w, rest, -, -, h⟩ | ⟨k, hk, ha, h⟩
  · exact absurd (by rw [h]; exact finish_sequencer _ _) hu
  · exact absurd (by rw [h]; exact abort_sequencer _ _) hu
  · have hwhole : startPlan plan c (s.given opens (s.writeAnswers ++ later)) =
        send ⟨plan, k, c⟩ (plan.drop k) ((startPlan plan c s).given opens later) := by
      have hlen : (plan.take k).length = k := List.length_take_of_le hk.le
      have hsplit := send_append ⟨plan, 0, c⟩ (ws := plan.take k) (plan.drop k)
        (s := s.given opens (s.writeAnswers ++ later)) (rest := later) (by rw [hlen, ha]; rfl)
      rw [List.take_append_drop, hlen, Nat.zero_add] at hsplit
      rw [h]
      exact hsplit
    rw [hwhole] at ht ⊢
    obtain ⟨-, -, hseq, -⟩ := wf_iff.1 hw
    rw [h] at ht hseq ⊢
    exact run_emitting rfl hseq ht

/-- Nor does what a `TOpen` leaves depend on the handle and the sequencer before it. -/
theorem openTransport_setSequencer (b a : Byte) (plan : List Txn) (s : State) (handle : Bool) (q : Sequencer) :
    openTransport b a plan { s with handle := handle, sequencer := q } = openTransport b a plan s := by
  unfold openTransport
  simp only
  split
  · rfl
  · rfl
  · rename_i answers _
    exact send_setSequencer ⟨plan, 0, .build b a⟩ plan
      { s with openAnswers := answers, handle := true, trace := s.trace ++ [.topen b a .ack] } q

/-- So is a `construct` that hung at its `TOpen` or at a write (R40, R70). -/
theorem openTransport_resumed {b a : Byte} {s : State} {opens : List OpenAnswer} {later : List WriteAnswer}
    (hw : (openTransport b a (initPlan s.cfg) s).wf = true)
    (hu : (openTransport b a (initPlan s.cfg) s).sequencer ≠ .idle)
    (ht : (openTransport b a (initPlan s.cfg)
      (s.given (s.openAnswers ++ opens) (s.writeAnswers ++ later))).sequencer = .idle) :
    ∃ n, Host.Core.run core n ((openTransport b a (initPlan s.cfg) s).given
        ((openTransport b a (initPlan s.cfg) s).openAnswers ++ opens)
        ((openTransport b a (initPlan s.cfg) s).writeAnswers ++ later)) =
      .next (openTransport b a (initPlan s.cfg) (s.given (s.openAnswers ++ opens) (s.writeAnswers ++ later))) := by
  rcases openTransport_cases b a (initPlan s.cfg) s with ⟨-, h⟩ | ⟨ro, -, h⟩ | ⟨ro, ho, -⟩
  · rw [h]
    refine ⟨1, (run_succ (step_opening rfl) 0).trans ?_⟩
    exact congrArg Host.Outcome.next (openTransport_setSequencer b a (initPlan s.cfg)
      (s.given (s.openAnswers ++ opens) (s.writeAnswers ++ later)) true (.opening b a))
  · exact absurd (by rw [h]) hu
  · have hwhole : openTransport b a (initPlan s.cfg) (s.given (s.openAnswers ++ opens) (s.writeAnswers ++ later)) =
        startPlan (initWrites s.cfg) (.build b a)
          ((acked s b a ro).given (ro ++ opens) (s.writeAnswers ++ later)) :=
      openTransport_ack (s := s.given (s.openAnswers ++ opens) (s.writeAnswers ++ later)) b a (by rw [ho]; rfl)
    rw [openTransport_ack b a ho] at hw hu ⊢
    rw [hwhole] at ht ⊢
    rw [startPlan, send_openAnswers]
    exact startPlan_resumed (s := acked s b a ro) hw hu ht

/-- Settles O51: an operation that hung has hung in its plan, or, a `construct`, at its `TOpen`. -/
theorem resumedOperationEndsAlike : Obligations.ResumedOperationEndsAlike := by
  intro s t u i openNow openLater now later hw hf ht htend hu huend
  have hwu : u.wf = true := wf_exec (s := s.given openNow now) hw hu hf
  obtain ⟨hv, -⟩ := wf_iff.1 hw
  rcases exec_request_next (s := s.given openNow now) hu hf with ⟨b, a, rfl, -, -, rfl⟩ | ⟨d, rfl, hs, hp, rfl⟩ |
    ⟨d, hl, hs, hp, ⟨d₁, d', plan, hrun, rfl⟩ | ⟨r, -, rfl⟩⟩
  · obtain ⟨-, -, -, rfl⟩ := exec_construct_next ht
    exact openTransport_resumed (s := { s.given openNow now with response := none }) hwu huend htend
  · obtain ⟨d₀, -, -, hp₀, rfl⟩ := exec_teardown_next ht
    cases hp.symm.trans hp₀
    rw [startPlan, send_openAnswers]
    exact startPlan_resumed (s := (s.given openNow now).starting d) hwu huend htend
  · cases ht.symm.trans (exec_of_opRun (s := s.given (openNow ++ openLater) (now ++ later)) hv hs hp hrun)
    rw [startPlan, send_openAnswers]
    exact startPlan_resumed (s := (s.given openNow now).starting d₁) hwu huend htend
  · exact absurd rfl huend

/-! ## One transaction on the panel (20_memory.md R46) -/

/-- The panel that a framebuffer with its cursor stands for. -/
def panelOf (fb : Memory) (cur : Cursor) : Panel := ⟨cur.page, cur.column, fb⟩

theorem mirrors_iff {p : Panel} {d : Driver} : p.mirrors d = true ↔ p = panelOf d.fb d.cur := by
  obtain ⟨page, column, ram⟩ := p
  simp only [Panel.mirrors, panelOf, Bool.and_eq_true, beq_iff_eq, Panel.mk.injEq]
  tauto

theorem replay_append (cfg : Config) (p : Panel) (trace evs : List Event) :
    p.replay cfg (trace ++ evs) = (p.replay cfg trace).replay cfg evs := List.foldl_append

/-- Acknowledged transactions take effect one after another. -/
theorem replay_okEvents (cfg : Config) (p : Panel) (ws : List Txn) :
    p.replay cfg (okEvents ws) = ws.foldl (Panel.txn cfg) p := List.foldl_map

/-- A data transaction writes its bytes. -/
theorem txn_dataTxn (cfg : Config) (p : Panel) (data : List Byte) :
    p.txn cfg (dataTxn data) = data.foldl (Panel.byte cfg) p := by
  have hcontrol : ctrlData ≠ ctrlCmd := by decide
  cases data with
  | nil => rfl
  | cons v vs => simp [Panel.txn, decodeTxn, dataTxn, hcontrol]

/-- The bytes that the shadow stores from a position on are the ones that the panel takes in from there. -/
theorem foldl_byte_of_storeBytes {cfg : Config} {limit page column : Nat} {data : List Byte} {fb fb' : Memory}
    (h : storeBytes limit fb (idx cfg page column) data = .ok fb') :
    data.foldl (Panel.byte cfg) ⟨page, column, fb⟩ = ⟨page, column + data.length, fb'⟩ := by
  induction data generalizing fb column with
  | nil => cases h; rfl
  | cons v vs ih =>
    have hidx : idx cfg page column + 1 = idx cfg page (column + 1) := rfl
    unfold storeBytes storeByte at h
    split at h
    · cases h
    · rename_i m hm
      split at hm
      · cases hm
        rw [List.foldl_cons, Panel.byte, ih (hidx ▸ h), List.length_cons, Nat.add_assoc, Nat.add_comm 1]
      · cases hm

/-! ## The pointer -/

theorem decodeTxn_setPageStart : ∀ page : BitVec 3,
    decodeTxn (txnOf (.setPageStart page)) = .ok (.setPageStart page) := by decide

theorem decodeTxn_setColLow : ∀ n : BitVec 4, decodeTxn (txnOf (.setColLow n)) = .ok (.setColLow n) := by decide

theorem decodeTxn_setColHigh : ∀ n : BitVec 3, decodeTxn (txnOf (.setColHigh n)) = .ok (.setColHigh n) := by decide

/-- The cursor triple of a position of the panel puts the pointer there, wherever it stood (R136). -/
theorem foldl_cursorTriple (cfg : Config) (p : Panel) {page column : Nat} (hp : page < 8) (hc : column < 128) :
    (cursorTriple page column).foldl (Panel.txn cfg) p = ⟨page, column, p.ram⟩ := by
  have hpage : page % 8 = page := Nat.mod_eq_of_lt hp
  have hhigh : column / 16 % 8 = column / 16 := Nat.mod_eq_of_lt (by omega)
  have hlow : (p.column / 16 * 16 + column % 16) % 16 = column % 16 := by omega
  simp only [cursorTriple, List.foldl_cons, List.foldl_nil, Panel.txn, decodeTxn_setPageStart, decodeTxn_setColLow,
    decodeTxn_setColHigh, Panel.command, BitVec.toNat_ofNat, hpage, hhigh, hlow, Panel.mk.injEq, true_and, and_true,
    Nat.reducePow]
  omega

theorem foldl_cursorTriple_of_valid {cfg : Config} (hv : cfg.valid = true) {cur : Cursor} (hc : cur.valid cfg = true)
    (p : Panel) : (cursorTriple cur.page cur.column).foldl (Panel.txn cfg) p = panelOf p.ram cur := by
  obtain ⟨-, hpages, -, hcolumns, -⟩ := valid_iff.1 hv
  obtain ⟨hp, hcol⟩ := cursor_valid_iff.1 hc
  exact foldl_cursorTriple cfg p (by omega) (by omega)

/-! ## The commands that leave the panel's contents and pointer -/

/-- A transaction that moves no pointer and sends no data. -/
def Inert (w : Txn) : Prop := ∀ (cfg : Config) (p : Panel), p.txn cfg w = p

theorem foldl_inert {ws : List Txn} (h : ∀ w ∈ ws, Inert w) (cfg : Config) (p : Panel) :
    ws.foldl (Panel.txn cfg) p = p := by
  induction ws with
  | nil => rfl
  | cons w ws ih =>
    rw [List.foldl_cons, h w List.mem_cons_self cfg p]
    exact ih fun w' hw' => h w' (List.mem_cons_of_mem _ hw')

/-- The scroll commands of a `startscroll*` (R110, R111). -/
theorem inert_scrollPlan (cfg : Config) (active : Bool) (dir : Scroll) (sp ep : Byte) :
    ∀ w ∈ scrollPlan cfg active dir sp ep, Inert w := by
  have hstop : ∀ w ∈ (if active then [txnOf .scrollDeactivate] else []), Inert w := by
    cases active with
    | true => exact List.forall_mem_singleton.2 fun _ _ => rfl
    | false => simp
  have hsetup : ∀ w ∈ scrollSetup cfg dir sp ep, Inert w := by
    cases dir with
    | none => simp [scrollSetup]
    | right | left => exact List.forall_mem_singleton.2 fun _ _ => rfl
    | diagLeft | diagRight =>
      exact List.forall_mem_cons.2 ⟨fun _ _ => rfl, List.forall_mem_singleton.2 fun _ _ => rfl⟩
  intro w hw
  rcases List.mem_append.1 hw with hw | hw
  · rcases List.mem_append.1 hw with hw | hw
    · exact hstop w hw
    · exact hsetup w hw
  · cases List.mem_singleton.1 hw
    exact fun _ _ => rfl

/-! ## A text on the panel (42_cursor_text.md R91) -/

/-- The wrap before a cell moves the pointer to where the cell goes. -/
theorem foldl_wrapBefore {cfg : Config} (hv : cfg.valid = true) {cur : Cursor} (hc : cur.valid cfg = true)
    (fb : Memory) :
    (if cur.column + cfg.cellW > cfg.columns then cursorTriple (cellStart cfg cur).page 0 else []).foldl
      (Panel.txn cfg) (panelOf fb cur) = panelOf fb (cellStart cfg cur) := by
  obtain ⟨-, hpages, -⟩ := valid_iff.1 hv
  obtain ⟨hpage, -⟩ := cellStart_ok hv hc
  by_cases hwrap : cur.column + cfg.cellW > cfg.columns
  · rw [if_pos hwrap, foldl_cursorTriple cfg _ (by omega) (by decide)]
    simp [panelOf, cellStart, hwrap]
  · rw [if_neg hwrap, cellStart, if_neg hwrap]
    rfl

/-- The wrap after a cell moves the pointer to where the cursor ends. -/
theorem foldl_wrapAfter {cfg : Config} (hv : cfg.valid = true) (cur : Cursor) (fb : Memory) :
    (if (cellStart cfg cur).column + cfg.cellW = cfg.columns then
        cursorTriple (((cellStart cfg cur).page + 1) % cfg.pages) 0 else []).foldl
      (Panel.txn cfg) ⟨(cellStart cfg cur).page, (cellStart cfg cur).column + cfg.cellW, fb⟩ =
      panelOf fb (cellEnd cfg cur) := by
  obtain ⟨hpages₁, hpages₈, -⟩ := valid_iff.1 hv
  have hpage : ((cellStart cfg cur).page + 1) % cfg.pages < cfg.pages := Nat.mod_lt _ hpages₁
  unfold cellEnd
  split
  · rw [foldl_cursorTriple cfg _ (by omega) (by decide)]
    rfl
  · rfl

/-- A character: the panel takes in the cell that the shadow stores, and the pointer follows the cursor (R91). -/
theorem foldl_cellPlan {cfg : Config} (hv : cfg.valid = true) {cur : Cursor} (hc : cur.valid cfg = true) {ch : Byte}
    {fb fb' : Memory} (h : storeBytes cfg.fbLen fb (cellIdx cfg cur) (cell cfg ch) = .ok fb') :
    (cellPlan cfg cur ch).foldl (Panel.txn cfg) (panelOf fb cur) = panelOf fb' (cellEnd cfg cur) := by
  have hcell : [dataTxn (cell cfg ch)].foldl (Panel.txn cfg) (panelOf fb (cellStart cfg cur)) =
      ⟨(cellStart cfg cur).page, (cellStart cfg cur).column + cfg.cellW, fb'⟩ := by
    rw [List.foldl_cons, txn_dataTxn, panelOf, foldl_byte_of_storeBytes h, cell_length hv]
    rfl
  rw [cellPlan, List.foldl_append, List.foldl_append, foldl_wrapBefore hv hc, hcell, foldl_wrapAfter hv]

/-- A rendered text goes on mirroring what has been sent. -/
theorem foldl_renderText {cfg : Config} (hv : cfg.valid = true) {text : List Byte} {fb : Memory} {cur : Cursor}
    {plan : List Txn} {r : Render} (hc : cur.valid cfg = true) (h : renderText cfg ⟨fb, cur, plan⟩ text = .ok r)
    {p : Panel} (hp : plan.foldl (Panel.txn cfg) p = panelOf fb cur) :
    r.plan.foldl (Panel.txn cfg) p = panelOf r.fb r.cur := by
  induction text generalizing fb cur plan with
  | nil => cases h; exact hp
  | cons ch text ih =>
    rw [renderText, renderChar_eq] at h
    cases hstore : storeBytes cfg.fbLen fb (cellIdx cfg cur) (cell cfg ch) with
    | error f => rw [hstore] at h; cases h
    | ok fb' =>
      rw [hstore] at h
      exact ih (cellEnd_valid hv hc) h (by rw [List.foldl_append, hp, foldl_cellPlan hv hc hstore])

/-! ## A flush on the panel (41_framebuffer.md R80) -/

/-- A byte of a page slice is a byte of the buffer (R30, R45 (b)). -/
theorem getD_pageSlice {cfg : Config} (fbx : List Byte) (page : Nat) {k : Nat} (hk : k < cfg.columns) (v : Byte) :
    (pageSlice cfg fbx page).getD k v = fbx.getD (idx cfg page k) v := by
  simp [pageSlice, List.getD, hk, idx]

/-- `q` holds the bytes `fbx` in its first pages, `n` of them, and elsewhere what `p` holds; nothing else is listed. -/
structure Flushed (cfg : Config) (fbx : List Byte) (p : Panel) (n : Nat) (q : Panel) : Prop where
  wf : q.ram.wf = true
  below : q.ram.below cfg.fbLen = true
  read : ∀ a, q.ram.read a = if a < idx cfg n 0 then fbx.getD a Memory.blank else p.ram.read a

/-- One more page of a flush. -/
theorem Flushed.flushPage {cfg : Config} (hv : cfg.valid = true) {fbx : List Byte} (hf : fbx.length = cfg.fbLen)
    {p q : Panel} {n : Nat} (hn : n < cfg.pages) (h : Flushed cfg fbx p n q) :
    Flushed cfg fbx p (n + 1) ((flushPage cfg fbx n).foldl (Panel.txn cfg) q) := by
  obtain ⟨-, hpages, -⟩ := valid_iff.1 hv
  have hlen := length_pageSlice hf hn
  obtain ⟨m, hstore, hwf, hbelow, hread⟩ := storeBytes_ok (vs := pageSlice cfg fbx n) (i := idx cfg n 0) h.wf h.below
    (by rw [hlen]; exact idx_add_le hn (by omega))
  have hflush : (Machine.flushPage cfg fbx n).foldl (Panel.txn cfg) q = ⟨n, cfg.columns, m⟩ := by
    rw [Machine.flushPage, List.foldl_append, foldl_cursorTriple cfg _ (by omega) (by decide), List.foldl_cons,
      txn_dataTxn, foldl_byte_of_storeBytes hstore, hlen, Nat.zero_add]
    rfl
  have hnext : idx cfg (n + 1) 0 = idx cfg n 0 + cfg.columns := by simp [idx, Nat.add_mul]
  rw [hflush]
  refine ⟨hwf, hbelow, fun a => ?_⟩
  rw [hread a, h.read a, hlen, hnext]
  by_cases hpast : a < idx cfg n 0
  · rw [if_neg (by omega), if_pos hpast, if_pos (by omega)]
  · by_cases hpage : a < idx cfg n 0 + cfg.columns
    · obtain ⟨k, rfl⟩ : ∃ k, a = idx cfg n 0 + k := ⟨a - idx cfg n 0, by omega⟩
      rw [if_pos (by omega), if_pos hpage, Nat.add_sub_cancel_left, getD_pageSlice fbx n (by omega)]
      rfl
    · rw [if_neg (by omega), if_neg hpast, if_neg hpage]

theorem flushed_flushPages {cfg : Config} (hv : cfg.valid = true) {fbx : List Byte} (hf : fbx.length = cfg.fbLen)
    {p : Panel} (hwf : p.ram.wf = true) (hbelow : p.ram.below cfg.fbLen = true) {n : Nat} (hn : n ≤ cfg.pages) :
    Flushed cfg fbx p n (((List.range n).flatMap (flushPage cfg fbx)).foldl (Panel.txn cfg) p) := by
  induction n with
  | zero => exact ⟨hwf, hbelow, fun a => by simp [idx]⟩
  | succ n ih =>
    rw [List.range_succ, List.flatMap_append, List.foldl_append, List.flatMap_singleton]
    exact (ih (by omega)).flushPage hv hf hn

/-- All pages: the panel holds exactly the buffer. -/
theorem Flushed.ram_eq {cfg : Config} {fbx : List Byte} (hf : fbx.length = cfg.fbLen) {p q : Panel}
    (h : Flushed cfg fbx p cfg.pages q) : q.ram = Memory.ofBytes fbx := by
  refine memory_ext h.wf (ofBytes_wf fbx) fun a => ?_
  rw [read_ofBytes]
  by_cases ha : a < cfg.fbLen
  · rw [h.read a, if_pos (show a < idx cfg cfg.pages 0 from ha)]
  · rw [read_of_below h.below (by omega), List.getD_eq_default _ _ (by omega)]

/-- A flush makes the panel the mirror of the buffer and the cursor, whatever the panel held inside the display
(R80, R83). -/
theorem foldl_flushPlan {cfg : Config} (hv : cfg.valid = true) {fbx : List Byte} (hf : fbx.length = cfg.fbLen)
    {cur : Cursor} (hc : cur.valid cfg = true) {p : Panel} (hwf : p.ram.wf = true)
    (hbelow : p.ram.below cfg.fbLen = true) :
    (flushPlan cfg fbx cur).foldl (Panel.txn cfg) p = panelOf (Memory.ofBytes fbx) cur := by
  have hpages := flushed_flushPages hv hf hwf hbelow le_rfl
  rw [flushPlan, List.foldl_append, foldl_cursorTriple_of_valid hv hc, hpages.ram_eq hf]

/-! ## What an operation of phase `Open` that has ended has sent -/

/-- A plan that has ended: committed with all of it acknowledged, or aborted with `g_unknown` set (R57, R153). -/
theorem startPlan_update_ended {plan : List Txn} {s : State} {d₁ d' : Driver}
    (hs : (startPlan plan (.update d') (s.starting d₁)).sequencer = .idle) :
    ((startPlan plan (.update d') (s.starting d₁)).phase = .opened d' ∧
      (startPlan plan (.update d') (s.starting d₁)).trace = s.trace ++ okEvents plan) ∨
    ((startPlan plan (.update d') (s.starting d₁)).response = some .transportError ∧
      (startPlan plan (.update d') (s.starting d₁)).phase = .opened { d₁ with gUnknown := true }) := by
  rcases startPlan_cases plan (.update d') (s.starting d₁) with ⟨rest, -, h⟩ | ⟨k, w, rest, -, -, h⟩ | ⟨k, -, -, h⟩ <;>
    rw [h] at hs ⊢
  · exact .inl ⟨rfl, rfl⟩
  · exact .inr ⟨rfl, rfl⟩
  · cases hs

/-- `clear` and `draw` replace the framebuffer by a whole buffer and flush it, with the cursor as it stands. -/
theorem exec_flush_ok {i : Instr} {s t : State} (h : exec i s = .next t) (hi : i = .clear ∨ ∃ bitmap, i = .draw bitmap)
    (hs : t.sequencer = .idle) (hr : t.response = some .ok) :
    ∃ d d' fbx, s.phase = .opened d ∧ t.phase = .opened d' ∧ fbx.length = s.cfg.fbLen ∧
      d'.fb = Memory.ofBytes fbx ∧ d'.cur = d.cur ∧ t.trace = s.trace ++ okEvents (flushPlan s.cfg fbx d.cur) := by
  obtain ⟨hf, hl⟩ : i.format = .req ∧ isLifecycle i = false := by
    rcases hi with rfl | ⟨bitmap, rfl⟩ <;> exact ⟨rfl, rfl⟩
  obtain ⟨hc, ht⟩ := isLifecycle_eq_false hl
  obtain ⟨d, -, -, hp, ⟨d₁, d', plan, hrun, rfl⟩ | ⟨r, herr, rfl⟩⟩ := exec_open_next h hf hc ht
  · rcases startPlan_update_ended hs with ⟨hphase, htrace⟩ | ⟨hr', -⟩
    · cases hrun with
      | clear => exact ⟨d, _, _, hp, hphase, by simp [zeros], rfl, rfl, htrace⟩
      | draw bitmap hlen => exact ⟨d, _, _, hp, hphase, hlen, rfl, rfl, htrace⟩
      | startscroll _ _ _ _ hscroll _ => rcases hi with rfl | ⟨bitmap, rfl⟩ <;> cases hscroll
      | _ => rcases hi with hi | ⟨bitmap, hi⟩ <;> cases hi
    · cases hr.symm.trans hr'
  · cases hr
    cases herr

/-- Settles O52: the flush makes the mirror, whatever it finds. -/
theorem flushMakesMirror : Obligations.FlushMakesMirror := by
  intro s t p d' i hw h hi hs hr hp' hwf hbelow
  obtain ⟨d, d₂, fbx, hp, hp₂, hlen, hfb, hcur, htrace⟩ := exec_flush_ok h hi hs hr
  cases hp'.symm.trans hp₂
  obtain ⟨hv, -⟩ := wf_iff.1 hw
  obtain ⟨hd, -⟩ := wf_opened hw hp
  obtain ⟨hc, -⟩ := driver_wf_iff.1 hd
  rw [mirrors_iff, htrace, replay_append, replay_okEvents, foldl_flushPlan hv hlen hc hwf hbelow, hfb, hcur]

/-- The plan of every operation of phase `Open` takes a mirror to a mirror of what it commits. -/
theorem foldl_opRun {cfg : Config} (hv : cfg.valid = true) {d d₁ d' : Driver} {i : Instr} {plan : List Txn}
    (h : OpRun cfg d i d₁ d' plan) (hd : d.wf cfg = true) :
    plan.foldl (Panel.txn cfg) (panelOf d.fb d.cur) = panelOf d'.fb d'.cur := by
  obtain ⟨hc, hwf, hbelow⟩ := driver_wf_iff.1 hd
  cases h with
  | clear => exact foldl_flushPlan hv (by simp [zeros]) hc hwf hbelow
  | draw bitmap hlen => exact foldl_flushPlan hv hlen hc hwf hbelow
  | setCursor page column hvalid => exact foldl_cursorTriple_of_valid hv hvalid _
  | write text r hr => exact foldl_renderText hv hc hr rfl
  | invert enable => cases enable <;> rfl
  | dim enable => rfl
  | startscroll _ dir sp ep _ _ => exact foldl_inert (inert_scrollPlan cfg _ dir sp ep) cfg _
  | stopscroll => rfl

/-- Settles O53: `g_unknown` false leaves a plan acknowledged to its end, or an argument error. -/
theorem operationsKeepMirror : Obligations.OperationsKeepMirror := by
  intro s t p d d' i hw h hf hs hp hp' hu hmirror
  obtain ⟨hv, -⟩ := wf_iff.1 hw
  obtain ⟨hd, -⟩ := wf_opened hw hp
  rw [mirrors_iff] at hmirror ⊢
  rcases exec_request_next h hf with ⟨b, a, -, -, hclosed, -⟩ | ⟨d₀, -, -, -, rfl⟩ |
    ⟨d₀, -, -, hp₀, ⟨d₁, d₂, plan, hrun, rfl⟩ | ⟨r, -, rfl⟩⟩
  · cases hp.symm.trans hclosed
  · cases hp'.symm.trans ((send_demolish_phase rfl _ _).2 hs)
  · cases hp.symm.trans hp₀
    rcases startPlan_update_ended hs with ⟨hphase, htrace⟩ | ⟨-, hphase⟩ <;> cases hp'.symm.trans hphase
    · rw [htrace, replay_append, replay_okEvents, hmirror, foldl_opRun hv hrun hd]
    · cases hu
  · cases hp.symm.trans hp₀
    cases hp'
    exact hmirror

end Sys2Proof.Machine

/-! # Proofs of the encoding statements: the decoder and the encoder, one transaction of a plan, and what a plan sends

The decoder is read row by row of its tables; a device command or transaction of a plan in progress is sent as the bytes
its encoding gives; the events of an operation are counted, and a plan's failure written out, once for every plan. -/

namespace Sys2Proof.Machine

open Sys2Proof.Claims

/-! ## Requests (30_encoding.md R50 to R56) -/

/-- R54: what `enable` is decoded to. -/
theorem enableOf_eq (a : Byte) : enableOf a = decide (a ≠ 0x00) := by
  rw [Bool.eq_iff_iff]
  simp [enableOf]

/-- R62: the encoder's byte of a boolean operand is read back. -/
theorem enableOf_enableByte (enable : Bool) : enableOf (enableByte enable) = enable := by
  cases enable <;> rfl

/-- R56 (a): no row of the request table has a code from 0x0D on. -/
theorem decodeRequest_reserved {r : Request} (h : 0x0D ≤ r.op.toNat) :
    decodeRequest r = .error (.reservedOp r.op) := by
  unfold decodeRequest
  split
  case h_14 => rfl
  all_goals omega

/-- Settles O12: the row of each code, with the two boolean operands as R54 reads them. -/
theorem unusedLatchesIgnored : Obligations.UnusedLatchesIgnored := by
  refine ⟨fun enable => ⟨rfl, rfl⟩, fun a b p => ?_⟩
  rw [← enableOf_eq]
  exact ⟨rfl, rfl, rfl, rfl, rfl, rfl, rfl, rfl, rfl, rfl, rfl, rfl, rfl⟩

/-- Between operations the request at the head of the port is fetched, and fills the four latches (R11, R50). -/
theorem fetch_request {s : State} {op a b : Byte} {payload : List Byte} {rest : List (List Byte)}
    (hs : s.sequencer = .idle) (hr : s.requests = (op :: a :: b :: payload) :: rest) :
    fetch s = .bytes .request (op :: a :: b :: payload)
      { s with requests := rest, req := some ⟨op, a, b, payload⟩ } := by
  simp [fetch, hs, hr, latch, parseRequest]

/-- Settles O6: the request is fetched as it stands on the port, and its code has no row. -/
theorem reservedOperationsRefused : Obligations.ReservedOperationsRefused := by
  intro s op a b payload rest hs hr hop
  have hdecode : decode .request (op :: a :: b :: payload) = .error (.reservedOp op) :=
    decodeRequest_reserved (r := ⟨op, a, b, payload⟩) hop
  simp only [step, fetch_request hs hr, hdecode]

/-- An operation is read back from its request. -/
theorem decode_encode_request {i : Instr} (hf : i.format = .req) : decode .request (encode i) = .ok i := by
  cases i with
  | invert enable => exact congrArg (fun e => Except.ok (Instr.invert e)) (enableOf_enableByte enable)
  | dim enable => exact congrArg (fun e => Except.ok (Instr.dim e)) (enableOf_enableByte enable)
  | construct _ _ | clear | draw _ | setCursor _ _ | write _ | startscrollright _ _ | startscrollleft _ _
  | startscrolldiagleft _ _ | startscrolldiagright _ _ | stopscroll | teardown => rfl
  | _ => cases hf

/-! ## Device commands and transactions (30_encoding.md R59; 45_command_mapper.md R138, R139) -/

/-- A row of the command table makes its command of the bytes that follow the control byte. -/
theorem decode_command {op : Byte} {ps : List Byte} {row : CommandRow} {i : Instr} (hr : commandRow op = some row)
    (hl : ps.length = row.params) (hi : row.build op ps = i) : decode .transport (ctrlCmd :: op :: ps) = .ok i := by
  simp [decode, parseTxn, Except.bind, decodeTxn, decodeCommand, hr, hl, hi]

theorem decodeTxn_setStartLine : ∀ line : BitVec 6,
    decodeTxn (txnOf (.setStartLine line)) = .ok (.setStartLine line) := by decide

/-- A device command is read back from its transaction, whatever its parameter bytes: the mapper is injective. -/
theorem decode_encode_command {i : Instr} (hf : i.format = .devCmd) : decode .transport (encode i) = .ok i := by
  cases i with
  | setPageStart page => exact decodeTxn_setPageStart page
  | setColLow nibble => exact decodeTxn_setColLow nibble
  | setColHigh nibble => exact decodeTxn_setColHigh nibble
  | setStartLine line => exact decodeTxn_setStartLine line
  | segRemap b | comScanDir b => cases b <;> exact decode_command rfl rfl rfl
  | setContrast _ | displayOff | displayOn | normalDisplay | inverseDisplay | entireResume | entireOn | scrollHRight _
  | scrollHLeft _ | scrollVHRight _ | scrollVHLeft _ | scrollDeactivate | scrollActivate | setVscrollArea _ _
  | setClockDiv _ | setMultiplex _ | setDisplayOffset _ | chargePump _ | setAddressingMode _ | setComPins _
  | setPrecharge _ | setVcomh _ => exact decode_command rfl rfl rfl
  | _ => cases hf

/-- A raw command that the tables do not name, and a data transaction, are read back from their bytes (log 12). -/
theorem decode_encode_txn {i : Instr} (hf : i.format = .txn) (hw : WellFormed i = true) :
    decode .transport (encode i) = .ok i := by
  cases i with
  | txnCommand payload =>
    simp only [WellFormed, Bool.and_eq_true, bne_iff_ne] at hw
    obtain ⟨hn, hunnamed⟩ := hw
    cases hd : decodeCommand payload with
    | ok i => rw [hd] at hunnamed; cases hunnamed
    | error why => simp [encode, decode, parseTxn, Except.bind, decodeTxn, hn, hd]
  | txnData data =>
    have hn : data ≠ [] := bne_iff_ne.1 hw
    have hcontrol : ctrlData ≠ ctrlCmd := by decide
    simp [encode, decode, parseTxn, Except.bind, decodeTxn, hn, hcontrol]
  | _ => cases hf

/-- Settles O13, format by format. -/
theorem decodeOfEncode : Obligations.DecodeOfEncode := by
  intro i hw
  cases hf : i.format with
  | req => exact decode_encode_request hf
  | devCmd => exact decode_encode_command hf
  | txn => exact decode_encode_txn hf hw

/-- Settles O11: six requests, then commands with their parameters or packed operands, and a data transaction. -/
theorem specWordsDecode : Obligations.SpecWordsDecode :=
  ⟨rfl, rfl, rfl, rfl, rfl, rfl, decode_command rfl rfl rfl, decode_command rfl rfl rfl, decode_command rfl rfl rfl,
    decode_command rfl rfl rfl, decode_command rfl rfl rfl, rfl⟩

/-- Every encoding has a first byte, which on the Transport is the control byte. -/
theorem encode_eq_txnOf (i : Instr) : encode i = (txnOf i).control :: (txnOf i).data := by
  cases i <;> rfl

/-- Settles O14: what the decoder makes of a transaction has the transaction for its bytes. -/
theorem transactionDecodingLosesNothing : Obligations.TransactionDecodingLosesNothing := by
  intro control data hc hn
  have hwf : txnWf ⟨control, data⟩ = true := by
    simp only [txnWf, Bool.and_eq_true, Bool.or_eq_true, beq_iff_eq, bne_iff_ne]
    exact ⟨hc, hn⟩
  obtain ⟨i, hdecode, htxn, hf⟩ := decodeTxn_of_wf hwf
  exact ⟨i, hdecode, by rw [encode_eq_txnOf, htxn], hf⟩

/-! ## One transaction of a plan in progress (30_encoding.md R57 to R59) -/

/-- A device command, and a transaction that the block can send, has a payload (R38). -/
theorem txnOf_data_ne_nil {i : Instr} (hf : i.format ≠ .req) (hw : WellFormed i = true) : (txnOf i).data ≠ [] := by
  cases i with
  | txnCommand payload =>
    simp only [WellFormed, Bool.and_eq_true, bne_iff_ne] at hw
    exact hw.1
  | txnData data => exact bne_iff_ne.1 hw
  | construct _ _ | clear | draw _ | setCursor _ _ | write _ | invert _ | dim _ | startscrollright _ _
  | startscrollleft _ _ | startscrolldiagleft _ _ | startscrolldiagright _ _ | stopscroll | teardown =>
    exact absurd rfl hf
  | _ => exact List.cons_ne_nil _ _

theorem transact_not_emitting {s : State} (h : ∀ e, s.sequencer ≠ .emitting e) (w : Txn) :
    transact w s = .refused .noPlanInProgress := by
  cases hs : s.sequencer with
  | idle | opening _ _ => simp [transact, hs]
  | emitting e => exact absurd hs (h e)

/-- Settles O10: a well-formed command or transaction has a payload, so only the plan is missing. -/
theorem transactionWithoutPlanRefused : Obligations.TransactionWithoutPlanRefused := by
  intro s i hf hw hs
  rw [exec_transport hf (txnOf_data_ne_nil hf hw), transact_not_emitting hs]

/-- A device command as the next transaction of a plan, answered `ok` with more to come: its bytes are sent behind the
control byte 0x00. -/
theorem exec_command_inPlan {i : Instr} {s : State} {e : Emission} {rest : List WriteAnswer} {op : Byte}
    {ps : List Byte} (h : InPlan s e rest) (hf : i.format = .devCmd) (hi : encode i = ctrlCmd :: op :: ps) :
    exec i s = .next (advanced s e 0x00 (op :: ps) rest) := by
  have htxn : txnOf i = ⟨ctrlCmd, op :: ps⟩ := by simp [txnOf, hi]
  rw [exec_transport_inPlan h (by simp [hf]) (by simp [htxn]), htxn]
  rfl

/-- Settles O38: the seven commands, each with the bytes of its row. -/
theorem displayCommandsSent : Obligations.DisplayCommandsSent := by
  intro s e rest v h x hx
  simp only [List.mem_cons, List.not_mem_nil, or_false] at hx
  rcases hx with rfl | rfl | rfl | rfl | rfl | rfl | rfl <;> exact exec_command_inPlan h rfl rfl

/-- Settles O39: the seven commands, each with its parameters in order. -/
theorem scrollCommandsSent : Obligations.ScrollCommandsSent := by
  intro s e rest sp iv ep v top rows d₀ d₁ d₂ h x hx
  simp only [List.mem_cons, List.not_mem_nil, or_false] at hx
  rcases hx with rfl | rfl | rfl | rfl | rfl | rfl | rfl <;> exact exec_command_inPlan h rfl rfl

/-! ### The operand of a one-byte command is added to its opcode -/

theorem pageStart_or : ∀ p : BitVec 3, 0xB0#8 ||| p.setWidth 8 = BitVec.ofNat 8 (0xB0 + p.toNat) := by decide
theorem colLow_or : ∀ n : BitVec 4, 0x00#8 ||| n.setWidth 8 = BitVec.ofNat 8 n.toNat := by decide
theorem colHigh_or : ∀ n : BitVec 3, 0x10#8 ||| n.setWidth 8 = BitVec.ofNat 8 (0x10 + n.toNat) := by decide
theorem startLine_or : ∀ n : BitVec 6, 0x40#8 ||| n.setWidth 8 = BitVec.ofNat 8 (0x40 + n.toNat) := by decide

/-- Settles O40: the operand's bits lie below the opcode's, so that the encoder's `or` is the sum. -/
theorem addressingCommandsSent : Obligations.AddressingCommandsSent := by
  intro s e rest p l n h
  rw [← pageStart_or, ← colLow_or, ← colHigh_or]
  exact ⟨exec_command_inPlan h rfl rfl, exec_command_inPlan h rfl rfl, exec_command_inPlan h rfl rfl⟩

/-- Settles O41: the eleven rows of R139, with both values of the two mirror bits. -/
theorem initCommandsSent : Obligations.InitCommandsSent := by
  intro s e rest v n h x hx
  rw [← startLine_or] at hx
  simp only [List.mem_cons, List.not_mem_nil, or_false] at hx
  rcases hx with rfl | rfl | rfl | rfl | rfl | rfl | rfl | rfl | rfl | rfl | rfl | rfl | rfl <;>
    exact exec_command_inPlan h rfl rfl

/-- A command or transaction with a payload, executed while a plan is emitted, is sent as it is encoded. -/
theorem exec_emitting {s : State} {e : Emission} {i : Instr} {control : Byte} {payload : List Byte}
    (hs : s.sequencer = .emitting e) (hf : i.format ≠ .req) (hi : encode i = control :: payload)
    (hn : payload ≠ []) : exec i s = .next (send e [⟨control, payload⟩] s) := by
  have htxn : txnOf i = ⟨control, payload⟩ := by simp [txnOf, hi]
  rw [exec_transport hf (by rw [htxn]; exact hn), transact_emitting _ hs, htxn]

/-- The last transaction of a plan, answered `ok`: the commit. -/
theorem send_last_ok {s : State} {e : Emission} {w : Txn} {rest : List WriteAnswer} (ha : s.writeAnswers = .ok :: rest)
    (hl : e.seq + 1 = e.plan.length) : send e [w] s = finish e.commit (s.sent [.twrite w.control w.data .ok] rest) :=
  send_done (ws := [w]) ha hl.ge

/-- Settles O43: the three commits, the three aborts, and no answer. -/
theorem lastTransactionEndsOperation : Obligations.LastTransactionEndsOperation := by
  intro s e i control payload rest hs hf hi hn
  rw [exec_emitting hs hf hi hn]
  refine ⟨fun ha hl => ?_, fun ha => ?_, fun ha hl => ?_⟩
  · rw [send_last_ok ha hl]
    refine ⟨fun d' hc => ?_, fun b a hc => ?_, fun hc => ?_⟩ <;> rw [hc]
    · rfl
    · rfl
    · simp [finish, ended, State.release, State.respond, State.sent]
  · rw [send_first_fail ha]
    refine ⟨fun d d' hc hp => ?_, fun b a hc => ?_, fun hc => ?_⟩ <;> rw [hc]
    · simp [abort, hp, ended, State.respond, State.sent]
    · simp [abort, ended, State.release, State.respond, State.sent]
    · simp [abort, ended, State.release, State.respond, State.sent]
  · rw [send_no_answer hs (List.cons_ne_nil _ _) hl ha]

/-! ## How many events an operation appends (30_encoding.md R61) -/

/-- The events that the end of a plan adds to those of its transactions: the release of a `construct` that fails and of
every `teardown` (R70, R71). -/
def releaseEvents : Commit → Nat
  | .build _ _ | .demolish => 1
  | .update _ => 0

theorem length_trace_finish_le (c : Commit) (s : State) :
    (finish c s).trace.length ≤ s.trace.length + releaseEvents c := by
  cases c <;> simp [finish, releaseEvents]

theorem length_trace_abort_le (c : Commit) (s : State) :
    (abort c s).trace.length ≤ s.trace.length + releaseEvents c := by
  cases c with
  | build _ _ | demolish => simp [abort, releaseEvents]
  | update d => rw [abort_update_trace]; exact Nat.le_refl _

/-- Whatever the Transport answers, a plan appends at most one event for each transaction, and its release. -/
theorem length_trace_startPlan_le (plan : List Txn) (c : Commit) (s : State) :
    (startPlan plan c s).trace.length ≤ s.trace.length + plan.length + releaseEvents c := by
  rcases startPlan_cases plan c s with ⟨rest, -, h⟩ | ⟨k, w, rest, hw, -, h⟩ | ⟨k, hk, -, h⟩ <;> rw [h]
  · refine (length_trace_finish_le c _).trans ?_
    simp
  · obtain ⟨hk, -⟩ := List.getElem?_eq_some_iff.1 hw
    refine (length_trace_abort_le c _).trans ?_
    simp only [sent_trace, List.length_append, length_okEvents, List.length_take, List.length_singleton]
    omega
  · simp only [sent_trace, List.length_append, length_okEvents, List.length_take]
    omega

/-- The stop, then the flush (R61, R71). -/
theorem length_teardownPlan (cfg : Config) (cur : Cursor) : (teardownPlan cfg cur).length = 4 * cfg.pages + 4 := by
  simp [teardownPlan]

/-- At most seven transactions a character, from any driver (R91). -/
theorem length_renderText_plan_le {cfg : Config} {text : List Byte} {fb : Memory} {cur : Cursor} {plan : List Txn}
    {r : Render} (h : renderText cfg ⟨fb, cur, plan⟩ text = .ok r) :
    r.plan.length ≤ plan.length + 7 * text.length := by
  induction text generalizing fb cur plan with
  | nil => cases h; simp
  | cons ch text ih =>
    rw [renderText, renderChar_eq] at h
    cases hstore : storeBytes cfg.fbLen fb (cellIdx cfg cur) (cell cfg ch) with
    | error f => rw [hstore] at h; cases h
    | ok fb' =>
      rw [hstore] at h
      have htext := ih h
      have hcell := length_cellPlan cfg cur ch
      simp only [List.length_append, List.length_cons] at htext ⊢
      omega

/-- How many events an operation of phase `Open` may append (R61). -/
def eventBound (cfg : Config) : Instr → Nat
  | .clear | .draw _ => 4 * cfg.pages + 3
  | .teardown => 4 * cfg.pages + 5
  | .write text => 7 * text.length
  | .setCursor _ _ => 3
  | .startscrollright _ _ | .startscrollleft _ _ | .startscrolldiagleft _ _ | .startscrolldiagright _ _ => 4
  | _ => 1

theorem eventBound_startscroll {cfg : Config} {i : Instr} {x : Scroll × Byte × Byte}
    (h : scrollOperands i = some x) : eventBound cfg i = 4 := by
  cases i with
  | startscrollright _ _ | startscrollleft _ _ | startscrolldiagleft _ _ | startscrolldiagright _ _ => rfl
  | _ => cases h

/-- The plan of an operation other than `teardown` has no more transactions than that. -/
theorem length_opRun_plan_le {cfg : Config} {d d₁ d' : Driver} {i : Instr} {plan : List Txn}
    (h : OpRun cfg d i d₁ d' plan) : plan.length ≤ eventBound cfg i := by
  cases h with
  | clear | draw _ _ => exact (length_flushPlan _ _ _).le
  | setCursor _ _ _ => exact (length_cursorTriple _ _).le
  | write text r hr => exact (length_renderText_plan_le hr).trans (Nat.zero_add _).le
  | invert _ | dim _ | stopscroll => exact Nat.le_refl 1
  | startscroll i dir sp ep hi _ => exact eventBound_startscroll hi ▸ length_scrollPlan cfg _ dir sp ep

/-- Settles O23: a `teardown` adds the stop and the release to its flush; every other operation sends its plan or
answers an error. -/
theorem planLengthsBounded : Obligations.PlanLengthsBounded := by
  intro s t d i ⟨_, hs, hp⟩ h
  show t.trace.length - s.trace.length ≤ eventBound s.cfg i
  by_cases hf : i.format = .req
  · rcases exec_request_next h hf with ⟨b, a, -, -, hclosed, -⟩ | ⟨d₀, rfl, -, -, rfl⟩ |
      ⟨d₀, -, -, -, ⟨d₁, d', plan, hrun, rfl⟩ | ⟨r, -, rfl⟩⟩
    · cases hp.symm.trans hclosed
    · have hlen := length_trace_startPlan_le (teardownPlan s.cfg d₀.cur) .demolish (s.starting d₀)
      simp only [length_teardownPlan, starting_trace, releaseEvents] at hlen
      simp only [eventBound]
      omega
    · have hlen := length_trace_startPlan_le plan (.update d') (s.starting d₁)
      have hplan := length_opRun_plan_le hrun
      simp only [starting_trace, releaseEvents] at hlen
      omega
    · simp
  · obtain ⟨e, he, -⟩ := exec_transport_next hf h
    cases hs.symm.trans he

/-! ## A write that is not answered `OK` (42_cursor_text.md R91; 60_exceptions.md R153) -/

/-- A plan of an operation of phase `Open` ends with `OK`, or leaves the driver of its plan step: marked `g_unknown`
where it ends with `TransportError`, as it is where it is still in progress. -/
theorem startPlan_update_unfinished (plan : List Txn) (s : State) (d₁ d' : Driver) :
    let t := startPlan plan (.update d') (s.starting d₁)
    t.response = some .ok ∨
    (t.response = some .transportError ∧ t.sequencer = .idle ∧ t.phase = .opened { d₁ with gUnknown := true }) ∨
    (t.response = none ∧ t.sequencer ≠ .idle ∧ t.phase = .opened d₁) := by
  rcases startPlan_cases plan (.update d') (s.starting d₁) with ⟨rest, -, h⟩ | ⟨k, w, rest, -, -, h⟩ | ⟨k, -, -, h⟩ <;>
    rw [h]
  · exact .inl rfl
  · exact .inr (.inl ⟨rfl, rfl, rfl⟩)
  · exact .inr (.inr ⟨rfl, nofun, rfl⟩)

/-- A plan whose transaction `k` is answered `fail` (R58, R153). -/
theorem startPlan_failed {plan : List Txn} {s : State} {k : Nat} {w : Txn} {rest : List WriteAnswer} (d₁ d' : Driver)
    (hw : plan[k]? = some w) (ha : s.writeAnswers = oks k (.fail :: rest)) :
    startPlan plan (.update d') (s.starting d₁) = failed s d₁ plan k w rest :=
  send_fail (s := s.starting d₁) hw ha

/-- An accepted `write` starts its plan from the driver of its plan step. -/
theorem exec_write_next {s t : State} {text : List Byte} (h : exec (.write text) s = .next t) :
    ∃ d d' plan, s.phase = .opened d ∧ t = startPlan plan (.update d') (s.starting (written d text)) := by
  obtain ⟨d, -, -, hp, ⟨d₁, d', plan, hrun, ht⟩ | ⟨r, herr, -⟩⟩ := exec_open_next h rfl nofun nofun
  · cases hrun with
    | write _ r hr => exact ⟨d, _, _, hp, markWritten_eq_written d text ▸ ht⟩
    | startscroll _ _ _ _ hi _ => cases hi
  · cases herr with
    | startscroll _ _ _ _ hi _ => cases hi

/-- The plan step of a `write` touches one ghost flag (R176). -/
theorem written_frame (d : Driver) (text : List Byte) :
    (written d text).fb = d.fb ∧ (written d text).cur = d.cur ∧ (written d text).inverted = d.inverted ∧
      (written d text).dimmed = d.dimmed ∧ (written d text).scrolling = d.scrolling ∧
      (written d text).gUnknown = d.gUnknown := by
  rw [← markWritten_eq_written, markWritten_eq]
  exact ⟨rfl, rfl, rfl, rfl, rfl, rfl⟩

/-- Settles O34: the plan of a text, not committed, and its failure at transaction `k`. -/
theorem unfinishedWriteCommitsNothing : Obligations.UnfinishedWriteCommitsNothing := by
  refine ⟨fun s t d text ⟨_, _, hp⟩ h hr => ?_, fun s d text k w rest ⟨hv, hs, hp⟩ hd hw ha => ?_⟩
  · obtain ⟨d₀, d', plan, hp₀, rfl⟩ := exec_write_next h
    cases hp.symm.trans hp₀
    obtain ⟨hfb, hcur, hinverted, hdimmed, hscrolling, hunknown⟩ := written_frame d text
    rcases startPlan_update_unfinished plan s (written d text) d' with hok | ⟨hr', hs, hphase⟩ | ⟨hr', hs, hphase⟩
    · exact absurd hok hr
    · refine ⟨_, hphase, hfb, hcur, hinverted, hdimmed, hscrolling, rfl, fun _ => ⟨hs, rfl⟩, fun hnone => ?_⟩
      cases hr'.symm.trans hnone
    · refine ⟨_, hphase, hfb, hcur, hinverted, hdimmed, hscrolling, rfl, fun herror => ?_, fun _ => ⟨hs, hunknown⟩⟩
      cases hr'.symm.trans herror
  · obtain ⟨fb', cur', hrun, -, -⟩ := opRun_write hv hd text
    rw [exec_of_opRun hv hs hp hrun, startPlan_failed _ _ hw ha]

end Sys2Proof.Machine

/-! # Proofs of the lifecycle statements: the refusal and the two ends of a `teardown`

A `teardown` is its plan as R71 writes it; what the plan's end leaves, on either path, is said for every plan that ends
in a release and in phase `Closed`. -/

namespace Sys2Proof.Machine

open Sys2Proof.Claims

/-- No operation of phase `Open` is accepted in phase `Closed` (R56). -/
theorem acceptOpen_closed {s : State} (h : ReadyClosed s) (k : Driver → State → Result) :
    acceptOpen s k = .refused .wrongPhase := by
  obtain ⟨hv, hidle, hp⟩ := h
  simp [acceptOpen, hv, hidle, hp]

/-- An accepted `teardown` starts the stop and the flush of zeros (R71). -/
theorem exec_teardown_eq_startPlan {s : State} {d : Driver} (h : Ready s d) (hc : d.cur.valid s.cfg = true) :
    exec .teardown s = .next (startPlan (teardownWrites s.cfg d) .demolish (s.starting d)) := by
  obtain ⟨hv, hidle, hp⟩ := h
  rw [exec_teardown_ready hv hidle hp, teardownPlan_eq hv hc]

/-- A plan that ends in phase `Closed`, answered `ok` throughout: the release follows its last write. -/
theorem startPlan_demolish_completed {plan : List Txn} {s : State} {rest : List WriteAnswer} (d : Driver)
    (ha : s.writeAnswers = oks plan.length rest) :
    startPlan plan .demolish (s.starting d) =
      { ended s .closed (acknowledged plan ++ [.trelease]) rest .ok with handle := false } := by
  rw [startPlan, send_done (s := s.starting d) ha (by simp)]
  simp [finish, ended, State.release, State.respond, State.sent, State.starting, okEvents, acknowledged]

/-- One whose transaction `k` is answered `fail`: the release follows that write. -/
theorem startPlan_demolish_failed {plan : List Txn} {s : State} {k : Nat} {w : Txn} {rest : List WriteAnswer}
    (d : Driver) (hw : plan[k]? = some w) (ha : s.writeAnswers = oks k (.fail :: rest)) :
    startPlan plan .demolish (s.starting d) =
      { ended s .closed (acknowledged (plan.take k) ++ [.twrite w.control w.data .fail, .trelease]) rest
          .transportError with handle := false } := by
  rw [startPlan, send_fail (s := s.starting d) hw ha]
  simp [abort, ended, State.release, State.respond, State.sent, State.starting, okEvents, acknowledged]

/-- Settles O17: the refusal in phase `Closed`, then the two ends of the plan. -/
theorem teardownCompletes : Obligations.TeardownCompletes := by
  refine ⟨fun _ _ _ => rfl, fun s hs => ?_, fun s d hs hc => ?_⟩
  · obtain ⟨k, hk⟩ := exec_eq_acceptOpen (i := .teardown) rfl nofun s
    rw [hk, acceptOpen_closed hs]
  · rw [exec_teardown_eq_startPlan hs hc]
    exact ⟨fun rest ha => congrArg _ (startPlan_demolish_completed d ha),
      fun k w rest hw ha => congrArg _ (startPlan_demolish_failed d hw ha)⟩

end Sys2Proof.Machine

/-! # Proofs of the framebuffer statements: the two ends of a `clear` and of a `draw`, and the length check

What an operation of phase `Open` leaves where its plan is answered to its end or at a `fail`, and where its argument
check fails, is said for every operation that runs a plan (`OpRun`) or breaks its check (`OpError`). -/

namespace Sys2Proof.Machine

open Sys2Proof.Claims

/-- An operation of phase `Open` whose plan is answered `ok` throughout commits (R57). -/
theorem exec_completed {i : Instr} {s : State} {d d₁ d' : Driver} {plan : List Txn} {rest : List WriteAnswer}
    (hs : Ready s d) (hrun : OpRun s.cfg d i d₁ d' plan) (ha : s.writeAnswers = oks plan.length rest) :
    exec i s = .next (completed s plan rest d') := by
  obtain ⟨hv, hidle, hp⟩ := hs
  rw [exec_of_opRun hv hidle hp hrun, startPlan_completed d₁ d' ha]

/-- One whose transaction `k` is answered `fail` keeps the driver of its plan step (R58, R153). -/
theorem exec_failed {i : Instr} {s : State} {d d₁ d' : Driver} {plan : List Txn} {k : Nat} {w : Txn}
    {rest : List WriteAnswer} (hs : Ready s d) (hrun : OpRun s.cfg d i d₁ d' plan) (hw : plan[k]? = some w)
    (ha : s.writeAnswers = oks k (.fail :: rest)) : exec i s = .next (failed s d₁ plan k w rest) := by
  obtain ⟨hv, hidle, hp⟩ := hs
  rw [exec_of_opRun hv hidle hp hrun, startPlan_failed d₁ d' hw ha]

/-- One whose argument check fails sends nothing and changes nothing (R150, R154). -/
theorem exec_argumentError {i : Instr} {s : State} {d : Driver} {r : Response} (hs : Ready s d)
    (herr : OpError s.cfg i r) : exec i s = .next (ended s (.opened d) [] s.writeAnswers r) := by
  obtain ⟨hv, hidle, hp⟩ := hs
  rw [exec_of_opError hv hidle hp herr]
  simp [ended, State.starting, State.respond]

/-- The two ends of an operation whose plan does not depend on a text. -/
theorem exec_planned_ends {i : Instr} {s : State} {d : Driver} (hs : Ready s d) (hc : d.cur.valid s.cfg = true)
    (hi : planned s.cfg i = true) :
    (∀ rest, s.writeAnswers = oks (planOf s.cfg d i).length rest →
      exec i s = .next (completed s (planOf s.cfg d i) rest (committed d i))) ∧
    (∀ k w rest, (planOf s.cfg d i)[k]? = some w → s.writeAnswers = oks k (.fail :: rest) →
      exec i s = .next (failed s (plannedDriver d i) (planOf s.cfg d i) k w rest)) := by
  have ⟨hv, _, _⟩ := hs
  have hrun := opRun_planned hv hc hi
  exact ⟨fun _ => exec_completed hs hrun, fun _ _ _ => exec_failed hs hrun⟩

/-- Settles O19: `clear` runs its plan, the flush of zeros, and what it commits holds zeros. -/
theorem clearCompletes : Obligations.ClearCompletes := by
  refine ⟨fun _ _ _ => rfl, fun s d hs hc => ?_⟩
  have hzeros : Memory.ofBytes (List.replicate s.cfg.fbLen 0x00) = [] := ofBytesAt_zeros 0 s.cfg.fbLen
  rw [hzeros]
  exact exec_planned_ends hs hc (i := .clear) rfl

/-- Settles O20: the length check decides between the argument error and the flush of the bitmap. -/
theorem drawCompletes : Obligations.DrawCompletes := by
  refine ⟨fun _ _ _ => rfl, fun s d bitmap hs hc => ⟨fun hl => ?_, fun hl => ?_⟩⟩
  · exact exec_argumentError hs (.draw bitmap hl)
  · exact exec_planned_ends hs hc (i := .draw bitmap) (beq_iff_eq.2 hl)

end Sys2Proof.Machine

/-! # Proofs of the cursor and text statements: `setCursor`, the cell of a character, and the text that is written

A `write` answered to its end commits what its text renders to, so a text of one character is one rendered cell and a
text after a text goes on where the first one ended. -/

namespace Sys2Proof.Machine

open Sys2Proof.Claims

/-! ## `setCursor` (42_cursor_text.md R90) -/

/-- A position of the panel is set with the triple that R136 writes, wherever the cursor stood. -/
theorem opRun_setCursor {cfg : Config} (hv : cfg.valid = true) (d : Driver) {page column : Byte}
    (hc : (cursorOf page column).valid cfg = true) :
    OpRun cfg d (.setCursor page column) d { d with cur := ⟨page.toNat, column.toNat⟩ }
      (triple page.toNat column.toNat) := by
  obtain ⟨hpage, hcolumn⟩ := cursor_valid_iff.1 hc
  have htriple : cursorTriple page.toNat column.toNat = triple page.toNat column.toNat :=
    cursorTriple_eq_of_valid hv hpage hcolumn
  exact htriple ▸ .setCursor page column hc

/-- Settles O24: the range check decides between the argument error and the cursor triple. -/
theorem setCursorCompletes : Obligations.SetCursorCompletes := by
  refine ⟨fun _ _ _ => rfl, fun s d page column hs => ⟨fun hout => ?_, fun hin => ?_⟩⟩
  · have hc : (cursorOf page column).valid s.cfg = false := Bool.eq_false_iff.2 (hout ∘ cursor_valid_iff.1)
    exact exec_argumentError hs (.setCursor page column hc)
  · have ⟨hv, _, _⟩ := hs
    have hrun := opRun_setCursor hv d (cursor_valid_iff.2 hin)
    exact ⟨fun _ => exec_completed hs hrun, fun _ _ _ => exec_failed hs hrun⟩

/-! ## The cell of a character (42_cursor_text.md R92) -/

/-- The codes of a font rise, so the first glyph listed for a code is its only one (R6). -/
theorem fontGlyph_of_mem {font : List (Byte × List Byte)} (hs : fontSorted font = true) {ch : Byte} {g : List Byte}
    (h : (ch, g) ∈ font) : fontGlyph font ch = some g := by
  induction font with
  | nil => cases h
  | cons x font ih =>
    obtain ⟨code, g₀⟩ := x
    simp only [fontSorted, Bool.and_eq_true, List.all_eq_true, decide_eq_true_eq] at hs
    obtain ⟨hlt, hs⟩ := hs
    rcases List.mem_cons.1 h with heq | hmem
    · obtain ⟨rfl, rfl⟩ := Prod.mk.inj heq
      exact if_pos rfl
    · have hne : ch ≠ code := by
        rintro rfl
        exact Nat.lt_irrefl _ (hlt _ hmem)
      rw [fontGlyph, if_neg hne]
      exact ih hs hmem

/-- A code that the font does not list has no glyph. -/
theorem fontGlyph_eq_none {font : List (Byte × List Byte)} {ch : Byte} (h : ∀ g, (ch, g) ∉ font) :
    fontGlyph font ch = none :=
  Option.eq_none_iff_forall_ne_some.2 fun g hg => h g (fontGlyph_mem hg)

/-- Settles O25: the font's glyph, or none and so the fallback, and the lengths that R6 fixes. -/
theorem cellOfCharacter : Obligations.CellOfCharacter := by
  intro cfg ch hv
  obtain ⟨-, -, -, -, -, -, hsorted, -⟩ := valid_iff.1 hv
  refine ⟨fun g hg => ?_, fun hnone => ?_, glyph_length hv ch, cell_length hv ch⟩
  · rw [cell, glyph, fontGlyph_of_mem hsorted hg]
    rfl
  · rw [cell, glyph, fontGlyph_eq_none hnone]
    rfl

/-! ## `write` (42_cursor_text.md R91) -/

/-- A `write` answered `ok` throughout commits what its text renders to. -/
theorem exec_write_completed {s : State} {d : Driver} {text : List Byte} {fb' : Memory} {cur' : Cursor}
    {plan : List Txn} {rest : List WriteAnswer} (hs : Ready s d)
    (hr : renderText s.cfg ⟨d.fb, d.cur, []⟩ text = .ok ⟨fb', cur', plan⟩)
    (ha : s.writeAnswers = oks plan.length rest) :
    exec (.write text) s = .next (completed s plan rest { written d text with fb := fb', cur := cur' }) := by
  rw [← markWritten_eq_written]
  exact exec_completed hs (.write text _ hr) ha

/-- The page and the column of a cell's start, each with the wrap before it. -/
theorem cellStart_eq (cfg : Config) (cur : Cursor) :
    cellStart cfg cur =
      ⟨if cur.column + cfg.cellW > cfg.columns then (cur.page + 1) % cfg.pages else cur.page,
        if cur.column + cfg.cellW > cfg.columns then 0 else cur.column⟩ := by
  unfold cellStart
  split <;> rfl

/-- Settles O26: the text renders to its one cell, whose start, plan and end are as R91 writes them. -/
theorem writeOfOneCharacter : Obligations.WriteOfOneCharacter := by
  intro s d ch rest next wrapsBefore p c wrapsAfter shape plan cur' hs hd ha
  have ⟨hv, _, _⟩ := hs
  obtain ⟨hcur, hfb, hbelow⟩ := driver_wf_iff.1 hd
  obtain ⟨fb', -, hfb', -, hread, hchar⟩ := renderChar_ok hv hcur hfb hbelow ch
  have hstart : cellStart s.cfg d.cur = ⟨p, c⟩ := cellStart_eq s.cfg d.cur
  have hidx : cellIdx s.cfg d.cur = idx s.cfg p c := by rw [cellIdx, hstart]
  have hend : cellEnd s.cfg d.cur = cur' := by rw [cellEnd, hstart]
  have hplan : cellPlan s.cfg d.cur ch = plan :=
    List.append_cancel_right (textWrites_cons hv hcur ch []).symm
  have hrender : renderText s.cfg ⟨d.fb, d.cur, []⟩ [ch] = .ok ⟨fb', cur', plan⟩ := by
    rw [renderText, hchar [], hend, hplan]
    rfl
  exact ⟨fb', hfb', hidx ▸ hread, exec_write_completed hs hrender ha⟩

/-- The plan step of a text after a text is that of the whole text (R176). -/
theorem written_append (d : Driver) (x y : List Byte) (fb fb' : Memory) (cur cur' : Cursor) :
    { written { written d x with fb := fb, cur := cur } y with fb := fb', cur := cur' } =
      { written d (x ++ y) with fb := fb', cur := cur' } := by
  cases x with
  | nil => cases y <;> rfl
  | cons _ x => cases y <;> simp [written, drawn]

/-- An operation that completes after one that completed leaves what one with both plans would. -/
theorem completed_completed (s : State) (ws vs : List Txn) (mid rest : List WriteAnswer) (d d' : Driver) :
    completed (completed s ws mid d) vs rest d' = completed s (ws ++ vs) rest d' := by
  simp [completed, ended, acknowledged]

/-- The block is ready for the next operation where one has completed. -/
theorem ready_completed {s : State} {d : Driver} (hs : Ready s d) (ws : List Txn) (rest : List WriteAnswer)
    (d' : Driver) : Ready (completed s ws rest d') d' :=
  have ⟨hv, _, _⟩ := hs
  ⟨hv, rfl, rfl⟩

/-- Answers `ok` for two plans are those of the first and then those of the second. -/
theorem oks_add (m n : Nat) (rest : List WriteAnswer) : oks (m + n) rest = oks m (oks n rest) := by
  rw [oks_split (Nat.le_add_right m n), Nat.add_sub_cancel_left]

/-- Two texts written one after the other, each answered `ok` throughout, leave what their concatenation does. -/
theorem exec_write_append {s : State} {d : Driver} {x y : List Byte} {fb₁ fb₂ : Memory} {cur₁ cur₂ : Cursor}
    {ws vs : List Txn} {rest : List WriteAnswer} (hs : Ready s d)
    (hx : renderText s.cfg ⟨d.fb, d.cur, []⟩ x = .ok ⟨fb₁, cur₁, ws⟩)
    (hy : ∀ plan, renderText s.cfg ⟨fb₁, cur₁, plan⟩ y = .ok ⟨fb₂, cur₂, plan ++ vs⟩)
    (ha : s.writeAnswers = oks (ws.length + vs.length) rest) :
    exec (.write (x ++ y)) s = exec (.write y)
      (completed s ws (oks vs.length rest) { written d x with fb := fb₁, cur := cur₁ }) := by
  have hxy : renderText s.cfg ⟨d.fb, d.cur, []⟩ (x ++ y) = .ok ⟨fb₂, cur₂, ws ++ vs⟩ := by
    rw [renderText_append, hx]
    exact hy ws
  rw [← List.length_append] at ha
  have hready := ready_completed hs ws (oks vs.length rest) { written d x with fb := fb₁, cur := cur₁ }
  rw [exec_write_completed hs hxy ha, exec_write_completed hready (hy []) rfl, List.nil_append, completed_completed,
    written_append]

/-- Settles O27: both texts render, with at most 7 transactions a character, so the answers suffice for both. -/
theorem writeOfConcatenation : Obligations.WriteOfConcatenation := by
  intro s t d x y rest hs hd ha ht
  have ⟨hv, _, _⟩ := hs
  obtain ⟨hcur, hfb, hbelow⟩ := driver_wf_iff.1 hd
  obtain ⟨fb₁, cur₁, ws, hcur₁, hfb₁, hbelow₁, hws, -, hx⟩ := renderText_ok hv x hcur hfb hbelow
  obtain ⟨fb₂, cur₂, vs, -, -, -, hvs, -, hy⟩ := renderText_ok hv y hcur₁ hfb₁ hbelow₁
  have hle : ws.length + vs.length ≤ 7 * (x ++ y).length := by
    rw [List.length_append]
    omega
  rw [oks_split hle] at ha
  rw [exec_write_completed hs (hx []) (ha.trans (oks_add _ _ _))] at ht
  cases ht
  exact exec_write_append hs (hx []) hy ha

end Sys2Proof.Machine

/-! # Proofs of the display-mode statements: the two ends of an `invert` and of a `dim`

Each runs a plan of one transaction, whatever its flag holds, so the answer to that transaction decides its end. -/

namespace Sys2Proof.Machine

open Sys2Proof.Claims

/-- The two ends of an operation of phase `Open` that sends one transaction. -/
theorem exec_single_ends {i : Instr} {s : State} {d d₁ d' : Driver} {w : Txn} (hs : Ready s d)
    (hrun : OpRun s.cfg d i d₁ d' [w]) (rest : List WriteAnswer) :
    (s.writeAnswers = .ok :: rest → exec i s = .next (completed s [w] rest d')) ∧
    (s.writeAnswers = .fail :: rest → exec i s = .next (failed s d₁ [w] 0 w rest)) :=
  ⟨exec_completed hs hrun, exec_failed (k := 0) hs hrun rfl⟩

/-- The command of an `invert` is the byte that R100 writes. -/
theorem opRun_invert (cfg : Config) (d : Driver) (enable : Bool) :
    OpRun cfg d (.invert enable) d { d with inverted := enable } [W 0x00 [if enable then 0xA7 else 0xA6]] := by
  have hcommand : txnOf (if enable then .inverseDisplay else .normalDisplay) =
      W 0x00 [if enable then 0xA7 else 0xA6] := by cases enable <;> rfl
  exact hcommand ▸ .invert enable

/-- Settles O29: the operand as R54 reads it, then the two ends of the one command. -/
theorem invertCompletes : Obligations.InvertCompletes := by
  refine ⟨fun a _ _ => congrArg (Except.ok ∘ Instr.invert) (enableOf_eq a), ?_⟩
  intro s d enable rest plan hs
  exact exec_single_ends hs (opRun_invert s.cfg d enable) rest

/-- Settles O30: the operand as R54 reads it, then the two ends of the one contrast command. -/
theorem dimCompletes : Obligations.DimCompletes := by
  refine ⟨fun a _ _ => congrArg (Except.ok ∘ Instr.dim) (enableOf_eq a), ?_⟩
  intro s d enable rest v hs
  exact exec_single_ends hs (.dim enable) rest

end Sys2Proof.Machine

/-! # Proofs of the scroll statements: the ends of a `startscroll*` and of a `stopscroll`, and the scroll order in the
trace

Every plan takes the reading of the scroll commands from what the shadow says before it to what it commits; a plan in
progress keeps that promise transaction by transaction, and an abort gives the shadow up (`g_unknown`). -/

namespace Sys2Proof.Machine

open Sys2Proof.Claims

/-! ## `startscroll*` and `stopscroll` (44_scroll.md R110 to R117) -/

theorem scrollRangeOk_iff {cfg : Config} {sp ep : Byte} :
    scrollRangeOk cfg sp ep = true ↔ sp.toNat ≤ ep.toNat ∧ ep.toNat < cfg.pages := by
  simp [scrollRangeOk]

/-- Settles O31: the four differ in their direction only, and the range check decides between the argument error and the
plan that R110 writes. -/
theorem startscrollCompletes : Obligations.StartscrollCompletes := by
  refine ⟨fun _ _ _ => rfl, fun _ _ _ => rfl, fun _ _ _ => rfl, fun _ _ _ => rfl, fun s d sp ep hs x hx => ?_⟩
  obtain ⟨i, dir⟩ := x
  have hi : scrollOperands i = some (dir, sp, ep) := by
    simp only [List.mem_cons, List.not_mem_nil, or_false, Prod.mk.injEq] at hx
    rcases hx with ⟨rfl, rfl⟩ | ⟨rfl, rfl⟩ | ⟨rfl, rfl⟩ | ⟨rfl, rfl⟩ <;> rfl
  refine ⟨fun hout => ?_, fun hin => ?_⟩
  · have hr : scrollRangeOk s.cfg sp ep = false := Bool.eq_false_iff.2 (hout ∘ scrollRangeOk_iff.1)
    exact exec_argumentError hs (.startscroll i dir sp ep hi hr)
  · have hrun := opRun_startscroll d hi (scrollRangeOk_iff.2 hin)
    exact ⟨fun _ => exec_completed hs hrun, fun _ _ _ => exec_failed hs hrun⟩

/-- Settles O32: the two ends of the one command, which does not depend on the driver. -/
theorem stopscrollCompletes : Obligations.StopscrollCompletes :=
  ⟨fun _ _ _ => rfl, fun _ _ rest hs => exec_single_ends hs .stopscroll rest⟩

/-! ## The reading of the scroll commands -/

theorem scrollScanOf_append (trace evs : List Event) :
    scrollScanOf (trace ++ evs) = evs.foldl ScrollScan.event (scrollScanOf trace) := List.foldl_append

/-- Acknowledged transactions are read one after another. -/
theorem scrollScanOf_append_okEvents (trace : List Event) (ws : List Txn) :
    scrollScanOf (trace ++ okEvents ws) = ws.foldl ScrollScan.txn (scrollScanOf trace) := by
  rw [scrollScanOf_append, okEvents, List.foldl_map]
  rfl

theorem agrees_iff {k : ScrollScan} {d : Driver} :
    k.agrees d = true ↔ d.gUnknown = true ∨ k = ⟨d.scrollActive, true⟩ := by
  simp [ScrollScan.agrees]

/-! ## What the plans do to the reading (R110, R116, R117) -/

/-- A transaction that neither activates nor deactivates scrolling. -/
def ScrollFree (w : Txn) : Prop := ∀ k : ScrollScan, k.txn w = k

theorem foldl_scrollFree {ws : List Txn} (h : ∀ w ∈ ws, ScrollFree w) (k : ScrollScan) :
    ws.foldl ScrollScan.txn k = k := by
  induction ws with
  | nil => rfl
  | cons w ws ih =>
    rw [List.foldl_cons, h w List.mem_cons_self]
    exact ih fun w' hw' => h w' (List.mem_cons_of_mem _ hw')

theorem scrollFree_command {op : Byte} (ps : List Byte) (hop : op ≠ 0x2E#8 ∧ op ≠ 0x2F#8) :
    ScrollFree ⟨ctrlCmd, op :: ps⟩ := by
  intro k
  simp [ScrollScan.txn, hop]

theorem scrollFree_dataTxn (data : List Byte) : ScrollFree (dataTxn data) := by
  have hcontrol : ctrlData ≠ ctrlCmd := by decide
  intro k
  simp [ScrollScan.txn, dataTxn, hcontrol]

theorem scrollFree_cursorTriple (page column : Nat) : ∀ w ∈ cursorTriple page column, ScrollFree w := by
  have hpage : ∀ p : BitVec 3, 0xB0#8 ||| p.setWidth 8 ≠ 0x2E ∧ 0xB0#8 ||| p.setWidth 8 ≠ 0x2F := by decide
  have hlow : ∀ n : BitVec 4, 0x00#8 ||| n.setWidth 8 ≠ 0x2E ∧ 0x00#8 ||| n.setWidth 8 ≠ 0x2F := by decide
  have hhigh : ∀ n : BitVec 3, 0x10#8 ||| n.setWidth 8 ≠ 0x2E ∧ 0x10#8 ||| n.setWidth 8 ≠ 0x2F := by decide
  exact List.forall_mem_cons.2 ⟨scrollFree_command [] (hpage _), List.forall_mem_cons.2
    ⟨scrollFree_command [] (hlow _), List.forall_mem_singleton.2 (scrollFree_command [] (hhigh _))⟩⟩

theorem scrollFree_flushPlan (cfg : Config) (fbx : List Byte) (cur : Cursor) :
    ∀ w ∈ flushPlan cfg fbx cur, ScrollFree w := by
  refine List.forall_mem_append.2 ⟨fun w hw => ?_, scrollFree_cursorTriple _ _⟩
  obtain ⟨page, -, hw⟩ := List.mem_flatMap.1 hw
  exact List.forall_mem_append.2 ⟨scrollFree_cursorTriple page 0,
    List.forall_mem_singleton.2 (scrollFree_dataTxn _)⟩ w hw

theorem scrollFree_cellPlan (cfg : Config) (cur : Cursor) (ch : Byte) : ∀ w ∈ cellPlan cfg cur ch, ScrollFree w := by
  have hwrap (p : Prop) [Decidable p] (page : Nat) :
      ∀ w ∈ (if p then cursorTriple page 0 else []), ScrollFree w := by
    split
    · exact scrollFree_cursorTriple page 0
    · exact List.forall_mem_nil _
  exact List.forall_mem_append.2 ⟨List.forall_mem_append.2
    ⟨hwrap _ _, List.forall_mem_singleton.2 (scrollFree_dataTxn _)⟩, hwrap _ _⟩

/-- A text sends cells and cursor triples (R91). -/
theorem scrollFree_renderText {cfg : Config} {text : List Byte} {r r' : Render} (h : renderText cfg r text = .ok r')
    (hr : ∀ w ∈ r.plan, ScrollFree w) : ∀ w ∈ r'.plan, ScrollFree w := by
  induction text generalizing r with
  | nil => cases h; exact hr
  | cons ch text ih =>
    rw [renderText, renderChar_eq] at h
    cases hstore : storeBytes cfg.fbLen r.fb (cellIdx cfg r.cur) (cell cfg ch) with
    | error f => rw [hstore] at h; cases h
    | ok fb' =>
      rw [hstore] at h
      exact ih h (List.forall_mem_append.2 ⟨hr, scrollFree_cellPlan cfg r.cur ch⟩)

theorem scrollFree_scrollSetup (cfg : Config) (dir : Scroll) (sp ep : Byte) :
    ∀ w ∈ scrollSetup cfg dir sp ep, ScrollFree w := by
  cases dir with
  | none => exact List.forall_mem_nil _
  | right | left => exact List.forall_mem_singleton.2 (scrollFree_command _ (by decide))
  | diagLeft | diagRight =>
    exact List.forall_mem_cons.2 ⟨scrollFree_command _ (by decide),
      List.forall_mem_singleton.2 (scrollFree_command _ (by decide))⟩

/-- The implicit stop stands exactly where a scroll is active, so the activate finds none active (R116). -/
theorem foldl_scrollPlan (cfg : Config) (active : Bool) (dir : Scroll) (sp ep : Byte) :
    (scrollPlan cfg active dir sp ep).foldl ScrollScan.txn ⟨active, true⟩ = ⟨true, true⟩ := by
  have hstop : (if active then [txnOf .scrollDeactivate] else []).foldl ScrollScan.txn ⟨active, true⟩ =
      ⟨false, true⟩ := by cases active <;> rfl
  rw [scrollPlan, List.foldl_append, List.foldl_append, hstop, foldl_scrollFree (scrollFree_scrollSetup cfg dir sp ep)]
  rfl

theorem scrollOperands_scrollActive {i : Instr} {dir : Scroll} {sp ep : Byte}
    (h : scrollOperands i = some (dir, sp, ep)) (d : Driver) : (d.setScrolling dir).scrollActive = true := by
  cases i with
  | startscrollright _ _ | startscrollleft _ _ | startscrolldiagleft _ _ | startscrolldiagright _ _ => cases h; rfl
  | _ => cases h

/-- The plan of every operation of phase `Open` takes the reading that the driver stands for to the one that the
committed driver stands for. -/
theorem foldl_scrollScan_opRun {cfg : Config} {d d₁ d' : Driver} {i : Instr} {plan : List Txn}
    (h : OpRun cfg d i d₁ d' plan) :
    plan.foldl ScrollScan.txn ⟨d.scrollActive, true⟩ = ⟨d'.scrollActive, true⟩ := by
  cases h with
  | clear | draw _ _ => exact foldl_scrollFree (scrollFree_flushPlan _ _ _) _
  | setCursor _ _ _ => exact foldl_scrollFree (scrollFree_cursorTriple _ _) _
  | write text r hr =>
    rw [markWritten_eq]
    exact foldl_scrollFree (scrollFree_renderText hr (List.forall_mem_nil _)) _
  | invert enable => cases enable <;> rfl
  | dim enable => rfl
  | startscroll _ dir sp ep hi _ =>
    rw [foldl_scrollPlan, scrollOperands_scrollActive hi]
  | stopscroll => rfl

/-- So it keeps the agreement, since an operation never clears `g_unknown` (R21). -/
theorem agrees_opRun {cfg : Config} (hv : cfg.valid = true) {d d₁ d' : Driver} {i : Instr} {plan : List Txn}
    (h : OpRun cfg d i d₁ d' plan) (hd : d.wf cfg = true) {k : ScrollScan} (hk : k.agrees d = true) :
    (plan.foldl ScrollScan.txn k).agrees d' = true := by
  obtain ⟨-, hfollow, -⟩ := opRun_wf hv h hd
  rcases agrees_iff.1 hk with hunknown | rfl
  · have hkept := (opRun_ghostsKept h).trans (ghostsKept_of_mayFollow hfollow)
    exact agrees_iff.2 (.inl (hkept.gUnknown hunknown))
  · exact agrees_iff.2 (.inr (foldl_scrollScan_opRun h))

/-! ## The scroll order, case by case -/

/-- What a commit asks of the reading of the trace it finds (R70, R116). -/
def Commit.Ordered (k : ScrollScan) : Commit → Prop
  | .build _ _ => k = ⟨false, true⟩
  | .demolish => True
  | .update d => k.agrees d = true

theorem scrollOrdered_emitting {s : State} {e : Emission} (hs : s.sequencer = .emitting e) :
    s.scrollOrdered = true ↔ initScrollQuiet s.cfg = true ∧
      e.commit.Ordered ((e.plan.drop e.seq).foldl ScrollScan.txn (scrollScanOf s.trace)) := by
  cases hc : e.commit <;> simp [State.scrollOrdered, hs, hc, Commit.Ordered]

theorem scrollOrdered_opened {s : State} {d : Driver} (hs : s.sequencer = .idle) (hp : s.phase = .opened d) :
    s.scrollOrdered = true ↔ initScrollQuiet s.cfg = true ∧ (scrollScanOf s.trace).agrees d = true := by
  simp [State.scrollOrdered, hs, hp]

theorem scrollOrdered_closed {s : State} (hq : initScrollQuiet s.cfg = true)
    (hs : ∀ e, s.sequencer ≠ .emitting e) (hp : s.phase = .closed) : s.scrollOrdered = true := by
  cases h : s.sequencer with
  | emitting e => exact absurd h (hs e)
  | idle | opening _ _ => simp [State.scrollOrdered, h, hp, hq]

theorem initScrollQuiet_of_scrollOrdered {s : State} (h : s.scrollOrdered = true) : initScrollQuiet s.cfg = true := by
  simp only [State.scrollOrdered, Bool.and_eq_true] at h
  exact h.1

/-! ## What the shared operations make of it -/

theorem scrollOrdered_finish {c : Commit} {s : State} (hq : initScrollQuiet s.cfg = true)
    (hc : c.Ordered (scrollScanOf s.trace)) : (finish c s).scrollOrdered = true := by
  cases c with
  | build b a => exact (scrollOrdered_opened (d := .fresh b a) rfl rfl).2 ⟨hq, agrees_iff.2 (.inr hc)⟩
  | demolish => exact scrollOrdered_closed hq nofun rfl
  | update d => exact (scrollOrdered_opened rfl rfl).2 ⟨hq, hc⟩

/-- An abort leaves the phase `Closed`, or a driver that is not trusted any more (R153). -/
theorem scrollOrdered_abort {c : Commit} {s : State} (hq : initScrollQuiet s.cfg = true)
    (hc : c.wf s.cfg s.phase = true) : (abort c s).scrollOrdered = true := by
  cases c with
  | build b a => exact scrollOrdered_closed hq nofun (isOpen_eq_false hc)
  | demolish => exact scrollOrdered_closed hq nofun rfl
  | update d' =>
    cases hp : s.phase with
    | closed => rw [hp] at hc; cases hc
    | opened d =>
      have hphase : (abort (.update d') s).phase = .opened { d with gUnknown := true } := by simp [abort, hp]
      exact (scrollOrdered_opened (abort_sequencer _ _) hphase).2 ⟨by rwa [abort_cfg], agrees_iff.2 (.inl rfl)⟩

/-- The reading that the rest of a plan will leave is the same before and after `n` more of its transactions are
acknowledged. -/
theorem foldl_rest_after {e : Emission} {ws : List Txn} (hws : ws <+: e.plan.drop e.seq) {n : Nat}
    (hn : n ≤ ws.length) (trace : List Event) :
    (e.plan.drop (e.seq + n)).foldl ScrollScan.txn (scrollScanOf (trace ++ okEvents (ws.take n))) =
      (e.plan.drop e.seq).foldl ScrollScan.txn (scrollScanOf trace) := by
  have htake : ws.take n = (e.plan.drop e.seq).take n := by
    rw [List.prefix_iff_eq_take.1 hws, List.take_take, Nat.min_eq_left hn]
  rw [scrollScanOf_append_okEvents, htake, ← List.drop_drop, ← List.foldl_append, List.take_append_drop]

/-- Sending the next transactions of a plan that keeps the order keeps it, wherever the Transport's answers end. -/
theorem scrollOrdered_send {e : Emission} {s : State} {ws : List Txn} (hq : initScrollQuiet s.cfg = true)
    (hwf : e.commit.wf s.cfg s.phase = true) (hws : ws <+: e.plan.drop e.seq)
    (hc : e.commit.Ordered ((e.plan.drop e.seq).foldl ScrollScan.txn (scrollScanOf s.trace))) :
    (send e ws s).scrollOrdered = true := by
  have hcommitted {n : Nat} (hn : n ≤ ws.length) (hl : e.plan.length ≤ e.seq + n) (left : List WriteAnswer) :
      (finish e.commit (s.sent (okEvents (ws.take n)) left)).scrollOrdered = true := by
    rw [← foldl_rest_after hws hn, List.drop_eq_nil_of_le hl] at hc
    exact scrollOrdered_finish hq hc
  rcases send_cases e ws s with ⟨rest, -, hl, ht⟩ | ⟨k, w, rest, -, -, ht⟩ | ⟨n, rest, hn, -, -, -, ht⟩ |
    ⟨n, hn, -, hl, ht⟩ <;> rw [ht]
  · have hdone := hcommitted le_rfl hl rest
    rwa [List.take_length] at hdone
  · exact scrollOrdered_abort hq hwf
  · rw [← foldl_rest_after hws hn] at hc
    exact (scrollOrdered_emitting (e := { e with seq := e.seq + n }) rfl).2 ⟨hq, hc⟩
  · exact hcommitted hn.le hl []

theorem scrollOrdered_startPlan {plan : List Txn} {c : Commit} {s : State} (hq : initScrollQuiet s.cfg = true)
    (hwf : c.wf s.cfg s.phase = true) (hc : c.Ordered (plan.foldl ScrollScan.txn (scrollScanOf s.trace))) :
    (startPlan plan c s).scrollOrdered = true :=
  scrollOrdered_send (e := ⟨plan, 0, c⟩) hq hwf List.prefix_rfl hc

/-- The reading starts anew with a `TOpen`, and `INIT_SEQ` leaves it as it starts (R140 (c)). -/
theorem scrollOrdered_openTransport {s : State} (hq : initScrollQuiet s.cfg = true) (hp : s.phase = .closed)
    (b a : Byte) : (openTransport b a (initPlan s.cfg) s).scrollOrdered = true := by
  rcases openTransport_cases b a (initPlan s.cfg) s with ⟨-, ht⟩ | ⟨rest, -, ht⟩ | ⟨rest, -, ht⟩ <;> rw [ht]
  · exact scrollOrdered_closed hq nofun hp
  · exact scrollOrdered_closed hq nofun hp
  · refine scrollOrdered_startPlan hq (by simp [Commit.wf, hp, Phase.isOpen]) ?_
    rw [scrollScanOf_append]
    exact beq_iff_eq.1 hq

/-- Every operation keeps the scroll order. -/
theorem scrollOrdered_exec {i : Instr} {s t : State} (hw : s.wf = true) (ho : s.scrollOrdered = true)
    (h : exec i s = .next t) (hf : i.format = .req) : t.scrollOrdered = true := by
  have hq := initScrollQuiet_of_scrollOrdered ho
  rcases exec_request_next h hf with ⟨b, a, -, -, hp, rfl⟩ | ⟨d, -, -, hp, rfl⟩ |
    ⟨d, -, hs, hp, ⟨d₁, d', plan, hrun, rfl⟩ | ⟨r, -, rfl⟩⟩
  · exact scrollOrdered_openTransport (s := { s with response := none }) hq hp b a
  · exact scrollOrdered_startPlan (s := s.starting d) hq rfl trivial
  · obtain ⟨-, hagrees⟩ := (scrollOrdered_opened hs hp).1 ho
    obtain ⟨hv, -⟩ := wf_iff.1 hw
    obtain ⟨hd, -⟩ := wf_opened hw hp
    obtain ⟨-, hfollow, -⟩ := opRun_wf hv hrun hd
    exact scrollOrdered_startPlan (s := s.starting d₁) hq hfollow (agrees_opRun hv hrun hd hagrees)
  · obtain ⟨-, hagrees⟩ := (scrollOrdered_opened hs hp).1 ho
    exact (scrollOrdered_opened rfl rfl).2 ⟨hq, hagrees⟩

/-- A step of a plan in progress sends its next transaction. -/
theorem scrollOrdered_emitting_step {s t : State} {e : Emission} (hw : s.wf = true) (ho : s.scrollOrdered = true)
    (hs : s.sequencer = .emitting e) (h : step s = .next t) : t.scrollOrdered = true := by
  obtain ⟨-, -, hseq, -⟩ := wf_iff.1 hw
  rw [hs] at hseq
  obtain ⟨-, -, hwf⟩ := emission_wf_iff.1 hseq
  obtain ⟨w, hget, hstep⟩ := step_emitting hs hseq
  obtain ⟨hl, rfl⟩ := List.getElem?_eq_some_iff.1 hget
  cases h.symm.trans hstep
  obtain ⟨hq, hc⟩ := (scrollOrdered_emitting hs).1 ho
  have hnext : [e.plan[e.seq]] <+: e.plan.drop e.seq := by
    rw [List.drop_eq_getElem_cons hl]
    exact List.prefix_append [e.plan[e.seq]] _
  exact scrollOrdered_send hq hwf hnext hc

/-- Settles O47: a step waits, opens, goes on with its plan, or begins an operation. -/
theorem stepKeepsScrollOrder : Obligations.StepKeepsScrollOrder := by
  intro s t hw ho h
  have hq := initScrollQuiet_of_scrollOrdered ho
  rcases step_next h with ⟨-, -, rfl⟩ | ⟨b, a, hs, rfl⟩ | ⟨e, hs, -, -⟩ | ⟨e, -, -, hs, -⟩ |
    ⟨bs, rest, i, -, -, hf, -, h⟩
  · exact ho
  · exact scrollOrdered_openTransport hq (wf_opening hw hs) b a
  · exact scrollOrdered_emitting_step hw ho hs h
  · exact scrollOrdered_emitting_step hw ho hs h
  · exact scrollOrdered_exec (s := { s with requests := rest, req := latch bs }) hw ho h hf

end Sys2Proof.Machine

/-! # Proofs of the exception statements: the responses an operation can end with

A plan ends with one of two responses whatever it commits; the `TOpen` of a `construct` and the argument checks add the
others, each in its own row of the matrix. -/

namespace Sys2Proof.Machine

open Sys2Proof.Claims

/-! ## The rows of the error matrix (60_exceptions.md R152) -/

theorem ok_mem_possible (i : Instr) : .ok ∈ possible i := by
  unfold possible
  split <;> exact .head _

theorem transportError_mem_possible (i : Instr) : .transportError ∈ possible i := by
  unfold possible
  split <;> decide

theorem possible_startscroll {i : Instr} {x : Scroll × Byte × Byte} (h : scrollOperands i = some x) :
    possible i = [.ok, .transportError, .outOfRangeError] := by
  cases i with
  | startscrollright _ _ | startscrollleft _ _ | startscrolldiagleft _ _ | startscrolldiagright _ _ => rfl
  | _ => cases h

theorem opError_mem_possible {cfg : Config} {i : Instr} {r : Response} (h : OpError cfg i r) : r ∈ possible i := by
  cases h with
  | draw _ _ | setCursor _ _ _ => simp [possible]
  | startscroll _ _ _ _ hi _ =>
    rw [possible_startscroll hi]
    decide

/-! ## The end of a plan and of a `construct` (30_encoding.md R57; 40_lifecycle.md R70) -/

theorem startPlan_response_of_ended {plan : List Txn} {c : Commit} {s : State}
    (h : (startPlan plan c s).sequencer = .idle) :
    (startPlan plan c s).response = some .ok ∨ (startPlan plan c s).response = some .transportError := by
  rcases startPlan_cases plan c s with ⟨rest, -, ht⟩ | ⟨k, w, rest, -, -, ht⟩ | ⟨k, -, -, ht⟩ <;> rw [ht] at h ⊢
  · exact .inl (finish_response _ _)
  · exact .inr (abort_response _ _)
  · cases h

/-- A plan that has ended gives a response that is in every row. -/
theorem startPlan_response_possible (i : Instr) {plan : List Txn} {c : Commit} {s : State}
    (h : (startPlan plan c s).sequencer = .idle) : ∃ r ∈ possible i, (startPlan plan c s).response = some r := by
  rcases startPlan_response_of_ended h with hr | hr
  · exact ⟨_, ok_mem_possible i, hr⟩
  · exact ⟨_, transportError_mem_possible i, hr⟩

theorem openTransport_response_possible {b a : Byte} {plan : List Txn} {s : State}
    (h : (openTransport b a plan s).sequencer = .idle) :
    ∃ r ∈ possible (.construct b a), (openTransport b a plan s).response = some r := by
  rcases openTransport_cases b a plan s with ⟨-, ht⟩ | ⟨rest, -, ht⟩ | ⟨rest, -, ht⟩ <;> rw [ht] at h ⊢
  · cases h
  · exact ⟨.deviceNotFoundError, by simp [possible], rfl⟩
  · exact startPlan_response_possible _ h

/-- Settles O37: an operation ends with its plan, with the `TOpen` of a `construct`, or with its argument check. -/
theorem errorMatrix : Obligations.ErrorMatrix := by
  intro s t i h hf hs
  rcases exec_request_next h hf with ⟨b, a, rfl, -, -, rfl⟩ | ⟨d, -, -, -, rfl⟩ |
    ⟨d, -, -, -, ⟨d₁, d', plan, -, rfl⟩ | ⟨r, herr, rfl⟩⟩
  · exact openTransport_response_possible hs
  · exact startPlan_response_possible i hs
  · exact startPlan_response_possible i hs
  · exact ⟨r, opError_mem_possible herr, rfl⟩

end Sys2Proof.Machine

/-! # Proofs of the acceptance statements: the refusals of a wrong phase and of an overlapping request

Every operation goes through one of the two acceptances (`exec_eq_acceptOpen`, `exec_construct_eq_acceptClosed`), so a
refusal is said once for each acceptance, whatever the operation's body. -/

namespace Sys2Proof.Machine

open Sys2Proof.Claims

/-! ## The wrong phase (30_encoding.md R56) -/

/-- No `construct` is accepted in phase `Open` (R56). -/
theorem acceptClosed_opened {s : State} {d : Driver} (h : Ready s d) (k : State → Result) :
    acceptClosed s k = .refused .wrongPhase := by
  obtain ⟨hv, hidle, hp⟩ := h
  simp [acceptClosed, hv, hidle, hp]

/-- Settles O7: the acceptance of phase `Open` refuses in `Closed`, and that of phase `Closed` in `Open`. -/
theorem wrongPhaseRefused : Obligations.WrongPhaseRefused := by
  intro s i hv hidle hf
  refine ⟨fun hp hc => ?_, ?_⟩
  · obtain ⟨k, hk⟩ := exec_eq_acceptOpen hf hc s
    exact hk.trans (acceptOpen_closed ⟨hv, hidle, hp⟩ k)
  · rintro d b a hp rfl
    obtain ⟨k, hk⟩ := exec_construct_eq_acceptClosed b a s
    exact hk.trans (acceptClosed_opened ⟨hv, hidle, hp⟩ k)

/-! ## The overlapping request (20_memory.md R44) -/

theorem acceptOpen_requestInFlight {s : State} (hv : s.cfg.valid = true) (hs : s.sequencer ≠ .idle)
    (k : Driver → State → Result) : acceptOpen s k = .refused .requestInFlight := by
  simp [acceptOpen, hv, hs]

theorem acceptClosed_requestInFlight {s : State} (hv : s.cfg.valid = true) (hs : s.sequencer ≠ .idle)
    (k : State → Result) : acceptClosed s k = .refused .requestInFlight := by
  simp [acceptClosed, hv, hs]

/-- Settles O8: both acceptances look at the sequencer before the phase and before the operation's body (log 17). -/
theorem overlappingRequestRefused : Obligations.OverlappingRequestRefused := by
  intro s i hv hs hf
  by_cases hc : ∃ b a, i = .construct b a
  · obtain ⟨b, a, rfl⟩ := hc
    obtain ⟨k, hk⟩ := exec_construct_eq_acceptClosed b a s
    exact hk.trans (acceptClosed_requestInFlight hv hs k)
  · obtain ⟨k, hk⟩ := exec_eq_acceptOpen hf (fun b a hi => hc ⟨b, a, hi⟩) s
    exact hk.trans (acceptOpen_requestInFlight hv hs k)

end Sys2Proof.Machine
